-- ==== Sys2Proof/Word.lean ====
section
/-! DEFINITION. The word types of the quantized GEMM engine (R10): bit 0 is the least significant bit, everything is unsigned. -/

namespace Sys2Proof

/-- One byte, the only addressable unit of memory (R40). -/
abbrev Byte := BitVec 8

/-- A bf16 halfword, the element of C (R88). -/
abbrev Half := BitVec 16

/-- A binary32 word: a scale factor or an accumulator (R85). -/
abbrev Word := BitVec 32

/-- The contents of the `SHAPE` latch: three unsigned 32-bit integers (R35). -/
structure Shape where
  m : BitVec 32
  n : BitVec 32
  k : BitVec 32
  deriving DecidableEq, Repr, Inhabited

/-- A triple of dimensions in the document's order (M, N, K), as natural numbers (R12). -/
structure Dims where
  m : Nat
  n : Nat
  k : Nat
  deriving DecidableEq, Repr, Inhabited

/-- The dimensions a `SHAPE` latch holds, as natural numbers (R12). -/
def Shape.dims (h : Shape) : Dims := ⟨h.m.toNat, h.n.toNat, h.k.toNat⟩

/-- The 32-bit latch of a triple of dimensions (R35). -/
def Dims.latch (d : Dims) : Shape := ⟨BitVec.ofNat 32 d.m, BitVec.ofNat 32 d.n, BitVec.ofNat 32 d.k⟩

/-- `ceil_div(a, b) = (a + b - 1) div b` (R11). -/
def ceilDiv (a b : Nat) : Nat := (a + b - 1) / b

end Sys2Proof
end

