-- ==== Sys2Proof/Config.lean ====
section
/-! DEFINITION. The implementation parameters of the engine (R8, R9) and the free values: what an implementation fixes and what the spec leaves open. -/

namespace Sys2Proof

/-- `BLOCK` = 128, the K chunk of both operands and the N tile of B_scale (R8, D30). -/
abbrev BLOCK : Nat := 128

/-- The two FP8 variants of `FP8_FORMAT` (R8, R80). -/
inductive Fp8Format where
  /-- bias 8, one NaN, no negative zero, no infinity (R81); the default -/
  | e4m3fnuz
  /-- bias 7, two NaNs, signed zero, no infinity (R82) -/
  | e4m3fn
  deriving DecidableEq, Repr, Inhabited

/-- A range of addresses `[base, base + size)`. -/
structure Region where
  base : Nat
  size : Nat
  deriving DecidableEq, Repr, Inhabited

/-- The configuration record (R8): what the spec makes a parameter, fixed for the life of the engine.
`holes` is the platform's part (R41, R57, R68): the addresses that are NOT plain memory admitting the engine's accesses. -/
structure Config where
  fp8 : Fp8Format
  supported : List Dims
  tileM : Nat
  tileN : Nat
  holes : List Region
  deriving DecidableEq, Repr, Inhabited

/-- R9: a member (M, N, K) of `SUPPORTED_SHAPES` has positive dimensions below 2^32, with K and N divisible by `BLOCK`. -/
def Dims.supportable (d : Dims) : Bool :=
  decide (0 < d.m) && decide (0 < d.n) && decide (0 < d.k) &&
  decide (d.m < 2 ^ 32) && decide (d.n < 2 ^ 32) && decide (d.k < 2 ^ 32) &&
  decide (d.k % BLOCK = 0) && decide (d.n % BLOCK = 0)

/-- A legal configuration: R9 (every member supportable, (128, 256, 256) a member) and positive tile sizes (R117). -/
def Config.wf (c : Config) : Bool :=
  c.supported.all Dims.supportable && c.supported.contains ⟨128, 256, 256⟩ &&
  decide (0 < c.tileM) && decide (0 < c.tileN)

/-- The configuration in force at `State.reset`: the defaults of R8 for `FP8_FORMAT`, `TILE_M`, `TILE_N`,
and the `SUPPORTED_SHAPES` under which the spec's own programs run (95_test_vectors.md section 3); every address is plain memory.
DESIGN CHOICE (log entry 2), unsafe for the set of shapes and for the absence of holes, both of which are OPEN. -/
def Config.reset : Config where
  fp8 := .e4m3fnuz
  supported := [⟨128, 256, 256⟩, ⟨2, 128, 256⟩]
  tileM := 128
  tileN := 128
  holes := []

/-- FREE VALUE (log entry 6): what the `SHAPE` latch holds after its n-th discard at a completion.
R118 discards `SHAPE` and R35 gives it no value outside COMPUTE; nothing can evaluate this. -/
opaque Config.discardedShape : Nat → Shape

end Sys2Proof
end

