-- ==== Sys2Proof/Syntax.lean ====
section
/-! DEFINITION. The command set: the one inductive `Instr` (one row of opcode_table.json, GEMM, R100) and the 1024-bit record that carries it (R70). -/

namespace Sys2Proof

/-- One operand of the assembler form, `<base>:<dim0>x<dim1>:<nbytes>` (R79): four numbers.
The descriptor field each must fit is checked by `WellFormed`. -/
structure BufArg where
  base : Nat
  dim0 : Nat
  dim1 : Nat
  nbytes : Nat
  deriving DecidableEq, Repr, Inhabited

/-- The five buffer arguments, in the order of `gemm(A, B, A_scale, B_scale, C)` (R70, R79). -/
structure Args where
  a : BufArg
  b : BufArg
  aScale : BufArg
  bScale : BufArg
  c : BufArg
  deriving DecidableEq, Repr, Inhabited

/-- The command set: one command (R2, R75, R100). -/
inductive Instr where
  /-- `GEMM A=…, B=…, AS=…, BS=…, C=…` (R79, R100) -/
  | gemm (args : Args)
  deriving DecidableEq, Repr, Inhabited

/-- The names of the five buffers of a call (R45). -/
inductive Buf where
  | a
  | b
  | aScale
  | bScale
  | c
  deriving DecidableEq, Repr

/-- A 24-byte buffer sub-descriptor as the hardware holds it (R72). -/
structure SubDesc where
  base : BitVec 64
  dim0 : BitVec 32
  dim1 : BitVec 32
  nbytes : BitVec 64
  deriving DecidableEq, Repr, Inhabited

/-- The command descriptor `DESC128`, 1024 bits, by the named fields of R23 and R70.
Its 128-byte layout is `Desc.toBytes` and `Desc.ofBytes` of Decode.lean. -/
structure Desc where
  opcode : BitVec 8
  rsvd : BitVec 56
  a : SubDesc
  b : SubDesc
  aScale : SubDesc
  bScale : SubDesc
  c : SubDesc
  deriving DecidableEq, Repr, Inhabited

end Sys2Proof
end

