-- ==== Sys2Proof/WellFormed.lean ====
section
/-! DEFINITION. When a command of the assembler form fits the descriptor: each number fits its field (R70, R72). -/

namespace Sys2Proof

/-- `base` and `nbytes` fit 64 bits, the two dimensions 32 bits (R72). -/
def BufArg.wf (b : BufArg) : Bool :=
  decide (b.base < 2 ^ 64) && decide (b.dim0 < 2 ^ 32) && decide (b.dim1 < 2 ^ 32) && decide (b.nbytes < 2 ^ 64)

/-- Every sub-descriptor fits (R70). -/
def Args.wf (x : Args) : Bool :=
  x.a.wf && x.b.wf && x.aScale.wf && x.bScale.wf && x.c.wf

/-- A command that a descriptor can carry. No value of a fitting field is reserved (R73), so nothing else is asked. -/
def Instr.wf : Instr → Bool
  | .gemm args => args.wf

end Sys2Proof
end

