-- ==== Sys2Proof/Decode.lean ====
section
/-! DEFINITION. The command encoding (R70 to R77): the 128-byte layout of a descriptor, the decoder, total on any bytes and rejecting by name, and after it the encoder. -/

namespace Sys2Proof

/-- The unsigned little-endian integer in the `n` bytes of `bs` from offset `off` (R70, R10). -/
def leNat (bs : List Byte) (off : Nat) : Nat → Nat
  | 0 => 0
  | n + 1 => (bs.getD off 0).toNat + 256 * leNat bs (off + 1) n

/-- The `n` bytes of a number, least significant first (R10, R70). -/
def leBytes : Nat → Nat → List Byte
  | 0, _ => []
  | n + 1, v => BitVec.ofNat 8 v :: leBytes n (v / 256)

/-- The 24-byte sub-descriptor at byte offset `off`: base at 0, dim0 at 8, dim1 at 12, nbytes at 16 (R72). -/
def SubDesc.ofBytes (bs : List Byte) (off : Nat) : SubDesc where
  base := BitVec.ofNat 64 (leNat bs off 8)
  dim0 := BitVec.ofNat 32 (leNat bs (off + 8) 4)
  dim1 := BitVec.ofNat 32 (leNat bs (off + 12) 4)
  nbytes := BitVec.ofNat 64 (leNat bs (off + 16) 8)

/-- The descriptor in 128 bytes, by the byte offsets of R70. -/
def Desc.ofBytes (bs : List Byte) : Desc where
  opcode := BitVec.ofNat 8 (leNat bs 0 1)
  rsvd := BitVec.ofNat 56 (leNat bs 1 7)
  a := SubDesc.ofBytes bs 8
  b := SubDesc.ofBytes bs 32
  aScale := SubDesc.ofBytes bs 56
  bScale := SubDesc.ofBytes bs 80
  c := SubDesc.ofBytes bs 104

/-- The 24 bytes of a sub-descriptor (R72). -/
def SubDesc.toBytes (x : SubDesc) : List Byte :=
  leBytes 8 x.base.toNat ++ leBytes 4 x.dim0.toNat ++ leBytes 4 x.dim1.toNat ++ leBytes 8 x.nbytes.toNat

/-- The 128 bytes of a descriptor (R70). -/
def Desc.toBytes (d : Desc) : List Byte :=
  leBytes 1 d.opcode.toNat ++ leBytes 7 d.rsvd.toNat ++
  d.a.toBytes ++ d.b.toBytes ++ d.aScale.toBytes ++ d.bScale.toBytes ++ d.c.toBytes

/-- Why a string of bytes is no command. -/
inductive DecodeError where
  /-- not 128 bytes: there is one descriptor length (R70, R77) -/
  | wrongLength
  /-- `opcode` is not 0x01 (R75) -/
  | illegalOpcode
  /-- `opcode` is 0x01 and a reserved bit is set (R76) -/
  | reservedNotZero
  deriving DecidableEq, Repr

/-- A field group read as the numbers its bits spell: no extension, no scaling, no offset (R73). -/
def SubDesc.args (x : SubDesc) : BufArg :=
  ⟨x.base.toNat, x.dim0.toNat, x.dim1.toNat, x.nbytes.toNat⟩

/-- The five operands of a descriptor (R70, R73). -/
def Desc.args (d : Desc) : Args :=
  ⟨d.a.args, d.b.args, d.aScale.args, d.bScale.args, d.c.args⟩

/-- The opcode map: 0x01 with a zero reserved field is GEMM, everything else is illegal (R75, R76). -/
def decodeDesc (d : Desc) : Except DecodeError Instr :=
  if d.opcode ≠ 0x01#8 then .error .illegalOpcode
  else if d.rsvd ≠ 0#56 then .error .reservedNotZero
  else .ok (.gemm d.args)

/-- The decoder on bytes, total (R70, R75, R76, R77). -/
def decodeBytes (bs : List Byte) : Except DecodeError Instr :=
  if bs.length = 128 then decodeDesc (Desc.ofBytes bs) else .error .wrongLength

/-- The sub-descriptor that carries an operand (R72, R79). -/
def BufArg.sub (b : BufArg) : SubDesc :=
  ⟨BitVec.ofNat 64 b.base, BitVec.ofNat 32 b.dim0, BitVec.ofNat 32 b.dim1, BitVec.ofNat 64 b.nbytes⟩

/-- The encoder: `opcode = 0x01`, `rsvd = 0`, the operands in order (R79). -/
def encode : Instr → Desc
  | .gemm x => ⟨0x01#8, 0#56, x.a.sub, x.b.sub, x.aScale.sub, x.bScale.sub, x.c.sub⟩

/-- The 128 bytes of an encoded command (R70). -/
def encodeBytes (i : Instr) : List Byte := (encode i).toBytes

/-- The pseudo-command `GEMM.MNK` (R79), defined only when K and N are multiples of 128. -/
def gemmMNK (d : Dims) (a b aScale bScale c : Nat) : Option Instr :=
  if d.k % BLOCK = 0 ∧ d.n % BLOCK = 0 then
    some (.gemm
      ⟨⟨a, d.k, d.m, d.k * d.m⟩,
       ⟨b, d.k, d.n, d.k * d.n⟩,
       ⟨aScale, d.k / BLOCK, d.m, 4 * (d.k / BLOCK) * d.m⟩,
       ⟨bScale, d.k / BLOCK, d.n / BLOCK, 4 * (d.k / BLOCK) * (d.n / BLOCK)⟩,
       ⟨c, d.m, d.n, 2 * d.m * d.n⟩⟩)
  else none

/-- One operand in the assembler form, `<base>:<dim0>x<dim1>:<nbytes>`, in decimal (R79). -/
def BufArg.asm (b : BufArg) : String :=
  toString b.base ++ ":" ++ toString b.dim0 ++ "x" ++ toString b.dim1 ++ ":" ++ toString b.nbytes

/-- The assembler form of a command (R79). -/
def Instr.asm : Instr → String
  | .gemm x => "GEMM A=" ++ x.a.asm ++ ", B=" ++ x.b.asm ++ ", AS=" ++ x.aScale.asm ++ ", BS=" ++ x.bScale.asm ++ ", C=" ++ x.c.asm

/-- The 128 bytes of a command whose bits are `w`, numbered as opcode_table.json numbers them
(descriptor byte j holds bits [8j+7:8j], R70), `nbits` counts whole bytes; every byte from there up is zero. -/
def tableBytes (nbits w : Nat) : List Byte :=
  leBytes (nbits / 8) w ++ List.replicate (128 - nbits / 8) 0#8

/-- The command the decoder reads from a word of opcode_table.json; a row wider than the one command length is none (R70, R77). -/
def decodeTableWord (nbits w : Nat) : Option Instr :=
  if nbits ≤ 1024 then
    match decodeBytes (tableBytes nbits w) with
    | .ok i => some i
    | .error _ => none
  else none

end Sys2Proof
end

