-- ==== Sys2Proof/Machine/State.lean ====
section
/-! DEFINITION. The state of the system as plain data (R20): memory, the engine's interface state, the tile workers in flight, and the model's own three fields
(the configuration record it carries, the agenda of outside events and scheduling choices, the count of discarded latches). -/

namespace Sys2Proof.Machine

/-- Memory as the list of its bytes that are not zero, by rising address (`Memory.wf` of Ops.lean).
An address that is not listed reads as 0x00: DESIGN CHOICE, unsafe (log entry 1). -/
abbrev Memory := List Host.Cell

/-- `PHASE` (R24). The value 3 is never taken, so it has no constructor. -/
inductive Phase where
  | idle
  | validate
  | compute
  deriving DecidableEq, Repr

/-- The two bits of `PHASE` (R24). -/
def Phase.bits : Phase → BitVec 2
  | .idle => 0
  | .validate => 1
  | .compute => 2

/-- `stage` of a tile worker (R26). -/
inductive Stage where
  | pending
  | accum
  | stored
  deriving DecidableEq, Repr

/-- One entry of a worker's accumulator file: `acc[i][j]` (R27). `written` says that its element of C has been written,
which the store step needs when its element writes come one at a time (R114). -/
structure AccEntry where
  i : Nat
  j : Nat
  val : Word
  written : Bool
  deriving DecidableEq, Repr

/-- A tile worker (R26): its tile, its stage, the contraction counter, the accumulator file (R27; empty while no entry is initialised)
and the scale latches (R28; `sA` holds `sA[i]` at position i, empty while not loaded). -/
structure Worker where
  ti : Nat
  tj : Nat
  stage : Stage
  k : Nat
  acc : List AccEntry
  sA : List Word
  sB : List Word
  deriving DecidableEq, Repr

/-- What happens next: an act of the host or of the reset input, or the choice of which agent of the engine takes the next step (R36).
The spec leaves the schedule free (R60, R117), so the agenda, plain data, may hold any. -/
inductive Event where
  /-- the host calls the engine with a descriptor, and the whole command is one step (R100, R117) -/
  | command (d : Desc)
  /-- the host presents a descriptor on the command port, and the step is the issue alone (R101) -/
  | issue (d : Desc)
  /-- the sequencer is chosen: validation or completion, when enabled (R102, R118) -/
  | sequencer
  /-- the worker at this position of the worker set is chosen: start, accumulate or store (R111, R112, R114) -/
  | worker (w : Nat)
  /-- the worker at position `w` writes the one element of C at position `e` of its accumulator file (the finer store of R114, R60) -/
  | storeElement (w e : Nat)
  /-- the reset input (R215) -/
  | reset
  /-- the host writes one byte of memory (R36) -/
  | hostWrite (addr : BitVec 64) (v : Byte)
  /-- the host writes `STATUS`, which is ignored (R25) -/
  | hostWriteStatus (v : BitVec 32)
  deriving DecidableEq, Repr

/-- The state of the system. -/
structure State where
  /-- the configuration record (R8); the model carries it here, no step changes it (log entry 2) -/
  cfg : Config
  /-- `Mem` (R29, R40) -/
  mem : Memory
  /-- the `CMD` latch, 1024 bits (R23) -/
  cmd : Desc
  /-- `PHASE` (R24) -/
  phase : Phase
  /-- `STATUS.CODE` (R25) -/
  code : BitVec 8
  /-- `STATUS.DONE` (R25); `STATUS.BUSY` is a view of `phase`, see `State.status` in Flags.lean -/
  doneBit : Bool
  /-- the `SHAPE` latch (R35) -/
  shape : Shape
  /-- the worker set `W` (R26), empty outside COMPUTE -/
  workers : List Worker
  /-- the model's own: what happens next (log entry 3) -/
  agenda : List Event
  /-- the model's own: how many times `SHAPE` has been discarded (log entry 6) -/
  discards : Nat
  deriving DecidableEq, Repr

/-- Why the machine stops with a fault. Neither can happen in a state that a run from reset reaches (Safety.lean, `State.Inv`). -/
inductive Fault where
  /-- A worker's accumulate step reads a scale latch that was never loaded (R28, R34, U8: a read of an element that has no value faults). Raised by `accumulateStep`. Safe. -/
  | unloadedScaleLatch
  /-- A worker would access an address of 2^64 or more, which does not exist (R40). Raised by `workerStep` and `storeElementStep`. Safe. -/
  | outsideAddressSpace
  deriving DecidableEq, Repr

/-- Why the model gives a step no meaning. -/
inductive Refusal where
  /-- The instruction has no meaning yet. Raised by no arm of this model. Safe. -/
  | notModelled (mnemonic : String)
  /-- A byte that a command or the host would access is not plain memory (R57, R68, D26, U4). Raised by `launch` and `hostWriteStep`. Safe. -/
  | notPlainMemory
  /-- The host writes a byte of an input buffer while the command runs (R56, H-1, U3). Raised by `hostWriteStep`. Safe. -/
  | hostWroteInput
  /-- The host writes a byte of C while the command runs (R224, H-3, U6). Raised by `hostWriteStep`. Safe. -/
  | hostWroteOutput
  deriving DecidableEq, Repr

/-- What every step of the model answers. -/
abbrev Result := Host.Outcome State Fault Refusal

/-- The descriptor whose 1024 bits are zero: what `CMD` holds at reset. DESIGN CHOICE, the spec gives no value (log entry 4). -/
def zeroDesc : Desc :=
  let z : SubDesc := ⟨0, 0, 0, 0⟩
  ⟨0, 0, z, z, z, z, z⟩

/-- The state right after reset (R34, R215): PHASE = IDLE, STATUS = 0, no workers.
`CMD` and `SHAPE` are zero by DESIGN CHOICE (log entry 4); memory lists nothing (log entry 1). -/
def State.reset : State where
  cfg := Config.reset
  mem := []
  cmd := zeroDesc
  phase := .idle
  code := 0
  doneBit := false
  shape := ⟨0, 0, 0⟩
  workers := []
  agenda := []
  discards := 0

end Sys2Proof.Machine
end

