-- ==== Sys2Proof/Machine/Ops.lean ====
section
/-! DEFINITION. The named operations over memory (R40 to R44) and over the interface state: issue (R101), the error completion (R195), the successful completion (R118) and the reset event (R215). -/

namespace Sys2Proof.Machine

/-- What an address that memory does not list reads as. DESIGN CHOICE, unsafe (log entry 1). -/
def unlistedByte : Byte := 0x00#8

/-- The byte at an address (R40). -/
def Memory.byte : Memory → Nat → Byte
  | [], _ => unlistedByte
  | (b, v) :: rest, a => if a = b then v else Memory.byte rest a

/-- Memory with one byte replaced; keeps the canonical form. -/
def Memory.setByte : Memory → Nat → Byte → Memory
  | [], a, v => if v = unlistedByte then [] else [(a, v)]
  | (b, w) :: rest, a, v =>
    if a < b then (if v = unlistedByte then (b, w) :: rest else (a, v) :: (b, w) :: rest)
    else if a = b then (if v = unlistedByte then rest else (a, v) :: rest)
    else (b, w) :: Memory.setByte rest a v

/-- The canonical form above a bound: addresses from `lo` up, strictly rising, below 2^64, and no entry that reads as an unlisted address does. -/
def Memory.wfFrom : Nat → Memory → Bool
  | _, [] => true
  | lo, (a, v) :: rest =>
    decide (lo ≤ a) && decide (a < 2 ^ 64) && decide (v ≠ unlistedByte) && Memory.wfFrom (a + 1) rest

/-- The canonical form of memory: equal memories are equal lists. -/
def Memory.wf (mem : Memory) : Bool := Memory.wfFrom 0 mem

/-- `MemRead(addr, n)`: the n-byte little-endian unsigned integer (R42, R43). -/
def Memory.read (mem : Memory) (addr : Nat) : Nat → Nat
  | 0 => 0
  | n + 1 => (mem.byte addr).toNat + 256 * Memory.read mem (addr + 1) n

/-- `MemWrite(addr, n, v)`: byte i at `addr + i` is `(v div 2^(8i)) mod 256` (R42, R44). -/
def Memory.write (mem : Memory) (addr : Nat) : Nat → Nat → Memory
  | 0, _ => mem
  | n + 1, v => Memory.write (mem.setByte addr (BitVec.ofNat 8 v)) (addr + 1) n (v / 256)

/-- A 4-byte read of a scale word (R43, R48, R49). -/
def Memory.word (mem : Memory) (addr : Nat) : Word := BitVec.ofNat 32 (mem.read addr 4)

/-- The halfword at an address, as the host reads an element of C (R42, R43). -/
def Memory.half (mem : Memory) (addr : Nat) : Half := BitVec.ofNat 16 (mem.read addr 2)

/-- The engine's only write, 2 bytes (R44, R173). -/
def Memory.setHalf (mem : Memory) (addr : Nat) (h : Half) : Memory := mem.write addr 2 h.toNat

/-- An address lies in the range of `size` bytes from `base`. -/
def inRange (base size a : Nat) : Bool := decide (base ≤ a) && decide (a < base + size)

/-- Two ranges of bytes are disjoint (R109): one ends before the other begins. -/
def disjointRanges (base₁ size₁ base₂ size₂ : Nat) : Bool :=
  decide (base₁ + size₁ ≤ base₂) || decide (base₂ + size₂ ≤ base₁)

/-- The completion codes that name an error (R186). -/
inductive ErrorCode where
  | illegalCommand
  | blockAlignment
  | shapeMismatch
  | unsupportedShape
  | buffer
  deriving DecidableEq, Repr

/-- The numbers of the error codes (R186). -/
def ErrorCode.bits : ErrorCode → BitVec 8
  | .illegalCommand => 0x01
  | .blockAlignment => 0x02
  | .shapeMismatch => 0x03
  | .unsupportedShape => 0x04
  | .buffer => 0x05

/-- Issue (R101): `CMD <- d`, `STATUS.DONE <- 0`, `STATUS.CODE <- 0`, `PHASE <- VALIDATE`. -/
def State.issue (d : Desc) (s : State) : State :=
  { s with cmd := d, doneBit := false, code := 0, phase := .validate }

/-- `raise <Error>(code)`, the engine's only exception (R195): `STATUS.CODE <- code`, `STATUS.DONE <- 1`, `PHASE <- IDLE`, nothing else.
There is no saved pc, no handler and no return operation (R195, R196). -/
def State.raise (e : ErrorCode) (s : State) : State :=
  { s with code := e.bits, doneBit := true, phase := .idle }

/-- Successful completion (R118): `STATUS.CODE <- 0`, `STATUS.DONE <- 1`, `PHASE <- IDLE`, `W` and `SHAPE` discarded.
What the discarded latch holds is a free value (log entry 6). -/
def State.complete (s : State) : State :=
  { s with code := 0, doneBit := true, phase := .idle, workers := [],
           shape := Config.discardedShape s.discards, discards := s.discards + 1 }

/-- The reset event (R215, R34): `PHASE <- IDLE`, `STATUS <- 0`, no workers; `Mem` unchanged.
`CMD` and `SHAPE` become unspecified and take the values they have at `State.reset` (log entry 4). -/
def State.resetEvent (s : State) : State :=
  { s with cmd := State.reset.cmd, phase := .idle, code := 0, doneBit := false, shape := State.reset.shape, workers := [] }

end Sys2Proof.Machine
end

