-- ==== Sys2Proof/Machine/Values.lean ====
section
/-! DEFINITION. The class values of R13 and the exact numbers they denote: the domain in which the datapath computes. -/

namespace Sys2Proof.Machine

/-- A class value (R13). In `fin s m x` the significand `m` is positive and the number is `(-1)^s * m * 2^x`. -/
inductive ClassVal where
  | nan
  | inf (s : Bool)
  | zero (s : Bool)
  | fin (s : Bool) (m : Nat) (x : Int)
  deriving DecidableEq, Repr

/-- An exact dyadic number `num * 2^exp`. -/
structure Exact where
  num : Int
  exp : Int
  deriving DecidableEq, Repr

/-- The significand of a `fin` is positive (R13). -/
def ClassVal.wf : ClassVal → Bool
  | .fin _ m _ => decide (0 < m)
  | _ => true

/-- Neither a NaN nor an infinity. -/
def ClassVal.isFinite : ClassVal → Bool
  | .nan => false
  | .inf _ => false
  | .zero _ => true
  | .fin _ _ _ => true

/-- A zero of either sign. -/
def ClassVal.isZero : ClassVal → Bool
  | .zero _ => true
  | _ => false

/-- The sign flipped; a NaN has none (R13, R161 (e)). -/
def ClassVal.neg : ClassVal → ClassVal
  | .nan => .nan
  | .inf s => .inf (!s)
  | .zero s => .zero (!s)
  | .fin s m x => .fin (!s) m x

/-- `val(c)` of a zero or finite class value as an exact dyadic (R13); used only for those two classes. -/
def ClassVal.exact : ClassVal → Exact
  | .nan => ⟨0, 0⟩
  | .inf _ => ⟨0, 0⟩
  | .zero _ => ⟨0, 0⟩
  | .fin s m x => ⟨if s then -(m : Int) else m, x⟩

/-- The exact sum of two dyadics, formed at the smaller exponent. -/
def Exact.add (a b : Exact) : Exact :=
  let x := min a.exp b.exp
  ⟨a.num * 2 ^ (a.exp - x).toNat + b.num * 2 ^ (b.exp - x).toNat, x⟩

/-- Two magnitudes `m * 2^x` are the same real number, decided at the smaller exponent. -/
def sameMagnitude (m₁ : Nat) (x₁ : Int) (m₂ : Nat) (x₂ : Int) : Bool :=
  let x := min x₁ x₂
  decide (m₁ * 2 ^ (x₁ - x).toNat = m₂ * 2 ^ (x₂ - x).toNat)

/-- The same class value (R13): two `fin` with the same sign and the same real number are the same value. -/
def ClassVal.same : ClassVal → ClassVal → Bool
  | .nan, .nan => true
  | .inf s, .inf t => s == t
  | .zero s, .zero t => s == t
  | .fin s m x, .fin t n y => s == t && sameMagnitude m x n y
  | _, _ => false

/-- The rational number a dyadic denotes. For statements; no step evaluates it. -/
def Exact.toRat (r : Exact) : ℚ := (r.num : ℚ) * (2 : ℚ) ^ r.exp

/-- `val(c)` as a rational number (R13). For statements; no step evaluates it. -/
def ClassVal.val (c : ClassVal) : ℚ := c.exact.toRat

/-- The numeric order with the infinities at the ends (R172 (c)); a NaN is in no order. -/
def ClassVal.le (p q : ClassVal) : Prop :=
  p ≠ .nan ∧ q ≠ .nan ∧ (p = .inf true ∨ q = .inf false ∨ (p.isFinite = true ∧ q.isFinite = true ∧ p.val ≤ q.val))

end Sys2Proof.Machine
end

