-- ==== Sys2Proof/Machine/Dequant.lean ====
section
/-! DEFINITION. The dequant_multiplier: `FP8DEC`, `F32DEC`, `CMUL`, `DQMUL` (R130 to R139). Pure total functions. -/

namespace Sys2Proof.Machine

/-- `FP8DEC` (R131), by the layout of R80. -/
def fp8dec (fmt : Fp8Format) (b : Byte) : ClassVal :=
  let s := b.getLsbD 7
  let e := (b.extractLsb' 3 4).toNat
  let t := (b.extractLsb' 0 3).toNat
  match fmt with
  | .e4m3fnuz =>
    if b = 0x80#8 then .nan
    else if b = 0x00#8 then .zero false
    else if e = 0 then .fin s t (-10)
    else .fin s (8 + t) ((e : Int) - 11)
  | .e4m3fn =>
    if e = 15 ∧ t = 7 then .nan
    else if e = 0 ∧ t = 0 then .zero s
    else if e = 0 then .fin s t (-9)
    else .fin s (8 + t) ((e : Int) - 10)

/-- The sign bit `u[31]` of a binary32 word (R85). -/
def signOf (u : Word) : Bool := u.getLsbD 31

/-- The exponent field `u[30:23]` (R85). -/
def expField (u : Word) : Nat := (u.extractLsb' 23 8).toNat

/-- The fraction field `u[22:0]` (R85). -/
def fracField (u : Word) : Nat := (u.extractLsb' 0 23).toNat

/-- A binary32 NaN pattern (R85). -/
def isNaN32 (u : Word) : Bool := decide (expField u = 255) && decide (fracField u ≠ 0)

/-- `F32DEC` (R132). -/
def f32dec (u : Word) : ClassVal :=
  let s := signOf u
  let e := expField u
  let t := fracField u
  if e = 255 ∧ t ≠ 0 then .nan
  else if e = 255 then .inf s
  else if e = 0 ∧ t = 0 then .zero s
  else if e = 0 then .fin s t (-149)
  else .fin s (2 ^ 23 + t) ((e : Int) - 150)

/-- `CMUL`: exact multiplication of class values, the rows of R136 from the top. -/
def cmul : ClassVal → ClassVal → ClassVal
  | .nan, _ => .nan
  | _, .nan => .nan
  | .inf _, .zero _ => .nan
  | .zero _, .inf _ => .nan
  | .inf s, .inf t => .inf (s ^^ t)
  | .inf s, .fin t _ _ => .inf (s ^^ t)
  | .fin s _ _, .inf t => .inf (s ^^ t)
  | .zero s, .zero t => .zero (s ^^ t)
  | .zero s, .fin t _ _ => .zero (s ^^ t)
  | .fin s _ _, .zero t => .zero (s ^^ t)
  | .fin s m x, .fin t n y => .fin (s ^^ t) (m * n) (x + y)

/-- `DQMUL` (R137). -/
def dqmul (v s : ClassVal) : ClassVal := cmul v s

/-- The sub-block as a whole: `DQ(b, s) = DQMUL(FP8DEC(b), F32DEC(s))` (R130). -/
def dq (fmt : Fp8Format) (b : Byte) (s : Word) : ClassVal := dqmul (fp8dec fmt b) (f32dec s)

end Sys2Proof.Machine
end

