-- ==== Sys2Proof/Machine/Accumulator.lean ====
section
/-! DEFINITION. The wide_accumulator: `ACC_INIT`, `TERM`, `ROUND_F32`, `ACC_STEP`, `REDUCE_K` (R150 to R161) and the binary32 encoding (R86). -/

namespace Sys2Proof.Machine

/-- `NAN_F32`, the canonical NaN of the accumulator (R87). -/
def nanF32 : Word := 0x7FC00000#32

/-- `ACC_INIT` (R150): +0. -/
def accInit : Word := 0x00000000#32

/-- `TERM` (R152). -/
def term (a b : ClassVal) : ClassVal := cmul a b

/-- `rne(num / den)`: to the nearest integer, a tie to the even one (R154). -/
def rne (num den : Nat) : Nat :=
  let f := num / den
  let r := num % den
  if 2 * r < den then f
  else if den < 2 * r then f + 1
  else if f % 2 = 0 then f else f + 1

/-- `rne(a * 2^d)` for an integer `d` of either sign (R154, with `y = a / 2^q` and `d = -q`). -/
def rneScaled (a : Nat) (d : Int) : Nat :=
  if 0 ≤ d then a * 2 ^ d.toNat else rne a (2 ^ (-d).toNat)

/-- The word `S ++ E ++ T` of 1, 8 and 23 bits, for `e < 2^8` and `t < 2^23` (R85). -/
def packF32 (s : Bool) (e t : Nat) : Word := BitVec.ofNat 32 (2 ^ 31 * s.toNat + 2 ^ 23 * e + t)

/-- Encoding a rounded magnitude `n * 2^q` as a binary32 word, by the steps of R86 in order. -/
def encodeF32 (s : Bool) (n : Nat) (q : Int) : Word :=
  if n = 0 then packF32 s 0 0
  else
    let n' := if n = 2 ^ 24 then 2 ^ 23 else n
    let q' := if n = 2 ^ 24 then q + 1 else q
    if n' < 2 ^ 23 then packF32 s 0 n'
    else if 255 ≤ q' + 150 then packF32 s 255 0
    else packF32 s (q' + 150).toNat (n' - 2 ^ 23)

/-- The exponent `q` of the last kept bit of a magnitude `a * 2^x` with `2^e ≤ a * 2^x < 2^(e+1)`: `max(e, -126) - 23` (R154). -/
def keptExp (a : Nat) (x : Int) : Int := max ((Nat.log2 a : Int) + x) (-126) - 23

/-- `ROUND_F32` of a non-zero exact number (R154). -/
def roundF32 (r : Exact) : Word :=
  let a := r.num.natAbs
  let q := keptExp a r.exp
  encodeF32 (decide (r.num < 0)) (rneScaled a (r.exp - q)) q

/-- The infinity of a sign (R85, R155). -/
def infF32 (s : Bool) : Word := packF32 s 255 0

/-- The sum branch of `ACC_STEP` for an accumulator and a term that are zero or finite (R155). -/
def addFinite (a t : ClassVal) : Word :=
  let r := a.exact.add t.exact
  if r.num = 0 then (if a = .zero true ∧ t = .zero true then 0x80000000#32 else 0x00000000#32)
  else roundF32 r

/-- `ACC_STEP` (R155): one term into the accumulator, with one rounding. -/
def accStep (u : Word) (t : ClassVal) : Word :=
  match f32dec u, t with
  | .nan, _ => nanF32
  | _, .nan => nanF32
  | .inf s₁, .inf s₂ => if s₁ = s₂ then u else nanF32
  | .inf _, _ => u
  | _, .inf s₂ => infF32 s₂
  | a, t => addFinite a t

/-- `REDUCE_K` (R157): the terms in ascending k, one accumulator. -/
def reduceK (ts : List ClassVal) : Word := ts.foldl accStep accInit

end Sys2Proof.Machine
end

