-- ==== Sys2Proof/Machine/Converter.lean ====
section
/-! DEFINITION. The output_converter: `CVT_BF16` (R170) and the same conversion at the level of values (R171, R88). -/

namespace Sys2Proof.Machine

/-- `NAN_BF16`, the canonical NaN of C (R88). -/
def nanBF16 : Half := 0x7FC0#16

/-- `CVT_BF16` (R170). -/
def cvtBF16 (u : Word) : Half :=
  if isNaN32 u then nanBF16
  else
    let lsb := (u.extractLsb' 16 1).toNat
    BitVec.ofNat 16 ((u.toNat + 0x00007FFF + lsb) / 2 ^ 16)

/-- The halfword of sign, exponent field and fraction field, for `e < 2^8` and `t < 2^7` (R88). -/
def packBF16 (s : Bool) (e t : Nat) : Half := BitVec.ofNat 16 (2 ^ 15 * s.toNat + 2 ^ 7 * e + t)

/-- The bf16 halfword of a rounded magnitude `n * 2^q`: zero, subnormal, normal or infinity (R171). -/
def encodeBF16 (s : Bool) (n : Nat) (q : Int) : Half :=
  if n = 0 then packBF16 s 0 0
  else
    let n' := if n = 256 then 128 else n
    let q' := if n = 256 then q + 1 else q
    if n' < 128 then packBF16 s 0 n'
    else if 255 ≤ q' + 134 then packBF16 s 255 0
    else packBF16 s (q' + 134).toNat (n' - 128)

/-- The conversion of R171, from the class value of the word. It is the reference that `cvtBF16` is compared with; the engine runs `cvtBF16`. -/
def cvtBF16Value (c : ClassVal) : Half :=
  match c with
  | .nan => nanBF16
  | .inf s => packBF16 s 255 0
  | .zero s => packBF16 s 0 0
  | .fin s m x =>
    let q := max ((Nat.log2 m : Int) + x) (-126) - 7
    encodeBF16 s (rneScaled m (x - q)) q

/-- The class value of a bf16 halfword: that of the binary32 word `h ++ 0x0000` (R88). -/
def bf16dec (h : Half) : ClassVal := f32dec (h ++ 0x0000#16)

end Sys2Proof.Machine
end

