-- ==== Sys2Proof/Machine/Flags.lean ====
section
/-! DEFINITION. The engine has no flags (R31); its one flag-like state is `STATUS`, whose 32-bit word is computed here (R25, R89). -/

namespace Sys2Proof.Machine

/-- `STATUS.BUSY`: 1 exactly when `PHASE` is not `IDLE` (R25). -/
def State.busy (s : State) : Bool := decide (s.phase ≠ .idle)

/-- The word the host reads from `STATUS`: `CODE` [7:0], `DONE` [8], `BUSY` [9], [31:10] zero (R25). -/
def State.status (s : State) : BitVec 32 :=
  BitVec.ofNat 32 (s.code.toNat + 2 ^ 8 * s.doneBit.toNat + 2 ^ 9 * s.busy.toNat)

end Sys2Proof.Machine
end

