-- ==== Sys2Proof/Machine/Operands.lean ====
section
/-! DEFINITION. The operands of the command: its dimensions (R74, R104), the size, alignment and layout of the five buffers (R45 to R52), and the value of one element of C (R115). -/

namespace Sys2Proof.Machine

/-- `K = A.dim0`, `M = A.dim1`, `N = B.dim1` (R74, R104). -/
def dimsOf (x : Args) : Dims := ⟨x.a.dim1, x.b.dim1, x.a.dim0⟩

/-- The operand of a buffer name. -/
def bufArg (x : Args) : Buf → BufArg
  | .a => x.a
  | .b => x.b
  | .aScale => x.aScale
  | .bScale => x.bScale
  | .c => x.c

/-- The five buffers, in the order of the descriptor. -/
def allBufs : List Buf := [.a, .b, .aScale, .bScale, .c]

/-- The four input buffers. -/
def inputBufs : List Buf := [.a, .b, .aScale, .bScale]

/-- `req(X)`: how many bytes of a buffer the engine may touch (R45). -/
def req (d : Dims) : Buf → Nat
  | .a => d.k * d.m
  | .b => d.k * d.n
  | .aScale => 4 * (d.k / BLOCK) * d.m
  | .bScale => 4 * (d.k / BLOCK) * (d.n / BLOCK)
  | .c => 2 * d.m * d.n

/-- `align(X)` (R52, R109). -/
def alignOf : Buf → Nat
  | .a => 1
  | .b => 1
  | .aScale => 4
  | .bScale => 4
  | .c => 2

/-- The address lies in the byte range of buffer X (R45). -/
def inBuf (x : Args) (d : Dims) (buf : Buf) (a : Nat) : Bool := inRange (bufArg x buf).base (req d buf) a

/-- `addr_A(k, m)` (R46). -/
def addrA (x : Args) (d : Dims) (k m : Nat) : Nat := x.a.base + k * d.m + m

/-- `addr_B(k, n)` (R47). -/
def addrB (x : Args) (d : Dims) (k n : Nat) : Nat := x.b.base + k * d.n + n

/-- `addr_AS(kb, m)` (R48). -/
def addrAScale (x : Args) (d : Dims) (kb m : Nat) : Nat := x.aScale.base + 4 * (kb * d.m + m)

/-- `addr_BS(kb, nb)` with `NB = N div BLOCK` (R49). -/
def addrBScale (x : Args) (d : Dims) (kb nb : Nat) : Nat := x.bScale.base + 4 * (kb * (d.n / BLOCK) + nb)

/-- `addr_C(m, n)` (R50). -/
def addrC (x : Args) (d : Dims) (m n : Nat) : Nat := x.c.base + 2 * (m * d.n + n)

/-- The dequantized value of `A[k, m]`, with the scale `A_scale[k div BLOCK, m]` (R48, R137). -/
def dequantA (fmt : Fp8Format) (mem : Memory) (x : Args) (d : Dims) (k m : Nat) : ClassVal :=
  dq fmt (mem.byte (addrA x d k m)) (mem.word (addrAScale x d (k / BLOCK) m))

/-- The dequantized value of `B[k, n]`, with the scale `B_scale[k div BLOCK, n div BLOCK]` (R49, R137). -/
def dequantB (fmt : Fp8Format) (mem : Memory) (x : Args) (d : Dims) (k n : Nat) : ClassVal :=
  dq fmt (mem.byte (addrB x d k n)) (mem.word (addrBScale x d (k / BLOCK) (n / BLOCK)))

/-- `t_k` of R115. -/
def termAt (fmt : Fp8Format) (mem : Memory) (x : Args) (d : Dims) (m n k : Nat) : ClassVal :=
  term (dequantA fmt mem x d k m) (dequantB fmt mem x d k n)

/-- The accumulator of `C[m, n]` after its first `k` terms (R157). -/
def partialSum (fmt : Fp8Format) (mem : Memory) (x : Args) (d : Dims) (m n k : Nat) : Word :=
  reduceK ((List.range k).map (termAt fmt mem x d m n))

/-- `elem(m, n)`, the value of one output element as a function of memory (R115). -/
def elem (fmt : Fp8Format) (mem : Memory) (x : Args) (d : Dims) (m n : Nat) : Half :=
  cvtBF16 (partialSum fmt mem x d m n d.k)

end Sys2Proof.Machine
end

