-- ==== Sys2Proof/Machine/Validate.lean ====
section
/-! DEFINITION. Validation: the five checks in their order (R102, R105 to R109, R190), from the descriptor and the configuration alone. -/

namespace Sys2Proof.Machine

/-- Check 1 passes (R105). -/
def legalCommand (c : Desc) : Bool := decide (c.opcode = 0x01#8) && decide (c.rsvd = 0#56)

/-- Check 2 passes (R106). -/
def blockAligned (d : Dims) : Bool := decide (d.k % BLOCK = 0) && decide (d.n % BLOCK = 0)

/-- Check 3 passes: `shape_consistent` (R107). -/
def shapeConsistent (x : Args) (d : Dims) : Bool :=
  decide (0 < d.k) && decide (0 < d.m) && decide (0 < d.n) &&
  decide (x.b.dim0 = d.k) &&
  decide (x.aScale.dim0 = d.k / BLOCK) && decide (x.aScale.dim1 = d.m) &&
  decide (x.bScale.dim0 = d.k / BLOCK) && decide (x.bScale.dim1 = d.n / BLOCK) &&
  decide (x.c.dim0 = d.m) && decide (x.c.dim1 = d.n)

/-- Check 4 passes: the triple (M, N, K) is a member of `SUPPORTED_SHAPES` (R108). -/
def supportedShape (cfg : Config) (d : Dims) : Bool := cfg.supported.contains d

/-- The four conditions on one buffer: not null, not undersized, not past 2^64, aligned (R109). -/
def bufferOk (x : Args) (d : Dims) (buf : Buf) : Bool :=
  decide ((bufArg x buf).base ≠ 0) && decide (req d buf ≤ (bufArg x buf).nbytes) &&
  decide ((bufArg x buf).base + req d buf ≤ 2 ^ 64) && decide ((bufArg x buf).base % alignOf buf = 0)

/-- C meets no byte of an input (R69, R109). -/
def disjointFromC (x : Args) (d : Dims) (buf : Buf) : Bool :=
  disjointRanges (bufArg x buf).base (req d buf) x.c.base (req d .c)

/-- Check 5 passes: `buffers_ok` (R109). -/
def buffersOk (x : Args) (d : Dims) : Bool :=
  allBufs.all (bufferOk x d) && inputBufs.all (disjointFromC x d)

/-- The first failing check, if any (R102, R190). -/
def firstError (cfg : Config) (c : Desc) : Option ErrorCode :=
  let x := c.args
  let d := dimsOf x
  if legalCommand c = false then some .illegalCommand
  else if blockAligned d = false then some .blockAlignment
  else if shapeConsistent x d = false then some .shapeMismatch
  else if supportedShape cfg d = false then some .unsupportedShape
  else if buffersOk x d = false then some .buffer
  else none

/-- The address lies in no hole of the platform's memory (R41, R57, R68). -/
def plainByte (cfg : Config) (a : Nat) : Bool := cfg.holes.all fun h => !inRange h.base h.size a

/-- No hole meets the `size` bytes from `base`. -/
def plainRange (cfg : Config) (base size : Nat) : Bool :=
  cfg.holes.all fun h => decide (h.size = 0) || decide (size = 0) || disjointRanges base size h.base h.size

/-- The launch memory admits every byte of the five byte ranges (R68). -/
def launchAdmitted (cfg : Config) (x : Args) (d : Dims) : Bool :=
  allBufs.all fun buf => plainRange cfg (bufArg x buf).base (req d buf)

end Sys2Proof.Machine
end

