-- ==== Sys2Proof/Machine/Workers.lean ====
section
/-! DEFINITION. The tile workers: their creation and their three steps (R26 to R28, R110 to R114). -/

namespace Sys2Proof.Machine

/-- The tiles of the (M, N) index space, `(ti, tj)` (R26, R110). -/
def tiles (cfg : Config) (d : Dims) : List (Nat × Nat) :=
  (List.range (ceilDiv d.m cfg.tileM)).flatMap fun ti =>
    (List.range (ceilDiv d.n cfg.tileN)).map fun tj => (ti, tj)

/-- A worker as validation creates it: PENDING, nothing initialised (R26, R27, R28). -/
def newWorker (t : Nat × Nat) : Worker :=
  { ti := t.1, tj := t.2, stage := .pending, k := 0, acc := [], sA := [], sB := [] }

/-- How many rows `i` of a worker's tile lie inside M (R26). -/
def rowsOf (cfg : Config) (d : Dims) (w : Worker) : Nat := min cfg.tileM (d.m - w.ti * cfg.tileM)

/-- How many columns `j` of a worker's tile lie inside N (R26). -/
def colsOf (cfg : Config) (d : Dims) (w : Worker) : Nat := min cfg.tileN (d.n - w.tj * cfg.tileN)

/-- The row `m` of C that entry row `i` belongs to (R27). -/
def rowIndex (cfg : Config) (w : Worker) (i : Nat) : Nat := w.ti * cfg.tileM + i

/-- The column `n` of C that entry column `j` belongs to (R27). -/
def colIndex (cfg : Config) (w : Worker) (j : Nat) : Nat := w.tj * cfg.tileN + j

/-- The entry's element lies inside (M, N); an entry outside is never read or written (R27). -/
def entryInRange (cfg : Config) (d : Dims) (w : Worker) (e : AccEntry) : Bool :=
  decide (rowIndex cfg w e.i < d.m) && decide (colIndex cfg w e.j < d.n)

/-- The accumulator file as the start step leaves it: every entry in range at `ACC_INIT` (R111, R150). -/
def initAcc (cfg : Config) (d : Dims) (w : Worker) : List AccEntry :=
  (List.range (rowsOf cfg d w)).flatMap fun i =>
    (List.range (colsOf cfg d w)).map fun j => { i := i, j := j, val := accInit, written := false }

/-- Worker start (R111). -/
def startWorker (cfg : Config) (d : Dims) (w : Worker) : Worker :=
  { w with acc := initAcc cfg d w, k := 0, stage := .accum }

/-- Loading the scale latches for the chunk of `k` (R28, R112). -/
def loadLatches (cfg : Config) (mem : Memory) (x : Args) (d : Dims) (w : Worker) : Worker :=
  { w with
    sA := (List.range (rowsOf cfg d w)).map fun i => mem.word (addrAScale x d (w.k / BLOCK) (rowIndex cfg w i))
    sB := (List.range (colsOf cfg d w)).map fun j => mem.word (addrBScale x d (w.k / BLOCK) (colIndex cfg w j / BLOCK)) }

/-- One entry's part of the accumulate step, with the scales from the latches (R112); none when a latch it needs was never loaded. -/
def accumulateEntry (cfg : Config) (mem : Memory) (x : Args) (d : Dims) (w : Worker) (e : AccEntry) : Option AccEntry :=
  if entryInRange cfg d w e then
    match w.sA[e.i]?, w.sB[e.j]? with
    | some sa, some sb =>
      let a := dq cfg.fp8 (mem.byte (addrA x d w.k (rowIndex cfg w e.i))) sa
      let b := dq cfg.fp8 (mem.byte (addrB x d w.k (colIndex cfg w e.j))) sb
      some { e with val := accStep e.val (term a b) }
    | _, _ => none
  else some e

/-- The accumulate step over a list of entries. -/
def accumulateEntries (cfg : Config) (mem : Memory) (x : Args) (d : Dims) (w : Worker) : List AccEntry → Option (List AccEntry)
  | [] => some []
  | e :: es =>
    match accumulateEntry cfg mem x d w e, accumulateEntries cfg mem x d w es with
    | some e', some es' => some (e' :: es')
    | _, _ => none

/-- Worker accumulate step (R112): the latches at a chunk's start, then every entry, then `k <- k + 1`. -/
def accumulateStep (cfg : Config) (mem : Memory) (x : Args) (d : Dims) (w : Worker) : Option Worker :=
  let w' := if w.k % BLOCK = 0 then loadLatches cfg mem x d w else w
  match accumulateEntries cfg mem x d w' w'.acc with
  | some acc => some { w' with acc := acc, k := w'.k + 1 }
  | none => none

/-- One element's write of the store step (R114, R173): an entry in range whose element is not yet written. -/
def storeEntry (cfg : Config) (x : Args) (d : Dims) (w : Worker) (mem : Memory) (e : AccEntry) : Memory :=
  if entryInRange cfg d w e && !e.written then
    mem.setHalf (addrC x d (rowIndex cfg w e.i) (colIndex cfg w e.j)) (cvtBF16 e.val)
  else mem

/-- Memory after all the element writes that a worker's store step still owes (R114). -/
def storeMemory (cfg : Config) (mem : Memory) (x : Args) (d : Dims) (w : Worker) : Memory :=
  w.acc.foldl (storeEntry cfg x d w) mem

/-- A worker that has stored its tile (R114). -/
def markStored (w : Worker) : Worker :=
  { w with stage := .stored, acc := w.acc.map fun e => { e with written := true } }

/-- The entry at one position marked as written. -/
def markWritten (w : Worker) (p : Nat) : Worker :=
  { w with acc := w.acc.modify p fun e => { e with written := true } }

/-- Start of computation (R110): `SHAPE <- (M, N, K)`, one PENDING worker for each tile, `PHASE <- COMPUTE`. -/
def State.startCompute (s : State) : State :=
  let d := dimsOf s.cmd.args
  { s with shape := d.latch, workers := (tiles s.cfg d).map newWorker, phase := .compute }

/-- The worker set with one worker replaced. -/
def State.setWorker (p : Nat) (w : Worker) (s : State) : State := { s with workers := s.workers.set p w }

/-- Memory replaced. -/
def State.withMem (mem : Memory) (s : State) : State := { s with mem := mem }

/-- Every byte range of the command lies below 2^64, so that no access of a worker leaves the address space (R40, R43). -/
def rangesInSpace (x : Args) (d : Dims) : Bool :=
  allBufs.all fun buf => decide ((bufArg x buf).base + req d buf ≤ 2 ^ 64)

/-- The step of the worker at position `p` (R111, R112, R114). A worker that is STORED, or no worker, takes no step. -/
def workerStep (p : Nat) (s : State) : Result :=
  let x := s.cmd.args
  let d := s.shape.dims
  match s.workers[p]? with
  | none => .next s
  | some w =>
    if rangesInSpace x d = false then .fault .outsideAddressSpace
    else
      match w.stage with
      | .pending => .next (s.setWorker p (startWorker s.cfg d w))
      | .accum =>
        if w.k < d.k then
          match accumulateStep s.cfg s.mem x d w with
          | some w' => .next (s.setWorker p w')
          | none => .fault .unloadedScaleLatch
        else if w.k = d.k then
          .next ((s.setWorker p (markStored w)).withMem (storeMemory s.cfg s.mem x d w))
        else .next s
      | .stored => .next s

/-- The finer store (R114, R60): the worker at position `p`, all its terms accumulated, writes the one element at position `q` of its
accumulator file, once. In any other case there is no such step. -/
def storeElementStep (p q : Nat) (s : State) : Result :=
  let x := s.cmd.args
  let d := s.shape.dims
  match s.workers[p]? with
  | none => .next s
  | some w =>
    match w.acc[q]? with
    | none => .next s
    | some e =>
      if w.stage = .accum ∧ w.k = d.k then
        if rangesInSpace x d = false then .fault .outsideAddressSpace
        else .next ((s.setWorker p (markWritten w q)).withMem (storeEntry s.cfg x d w s.mem e))
      else .next s

end Sys2Proof.Machine
end

