-- ==== Sys2Proof/Machine/Engine.lean ====
section
/-! DEFINITION. The sequencer's steps (R102, R118), the default schedule, and the acts of the host and of the reset input (R36, R215). -/

namespace Sys2Proof.Machine

/-- The tail of a validation that passed (R110), refused where the launch memory does not admit the command's bytes (R57, R68). -/
def launch (s : State) : Result :=
  if launchAdmitted s.cfg s.cmd.args (dimsOf s.cmd.args) then .next s.startCompute else .refused .notPlainMemory

/-- Validation, one sequencer step (R102). -/
def validateStep (s : State) : Result :=
  match firstError s.cfg s.cmd with
  | some e => .next (s.raise e)
  | none => launch s

/-- Every worker has stored its tile (R118). -/
def allStored (ws : List Worker) : Bool := ws.all fun w => decide (w.stage = .stored)

/-- The sequencer's step when it is chosen: validation or completion where enabled, otherwise none (R102, R118). -/
def sequencerStep (s : State) : Result :=
  match s.phase with
  | .idle => .next s
  | .validate => validateStep s
  | .compute => if allStored s.workers then .next s.complete else .next s

/-- The schedule the engine follows when the agenda names none: the first worker that is not STORED, then the sequencer.
It is one weakly fair schedule among those R119 allows (log entry 3). -/
def engineStep (s : State) : Result :=
  match s.phase with
  | .idle => .next s
  | .validate => validateStep s
  | .compute =>
    match s.workers.findIdx? fun w => decide (w.stage ≠ .stored) with
    | some p => workerStep p s
    | none => .next s.complete

/-- A validated command is running or about to run, so the host owes it stable buffers (R56, R224). -/
def commandOwnsBuffers (s : State) : Bool := s.busy && (firstError s.cfg s.cmd).isNone

/-- The byte is one of an input buffer of the command in flight (R56). -/
def ownedInput (s : State) (a : Nat) : Bool :=
  commandOwnsBuffers s && inputBufs.any fun buf => inBuf s.cmd.args (dimsOf s.cmd.args) buf a

/-- The byte is one of C of the command in flight (R224). -/
def ownedOutput (s : State) (a : Nat) : Bool :=
  commandOwnsBuffers s && inBuf s.cmd.args (dimsOf s.cmd.args) .c a

/-- The host writes one byte of memory (R36), refused where the spec gives the run no meaning (U3, U4, U6). -/
def hostWriteStep (a : BitVec 64) (v : Byte) (s : State) : Result :=
  if plainByte s.cfg a.toNat = false then .refused .notPlainMemory
  else if ownedInput s a.toNat then .refused .hostWroteInput
  else if ownedOutput s a.toNat then .refused .hostWroteOutput
  else .next (s.withMem (s.mem.setByte a.toNat v))

/-- The issue of a descriptor, enabled only in IDLE (R101); a busy engine holds it, which `step` sees to. -/
def issueStep (c : Desc) (s : State) : Result :=
  if s.phase = .idle then .next (s.issue c) else .next s

/-- A host write to `STATUS` is ignored (R25). -/
def hostWriteStatusStep (_v : BitVec 32) (s : State) : Result := .next s

/-- The event needs the command port, which is not ready while the engine is busy (R101). -/
def needsPort : Event → Bool
  | .command _ => true
  | .issue _ => true
  | _ => false

/-- The event is a choice among the engine's own agents, no act of the host and no reset (R36). -/
def engineEvent : Event → Bool
  | .sequencer => true
  | .worker _ => true
  | .storeElement _ _ => true
  | _ => false

end Sys2Proof.Machine
end

