-- ==== Sys2Proof/Machine/Gemm.lean ====
section
/-! DEFINITION. The meaning of GEMM: the whole command as one function (R100), which R117 allows and which the step-by-step machine of Workers.lean and Engine.lean is to equal. -/

namespace Sys2Proof.Machine

/-- The elements of C, `(m, n)` (R100). -/
def cells (d : Dims) : List (Nat × Nat) :=
  (List.range d.m).flatMap fun m => (List.range d.n).map fun n => (m, n)

/-- Memory after every element of C is written (R100, R116). The elements are those of the memory at issue (R115). -/
def gemmMemory (cfg : Config) (mem : Memory) (x : Args) (d : Dims) : Memory :=
  (cells d).foldl (fun m' p => m'.setHalf (addrC x d p.1 p.2) (elem cfg.fp8 mem x d p.1 p.2)) mem

/-- The computation and its completion, from a state that `launch` answers (R100, R116, R118). -/
def State.computeAll (s : State) : State :=
  (s.withMem (gemmMemory s.cfg s.mem s.cmd.args s.shape.dims)).complete

/-- A command from issue to completion, legal or not (R100): issue, validation, computation. -/
def runCommand (c : Desc) (s : State) : Result :=
  match validateStep (s.issue c) with
  | .next t => if t.phase = .compute then .next t.computeAll else .next t
  | .fault r => .fault r
  | .refused r => .refused r

/-- `GEMM` (R100). On a busy engine the command has no step: the port holds it (R101). -/
def execGemm (args : Args) (s : State) : Result :=
  if s.phase = .idle then runCommand (encode (.gemm args)) s else .next s

end Sys2Proof.Machine
end

