-- ==== Sys2Proof/Machine/Step.lean ====
section
/-! DEFINITION. One step of the system: the head of the agenda, or, with nothing on it, the engine's default schedule. -/

namespace Sys2Proof.Machine

/-- A command taken from the port of an idle engine: decoded and run whole. A descriptor that decodes to no instruction still completes,
with `ERR_ILLEGAL_COMMAND` (R75, R76, R105). -/
def commandStep (c : Desc) (s : State) : Host.Outcome State Fault Refusal :=
  match decodeDesc c with
  | .ok i => exec i s
  | .error _ => runCommand c s

/-- What the event at the head of the agenda does once it is taken: a command, the issue alone (R101), a chosen agent of the engine,
reset (R215), or an act of the host (R25, R36). -/
def takeEvent (e : Event) (s : State) : Host.Outcome State Fault Refusal :=
  match e with
  | .command c => commandStep c s
  | .issue c => issueStep c s
  | .sequencer => sequencerStep s
  | .worker p => workerStep p s
  | .storeElement p q => storeElementStep p q s
  | .reset => .next s.resetEvent
  | .hostWrite a v => hostWriteStep a v s
  | .hostWriteStatus v => hostWriteStatusStep v s

/-- One step. A command or an issue that meets a busy engine is held at the head of the agenda while the engine goes on (R101). -/
def step (s : State) : Host.Outcome State Fault Refusal :=
  match s.agenda with
  | [] => engineStep s
  | e :: rest => if needsPort e && s.busy then engineStep s else takeEvent e { s with agenda := rest }

/-- `s` with the command whose bits are `w` (opcode_table.json's numbering) on the port of an idle engine, so that the next step runs it (log entry 5). -/
def State.withFetchWord (s : State) (nbits w : Nat) : State :=
  { s with agenda := .command (Desc.ofBytes (tableBytes nbits w)) :: s.agenda, phase := .idle, workers := [] }

end Sys2Proof.Machine
end

