-- ==== Sys2Proof/Safety.lean ====
section
/-! DEFINITION. What a state of a sound run looks like: the invariant in whose terms the claims about every step are stated. -/

namespace Sys2Proof.Machine

/-- The position of an accumulator entry in its tile. -/
def AccEntry.pos (e : AccEntry) : Nat × Nat := (e.i, e.j)

/-- The accumulator of an entry is the sum of its first `k` terms, in the order of R157. -/
def entrySummed (cfg : Config) (mem : Memory) (x : Args) (d : Dims) (w : Worker) (e : AccEntry) : Prop :=
  e.val = partialSum cfg.fp8 mem x d (rowIndex cfg w e.i) (colIndex cfg w e.j) w.k

/-- The element of C that an entry belongs to holds its final value (R115). -/
def entryStored (cfg : Config) (mem : Memory) (x : Args) (d : Dims) (w : Worker) (e : AccEntry) : Prop :=
  mem.half (addrC x d (rowIndex cfg w e.i) (colIndex cfg w e.j)) =
    elem cfg.fp8 mem x d (rowIndex cfg w e.i) (colIndex cfg w e.j)

/-- A worker of a sound run, by its stage (R26 to R28, R111, R112, R114). -/
structure WorkerInv (cfg : Config) (mem : Memory) (x : Args) (d : Dims) (w : Worker) : Prop where
  counter : w.k ≤ d.k
  pending : w.stage = .pending → w.k = 0 ∧ w.acc = []
  file : w.stage ≠ .pending → w.acc.map AccEntry.pos = (initAcc cfg d w).map AccEntry.pos
  summed : w.stage ≠ .pending → ∀ e ∈ w.acc, entrySummed cfg mem x d w e
  latches : w.stage = .accum → w.k % BLOCK ≠ 0 →
    w.sA = (loadLatches cfg mem x d w).sA ∧ w.sB = (loadLatches cfg mem x d w).sB
  written : ∀ e ∈ w.acc, e.written = true → w.k = d.k ∧ entryStored cfg mem x d w e
  stored : w.stage = .stored → w.k = d.k ∧ ∀ e ∈ w.acc, e.written = true

/-- A command in COMPUTE: it passed validation, the launch memory admits it, `SHAPE` holds its dimensions, there is one worker for each tile,
and each worker is sound (R110, R68, R35, R26). -/
structure ComputeInv (s : State) : Prop where
  valid : firstError s.cfg s.cmd = none
  admitted : launchAdmitted s.cfg s.cmd.args (dimsOf s.cmd.args) = true
  shape : s.shape = (dimsOf s.cmd.args).latch
  tileSet : s.workers.map (fun w => (w.ti, w.tj)) = tiles s.cfg (dimsOf s.cmd.args)
  sound : ∀ w ∈ s.workers, WorkerInv s.cfg s.mem s.cmd.args (dimsOf s.cmd.args) w

/-- The invariant of every run from reset: a legal configuration (R9), canonical memory, a completion code of R186,
`DONE` clear while busy and `CODE` zero while `DONE` is clear (R25, R101), workers only in COMPUTE (R26), and there a sound command. -/
structure State.Inv (s : State) : Prop where
  cfgWf : s.cfg.wf = true
  memWf : s.mem.wf = true
  codeListed : s.code.toNat ≤ 5
  busyNotDone : s.phase ≠ .idle → s.doneBit = false
  notDoneNoCode : s.doneBit = false → s.code = 0
  workersInCompute : s.phase ≠ .compute → s.workers = []
  computing : s.phase = .compute → ComputeInv s

/-- The events that only choose among the engine's agents, and reset: no act of the host on memory (R36, R215). -/
def engineOrReset (e : Event) : Bool := engineEvent e || decide (e = .reset)

end Sys2Proof.Machine
end

