-- ==== Sys2Proof/Certificates/Slice0/Obligations.lean ====
section
/-! DEFINITION. The statements for the provers. -/

open Sys2Proof Sys2Proof.Machine

/-! ## Encoding -/

/-- The descriptors that 95_test_vectors.md writes out byte by byte (2.10, and program P3) decode to the commands it says they are,
and an opcode of 0x00 or 0x02, or a set reserved bit, is refused by name (R70, R75, R76). -/
def Obligations.SpecDescriptorsDecode : Prop :=
  decodeBytes
    [0x01, 0, 0, 0, 0, 0, 0, 0,  0x00, 0x00, 0x01, 0, 0, 0, 0, 0,
     0x00, 0x01, 0, 0, 0x80, 0, 0, 0,  0x00, 0x80, 0, 0, 0, 0, 0, 0,
     0x00, 0x00, 0x02, 0, 0, 0, 0, 0,  0x00, 0x01, 0, 0, 0x00, 0x01, 0, 0,
     0x00, 0x00, 0x01, 0, 0, 0, 0, 0,  0x00, 0x00, 0x04, 0, 0, 0, 0, 0,
     0x02, 0, 0, 0, 0x80, 0, 0, 0,  0x00, 0x04, 0, 0, 0, 0, 0, 0,
     0x00, 0x10, 0x04, 0, 0, 0, 0, 0,  0x02, 0, 0, 0, 0x02, 0, 0, 0,
     0x10, 0, 0, 0, 0, 0, 0, 0,  0x00, 0x00, 0x05, 0, 0, 0, 0, 0,
     0x80, 0, 0, 0, 0x00, 0x01, 0, 0,  0x00, 0x00, 0x01, 0, 0, 0, 0, 0] =
    .ok (.gemm ⟨⟨0x10000, 256, 128, 0x8000⟩, ⟨0x20000, 256, 256, 0x10000⟩, ⟨0x40000, 2, 128, 0x400⟩,
      ⟨0x41000, 2, 2, 0x10⟩, ⟨0x50000, 128, 256, 0x10000⟩⟩) ∧
  decodeBytes
    [0x01, 0, 0, 0, 0, 0, 0, 0,  0x00, 0x10, 0, 0, 0, 0, 0, 0,
     0x00, 0x01, 0, 0, 0x02, 0, 0, 0,  0x00, 0x02, 0, 0, 0, 0, 0, 0,
     0x00, 0x20, 0, 0, 0, 0, 0, 0,  0x00, 0x01, 0, 0, 0x80, 0, 0, 0,
     0x00, 0x80, 0, 0, 0, 0, 0, 0,  0x00, 0xA0, 0, 0, 0, 0, 0, 0,
     0x02, 0, 0, 0, 0x02, 0, 0, 0,  0x10, 0, 0, 0, 0, 0, 0, 0,
     0x00, 0xA1, 0, 0, 0, 0, 0, 0,  0x02, 0, 0, 0, 0x01, 0, 0, 0,
     0x08, 0, 0, 0, 0, 0, 0, 0,  0x00, 0xB0, 0, 0, 0, 0, 0, 0,
     0x02, 0, 0, 0, 0x80, 0, 0, 0,  0x00, 0x02, 0, 0, 0, 0, 0, 0] =
    .ok (.gemm ⟨⟨0x1000, 256, 2, 0x200⟩, ⟨0x2000, 256, 128, 0x8000⟩, ⟨0xA000, 2, 2, 0x10⟩,
      ⟨0xA100, 2, 1, 0x8⟩, ⟨0xB000, 2, 128, 0x200⟩⟩) ∧
  decodeBytes (List.replicate 128 0) = .error .illegalOpcode ∧
  decodeBytes (0x02 :: List.replicate 127 0) = .error .illegalOpcode ∧
  decodeBytes (0x01 :: 0x01 :: List.replicate 126 0) = .error .reservedNotZero

/-- Every command that fits the descriptor is read back from its 128 bytes, with every operand. -/
def Obligations.DecodeInvertsEncode : Prop :=
  ∀ i : Instr, i.wf = true → decodeBytes (encodeBytes i) = .ok i

/-- Bytes that decode are the bytes of the command they decode to, which fits the descriptor: no bit of a legal descriptor is ignored. -/
def Obligations.EncodeInvertsDecode : Prop :=
  ∀ (bs : List Byte) (i : Instr), decodeBytes bs = .ok i → i.wf = true ∧ encodeBytes i = bs

/-- The opcode map on the bytes of a descriptor (R75, R76): byte 0 must be 0x01 and bytes 1 to 7 zero, nothing else is asked,
and what is refused is refused by name. -/
def Obligations.OpcodeMapOnBytes : Prop :=
  ∀ bs : List Byte, bs.length = 128 →
    (decodeBytes bs = .error .illegalOpcode ↔ bs.getD 0 0 ≠ 0x01#8) ∧
    (decodeBytes bs = .error .reservedNotZero ↔ bs.getD 0 0 = 0x01#8 ∧ ∃ j, 1 ≤ j ∧ j ≤ 7 ∧ bs.getD j 0 ≠ 0#8) ∧
    ((∃ i, decodeBytes bs = .ok i) ↔ bs.getD 0 0 = 0x01#8 ∧ ∀ j, 1 ≤ j → j ≤ 7 → bs.getD j 0 = 0#8)

/-- `GEMM.MNK` (R79) is defined exactly on block-aligned dimensions, and what it expands to passes the block alignment and shape checks
and gives every buffer the size it needs, no more. -/
def Obligations.MnkExpansionIsConsistent : Prop :=
  ∀ (d : Dims) (a b aScale bScale c : Nat),
    ((gemmMNK d a b aScale bScale c).isSome = true ↔ d.k % 128 = 0 ∧ d.n % 128 = 0) ∧
    ∀ x, gemmMNK d a b aScale bScale c = some (.gemm x) →
      dimsOf x = d ∧ blockAligned d = true ∧ (0 < d.m → 0 < d.n → 0 < d.k → shapeConsistent x d = true) ∧
      ∀ y, (bufArg x y).nbytes = req d y

/-! ## One step -/

/-- A step runs the decoded command: a legal descriptor at the head of the agenda of an idle engine is taken off it, and the step is its `exec`. -/
def Obligations.StepRunsTheDecodedCommand : Prop :=
  ∀ (s : State) (c : Desc) (i : Instr) (rest : List Event),
    s.phase = .idle → s.agenda = .command c :: rest → decodeDesc c = .ok i →
    step s = exec i { s with agenda := rest }

/-- A descriptor that is no command completes with ERR_ILLEGAL_COMMAND and has no other effect (R75, R76, R105, R195). -/
def Obligations.IllegalDescriptorCompletesWithCodeOne : Prop :=
  ∀ (s : State) (c : Desc) (rest : List Event),
    s.phase = .idle → s.agenda = .command c :: rest → (c.opcode ≠ 0x01#8 ∨ c.rsvd ≠ 0#56) →
    step s = .next { s with agenda := rest, cmd := c, code := 0x01, doneBit := true, phase := .idle }

/-- The issue step (R101): enabled in IDLE, it latches the descriptor, clears CODE and DONE and enters VALIDATE, so that the host reads STATUS = 0x200;
in any other phase the port is not ready: the engine goes on and the descriptor stays at the head of the agenda, for a command as for an issue. -/
def Obligations.IssueLatchesOrHolds : Prop :=
  ∀ (s : State) (c : Desc) (rest : List Event),
    (s.phase = .idle → s.agenda = .issue c :: rest →
      step s = .next { s with agenda := rest, cmd := c, doneBit := false, code := 0, phase := .validate } ∧
      ∀ t, step s = .next t → t.status = 0x200#32) ∧
    (s.phase ≠ .idle → (s.agenda = .issue c :: rest ∨ s.agenda = .command c :: rest) →
      step s = engineStep s ∧ ∀ t, step s = .next t → t.agenda = s.agenda)

/-- The reset event (R215): in any state, PHASE = IDLE, STATUS reads 0, no worker is left, memory and configuration are unchanged,
and the engine accepts a command at once. -/
def Obligations.ResetReturnsTheEngineToIdle : Prop :=
  ∀ (s : State) (rest : List Event), s.agenda = .reset :: rest →
    ∃ t, step s = .next t ∧ t.phase = .idle ∧ t.status = 0#32 ∧ t.workers = [] ∧ t.mem = s.mem ∧ t.cfg = s.cfg ∧ t.agenda = rest ∧
      ∀ c, step { t with agenda := [.issue c] } = .next (State.issue c { t with agenda := [] })

/-- The fields of the word the host reads from STATUS, in every state (R25). -/
def Obligations.StatusWordLayout : Prop :=
  ∀ s : State,
    s.status.extractLsb' 0 8 = s.code ∧ s.status.getLsbD 8 = s.doneBit ∧
    (s.status.getLsbD 9 = true ↔ s.phase ≠ .idle) ∧ s.status.extractLsb' 10 22 = 0#22

/-- A host write to STATUS is ignored (R25): the event is consumed and nothing else changes. -/
def Obligations.StatusWritesAreIgnored : Prop :=
  ∀ (s : State) (v : BitVec 32) (rest : List Event), s.agenda = .hostWriteStatus v :: rest →
    step s = .next { s with agenda := rest }

/-- The configuration is fixed for the life of the engine (R8, R218): no step of any kind changes it. -/
def Obligations.NoStepChangesTheConfiguration : Prop :=
  ∀ s t : State, step s = .next t → t.cfg = s.cfg

/-- Who may write memory, and when. The host's write of a byte changes that byte alone, where the run has a meaning: the byte is plain memory,
and, while a validated command is in flight, belongs to none of its five byte ranges (R56, R224, R68). In those other cases the model refuses. -/
def Obligations.HostWritesRespectTheCommandInFlight : Prop :=
  ∀ (s : State) (a : BitVec 64) (v : Byte) (rest : List Event), s.mem.wf = true → s.agenda = .hostWrite a v :: rest →
    (plainByte s.cfg a.toNat = true →
      (s.phase = .idle ∨ ∀ y, inBuf s.cmd.args (dimsOf s.cmd.args) y a.toNat = false) →
      ∃ t, step s = .next t ∧ t = { s with agenda := rest, mem := t.mem } ∧
        ∀ b, t.mem.byte b = if b = a.toNat then v else s.mem.byte b) ∧
    (s.phase ≠ .idle → firstError s.cfg s.cmd = none → (∃ y, inBuf s.cmd.args (dimsOf s.cmd.args) y a.toNat = true) →
      ∃ r, step s = .refused r)

/-! ## The command -/

/-- The end state of a successful command (R116, R118): whatever the operands, if the descriptor passes validation and the launch memory admits its bytes,
GEMM on an idle engine completes; every element of C is `elem(m, n)` of the memory at issue, every byte outside C is as before,
CODE = 0, DONE = 1, PHASE = IDLE, no worker is left; CMD holds the descriptor; configuration and agenda are as before. -/
def Obligations.GemmCompletesWithEveryElement : Prop :=
  ∀ (x : Args) (s : State), s.phase = .idle → s.mem.wf = true → x.wf = true →
    firstError s.cfg (encode (.gemm x)) = none → launchAdmitted s.cfg x (dimsOf x) = true →
    ∃ t, exec (.gemm x) s = .next t ∧
      (∀ m n, m < (dimsOf x).m → n < (dimsOf x).n →
        t.mem.half (addrC x (dimsOf x) m n) = elem s.cfg.fp8 s.mem x (dimsOf x) m n) ∧
      (∀ a, inBuf x (dimsOf x) .c a = false → t.mem.byte a = s.mem.byte a) ∧
      t.code = 0 ∧ t.doneBit = true ∧ t.phase = .idle ∧ t.workers = [] ∧ t.status = 0x100#32 ∧
      t.cmd = encode (.gemm x) ∧ t.cfg = s.cfg ∧ t.agenda = s.agenda

/-- When validation passes, in the numbers of the operands (R105 to R109): the five checks, C and an input disjoint meaning that no byte lies in both. -/
def Obligations.ValidationPassesExactlyWhen : Prop :=
  ∀ (cfg : Config) (x : Args), x.wf = true → ∀ d, d = dimsOf x →
    (firstError cfg (encode (.gemm x)) = none ↔
      (d.k % 128 = 0 ∧ d.n % 128 = 0) ∧
      (0 < d.k ∧ 0 < d.m ∧ 0 < d.n ∧ x.b.dim0 = d.k ∧ x.aScale.dim0 = d.k / 128 ∧ x.aScale.dim1 = d.m ∧
        x.bScale.dim0 = d.k / 128 ∧ x.bScale.dim1 = d.n / 128 ∧ x.c.dim0 = d.m ∧ x.c.dim1 = d.n) ∧
      d ∈ cfg.supported ∧
      ((x.a.base ≠ 0 ∧ d.k * d.m ≤ x.a.nbytes ∧ x.a.base + d.k * d.m ≤ 2 ^ 64) ∧
        (x.b.base ≠ 0 ∧ d.k * d.n ≤ x.b.nbytes ∧ x.b.base + d.k * d.n ≤ 2 ^ 64) ∧
        (x.aScale.base ≠ 0 ∧ 4 * (d.k / 128) * d.m ≤ x.aScale.nbytes ∧ x.aScale.base + 4 * (d.k / 128) * d.m ≤ 2 ^ 64 ∧
          x.aScale.base % 4 = 0) ∧
        (x.bScale.base ≠ 0 ∧ 4 * (d.k / 128) * (d.n / 128) ≤ x.bScale.nbytes ∧
          x.bScale.base + 4 * (d.k / 128) * (d.n / 128) ≤ 2 ^ 64 ∧ x.bScale.base % 4 = 0) ∧
        (x.c.base ≠ 0 ∧ 2 * d.m * d.n ≤ x.c.nbytes ∧ x.c.base + 2 * d.m * d.n ≤ 2 ^ 64 ∧ x.c.base % 2 = 0)) ∧
      ∀ y, y ≠ .c → ∀ a, ¬ (inBuf x d y a = true ∧ inBuf x d .c a = true))

/-- The error completion of GEMM (R195): CODE and DONE are written, the engine is idle again, CMD keeps the descriptor, and nothing else changes:
no byte of memory, no worker, no latch. -/
def Obligations.GemmErrorChangesOnlyTheInterface : Prop :=
  ∀ (x : Args) (s : State) (e : ErrorCode), s.phase = .idle → firstError s.cfg (encode (.gemm x)) = some e →
    exec (.gemm x) s = .next { s with cmd := encode (.gemm x), code := e.bits, doneBit := true, phase := .idle }

/-- The five checks in numbers, and which code a rejected command completes with (R105 to R109, R190): for any descriptor on an idle engine,
the first failing check alone decides, whatever the later ones would say; memory is as before; and a command that passes all five reports no error. -/
def Obligations.FirstFailingCheckIsReported : Prop :=
  ∀ (s : State) (c : Desc) (x : Args) (d : Dims), s.phase = .idle → x = c.args → d = ⟨x.a.dim1, x.b.dim1, x.a.dim0⟩ →
    ∀ legal aligned consistent supported buffers : Prop,
    (legal ↔ c.opcode = 0x01#8 ∧ c.rsvd = 0#56) →
    (aligned ↔ d.k % 128 = 0 ∧ d.n % 128 = 0) →
    (consistent ↔ 0 < d.k ∧ 0 < d.m ∧ 0 < d.n ∧ x.b.dim0 = d.k ∧ x.aScale.dim0 = d.k / 128 ∧ x.aScale.dim1 = d.m ∧
      x.bScale.dim0 = d.k / 128 ∧ x.bScale.dim1 = d.n / 128 ∧ x.c.dim0 = d.m ∧ x.c.dim1 = d.n) →
    (supported ↔ d ∈ s.cfg.supported) →
    (buffers ↔
      (∀ y, (bufArg x y).base ≠ 0 ∧ req d y ≤ (bufArg x y).nbytes ∧ (bufArg x y).base + req d y ≤ 2 ^ 64) ∧
      x.aScale.base % 4 = 0 ∧ x.bScale.base % 4 = 0 ∧ x.c.base % 2 = 0 ∧
      ∀ y, y ≠ .c → (bufArg x y).base + req d y ≤ x.c.base ∨ x.c.base + 2 * d.m * d.n ≤ (bufArg x y).base) →
    ∀ reports : BitVec 32 → Prop, (∀ w, reports w ↔ ∃ t, commandStep c s = .next t ∧ t.status = w ∧ t.mem = s.mem) →
    (¬ legal → reports 0x101#32) ∧
    (legal → ¬ aligned → reports 0x102#32) ∧
    (legal → aligned → ¬ consistent → reports 0x103#32) ∧
    (legal → aligned → consistent → ¬ supported → reports 0x104#32) ∧
    (legal → aligned → consistent → supported → ¬ buffers → reports 0x105#32) ∧
    (legal → aligned → consistent → supported → buffers → ∀ t, commandStep c s = .next t → t.status = 0x100#32)

/-- The frame of GEMM, every form of it, in every state whose memory is canonical: it changes no byte outside the elements of C that `addrC` gives,
neither the configuration nor the agenda; of the engine's state it may change CMD, STATUS and PHASE, and, when it completes with OK, SHAPE and the worker set. -/
def Obligations.GemmFrame : Prop :=
  ∀ (x : Args) (s t : State), s.mem.wf = true → x.wf = true → exec (.gemm x) s = .next t →
    t.cfg = s.cfg ∧ t.agenda = s.agenda ∧
    (∀ a, (∀ m n, m < (dimsOf x).m → n < (dimsOf x).n → a ≠ addrC x (dimsOf x) m n ∧ a ≠ addrC x (dimsOf x) m n + 1) →
      t.mem.byte a = s.mem.byte a) ∧
    (t.code ≠ 0 → t.mem = s.mem ∧ t.shape = s.shape ∧ t.workers = s.workers ∧ t.discards = s.discards)

/-- All or nothing (R125): a GEMM that completes has written every element of C, or has written no byte of memory and reports an error. -/
def Obligations.GemmWritesAllOrNothing : Prop :=
  ∀ (x : Args) (s t : State), s.phase = .idle → s.mem.wf = true → x.wf = true → exec (.gemm x) s = .next t →
    (t.code = 0 ∧ ∀ m n, m < (dimsOf x).m → n < (dimsOf x).n →
      t.mem.half (addrC x (dimsOf x) m n) = elem s.cfg.fp8 s.mem x (dimsOf x) m n) ∨
    (t.code ≠ 0 ∧ t.mem = s.mem)

/-- The four input buffers are read-only (R29, R54): a GEMM that completes, with OK or with an error, leaves every byte of their ranges as it was. -/
def Obligations.GemmLeavesTheInputsAlone : Prop :=
  ∀ (x : Args) (s t : State), s.mem.wf = true → x.wf = true → exec (.gemm x) s = .next t →
    ∀ y, y ≠ .c → ∀ a, inBuf x (dimsOf x) y a = true → t.mem.byte a = s.mem.byte a

/-- Statelessness (R33): two idle states with the same configuration that agree on the bytes of the four input ranges, and on nothing else,
give the same completion, the same STATUS and the same C. -/
def Obligations.OutcomeDependsOnInputsAlone : Prop :=
  ∀ (x : Args) (s₁ s₂ t₁ : State), s₁.phase = .idle → s₂.phase = .idle → s₁.mem.wf = true → s₂.mem.wf = true → x.wf = true →
    s₁.cfg = s₂.cfg →
    (∀ y, y ≠ .c → ∀ a, inBuf x (dimsOf x) y a = true → s₁.mem.byte a = s₂.mem.byte a) →
    exec (.gemm x) s₁ = .next t₁ →
    ∃ t₂, exec (.gemm x) s₂ = .next t₂ ∧ t₂.status = t₁.status ∧
      (t₁.code = 0 → ∀ a, inBuf x (dimsOf x) .c a = true → t₂.mem.byte a = t₁.mem.byte a)

/-- Idempotence (R121): repeating a command that completed with the same inputs completes the same way and leaves memory bit-identical. -/
def Obligations.RepeatedGemmIsBitIdentical : Prop :=
  ∀ (x : Args) (s t : State), s.phase = .idle → s.mem.wf = true → x.wf = true → exec (.gemm x) s = .next t →
    ∃ u, exec (.gemm x) t = .next u ∧ u.mem = t.mem ∧ u.status = t.status

/-- No data stops a command (R119, R156): GEMM never faults, and it is refused only for a validated command some byte of whose ranges is not plain memory (R68). -/
def Obligations.GemmStopsForNoData : Prop :=
  ∀ (x : Args) (s : State), x.wf = true →
    (∀ r, exec (.gemm x) s ≠ .fault r) ∧
    ∀ r, exec (.gemm x) s = .refused r →
      r = .notPlainMemory ∧ firstError s.cfg (encode (.gemm x)) = none ∧
      ∃ y a, inBuf x (dimsOf x) y a = true ∧ plainByte s.cfg a = false

/-! ## Step by step -/

/-- The invariant holds at reset. -/
def Obligations.InvariantHoldsAtReset : Prop := State.reset.Inv

/-- Every step keeps the invariant of Safety.lean, whatever the agenda asks: host acts, resets and any schedule. -/
def Obligations.StepKeepsTheInvariant : Prop :=
  ∀ s t : State, s.Inv → step s = .next t → t.Inv

/-- From a state that meets the invariant no step faults, whatever the data and the schedule (R119). -/
def Obligations.SoundStatesNeverFault : Prop :=
  ∀ (s : State) (r : Fault), s.Inv → step s ≠ .fault r

/-- A PENDING worker that is chosen starts (R111): every accumulator of its tile in range is +0, k = 0, and it is in ACCUM; nothing but that worker changes. -/
def Obligations.WorkerStartInitialisesItsTile : Prop :=
  ∀ (s : State) (p : Nat) (w : Worker) (rest : List Event), s.Inv → s.agenda = .worker p :: rest → s.workers[p]? = some w →
    w.stage = .pending →
    ∃ w', step s = .next { s with agenda := rest, workers := s.workers.set p w' } ∧
      w'.ti = w.ti ∧ w'.tj = w.tj ∧ w'.stage = .accum ∧ w'.k = 0 ∧ (∀ e ∈ w'.acc, e.val = 0x00000000#32) ∧
      ∀ m n, w.ti * s.cfg.tileM ≤ m → m < min s.shape.dims.m ((w.ti + 1) * s.cfg.tileM) →
        w.tj * s.cfg.tileN ≤ n → n < min s.shape.dims.n ((w.tj + 1) * s.cfg.tileN) →
        ∃ e ∈ w'.acc, rowIndex s.cfg w' e.i = m ∧ colIndex s.cfg w' e.j = n

/-- A worker in ACCUM with k < K that is chosen takes every accumulator of its tile from its first k terms to its first k + 1 (R112, R157),
whether or not it had to load its latches; nothing but that worker changes. -/
def Obligations.WorkerAccumulatesOneTermEach : Prop :=
  ∀ (s : State) (p : Nat) (w : Worker) (rest : List Event), s.Inv → s.agenda = .worker p :: rest → s.workers[p]? = some w →
    w.stage = .accum → w.k < s.shape.dims.k →
    ∃ w', step s = .next { s with agenda := rest, workers := s.workers.set p w' } ∧
      w'.ti = w.ti ∧ w'.tj = w.tj ∧ w'.stage = .accum ∧ w'.k = w.k + 1 ∧
      w'.acc.map AccEntry.pos = w.acc.map AccEntry.pos ∧
      ∀ (q : Nat) (e e' : AccEntry), w.acc[q]? = some e → w'.acc[q]? = some e' →
        e'.val = accStep e.val (termAt s.cfg.fp8 s.mem s.cmd.args s.shape.dims (rowIndex s.cfg w e.i) (colIndex s.cfg w e.j) w.k)

/-- A worker in ACCUM with k = K that is chosen stores its tile (R114, R115): every element of its tile then holds `elem(m, n)`,
every byte outside its tile's elements is as before, and it is STORED. -/
def Obligations.WorkerStoresItsTile : Prop :=
  ∀ (s : State) (p : Nat) (w : Worker) (rest : List Event), s.Inv → s.agenda = .worker p :: rest → s.workers[p]? = some w →
    w.stage = .accum → w.k = s.shape.dims.k →
    ∃ t w', step s = .next t ∧ t = { s with agenda := rest, workers := s.workers.set p w', mem := t.mem } ∧ w'.stage = .stored ∧
      (∀ e ∈ w.acc, t.mem.half (addrC s.cmd.args s.shape.dims (rowIndex s.cfg w e.i) (colIndex s.cfg w e.j)) =
        elem s.cfg.fp8 s.mem s.cmd.args s.shape.dims (rowIndex s.cfg w e.i) (colIndex s.cfg w e.j)) ∧
      ∀ a, (∀ e ∈ w.acc, a ≠ addrC s.cmd.args s.shape.dims (rowIndex s.cfg w e.i) (colIndex s.cfg w e.j) ∧
        a ≠ addrC s.cmd.args s.shape.dims (rowIndex s.cfg w e.i) (colIndex s.cfg w e.j) + 1) → t.mem.byte a = s.mem.byte a

/-- The finer store (R114, R55, R60): the element write of one entry, chosen alone. With its worker in ACCUM, all terms accumulated, and the entry not yet written,
the element holds `elem(m, n)`, that entry alone is marked, and no other byte and no other field changes; the worker stays in ACCUM.
In every other case (no such worker or entry, a worker that is not in ACCUM or has terms left, an element already written) nothing changes.
That the choice stands on the agenda is the model's (log entry 3), the mark is log entry 11. -/
def Obligations.StoreElementWritesOneElement : Prop :=
  ∀ (s : State) (p q : Nat) (rest : List Event), s.Inv → s.agenda = .storeElement p q :: rest →
    (∀ w e, s.workers[p]? = some w → w.acc[q]? = some e → w.stage = .accum → w.k = s.shape.dims.k → e.written = false →
      ∀ c, c = addrC s.cmd.args s.shape.dims (rowIndex s.cfg w e.i) (colIndex s.cfg w e.j) →
      ∃ t, step s = .next t ∧
        t = { s with
          agenda := rest
          workers := s.workers.set p { w with acc := w.acc.set q { e with written := true } }
          mem := t.mem } ∧
        t.mem.half c = elem s.cfg.fp8 s.mem s.cmd.args s.shape.dims (rowIndex s.cfg w e.i) (colIndex s.cfg w e.j) ∧
        ∀ a, a ≠ c → a ≠ c + 1 → t.mem.byte a = s.mem.byte a) ∧
    ((∀ w e, s.workers[p]? = some w → w.acc[q]? = some e → w.stage = .accum → w.k = s.shape.dims.k → e.written = true) →
      step s = .next { s with agenda := rest })

/-- Validation as a step of its own (R102, R110, R195): with the sequencer chosen in VALIDATE, a failing check completes the command with its code,
changing only STATUS and PHASE; if all pass and the launch memory admits the command, SHAPE is latched, there is exactly one worker for each tile, each PENDING, and PHASE is COMPUTE. -/
def Obligations.ValidationStepRejectsOrLaunches : Prop :=
  ∀ (s : State) (rest : List Event), s.phase = .validate → s.agenda = .sequencer :: rest →
    (∀ e, firstError s.cfg s.cmd = some e →
      step s = .next { s with agenda := rest, code := e.bits, doneBit := true, phase := .idle }) ∧
    (firstError s.cfg s.cmd = none → launchAdmitted s.cfg s.cmd.args (dimsOf s.cmd.args) = true →
      ∃ ws, step s = .next { s with agenda := rest, shape := (dimsOf s.cmd.args).latch, workers := ws, phase := .compute } ∧
        (∀ w ∈ ws, w.stage = .pending) ∧ (ws.map fun w => (w.ti, w.tj)).Nodup ∧
        (∀ ti tj, (∃ w ∈ ws, w.ti = ti ∧ w.tj = tj) ↔
          ti < ceilDiv (dimsOf s.cmd.args).m s.cfg.tileM ∧ tj < ceilDiv (dimsOf s.cmd.args).n s.cfg.tileN))

/-- Completion (R118): the sequencer chosen in COMPUTE completes the command when every worker is STORED, and otherwise takes no step. -/
def Obligations.CompletionWaitsForEveryWorker : Prop :=
  ∀ (s : State) (rest : List Event), s.phase = .compute → s.agenda = .sequencer :: rest →
    ((∀ w ∈ s.workers, w.stage = .stored) →
      ∃ t, step s = .next t ∧ t.code = 0 ∧ t.doneBit = true ∧ t.phase = .idle ∧ t.workers = [] ∧ t.status = 0x100#32 ∧
        t.mem = s.mem ∧ t.cmd = s.cmd ∧ t.cfg = s.cfg ∧ t.agenda = rest) ∧
    ((∃ w ∈ s.workers, w.stage ≠ .stored) → step s = .next { s with agenda := rest })

/-- Schedule independence (R117): issue a command and let any choices among the engine's agents follow, tile by tile or element by element,
for any tile sizes; if the command has completed by then, the state is exactly the one that the whole command as one function gives. -/
def Obligations.EveryScheduleReachesTheAtomicResult : Prop :=
  ∀ (s u : State) (x : Args) (es : List Event), s.Inv → s.phase = .idle → x.wf = true → (∀ e ∈ es, engineEvent e = true) →
    Host.Core.run Sys2Proof.core (es.length + 1) { s with agenda := .issue (encode (.gemm x)) :: es } = .next u → u.phase = .idle →
    exec (.gemm x) { s with agenda := [] } = .next u

/-- Progress (R119): a command once issued completes in 1 + W (1 + K + 1) + 1 steps of the default schedule, W the number of tiles,
when it passes validation and its memory is admitted, and in 1 step when it does not pass; the end state is that of the whole command. -/
def Obligations.IssuedCommandCompletesInBoundedSteps : Prop :=
  ∀ (s : State) (x : Args), s.Inv → s.phase = .idle → s.agenda = [] → x.wf = true →
    (∀ e, firstError s.cfg (encode (.gemm x)) = some e →
      Host.Core.run Sys2Proof.core 1 (s.issue (encode (.gemm x))) = exec (.gemm x) s) ∧
    (firstError s.cfg (encode (.gemm x)) = none → launchAdmitted s.cfg x (dimsOf x) = true →
      ∃ t, exec (.gemm x) s = .next t ∧ t.status = 0x100#32 ∧
        Host.Core.run Sys2Proof.core (1 + (tiles s.cfg (dimsOf x)).length * (1 + (dimsOf x).k + 1) + 1) (s.issue (encode (.gemm x))) =
          .next t)

/-- What the host may see of C while a command runs, and after a reset cut it short (R224, R217): at every moment each element is the one at issue or the final one,
and no byte outside C has changed. -/
def Obligations.EveryElementIsOldOrFinal : Prop :=
  ∀ (s u : State) (x : Args) (es : List Event), s.Inv → s.phase = .idle → x.wf = true → (∀ e ∈ es, engineOrReset e = true) →
    Host.Core.run Sys2Proof.core (es.length + 1) { s with agenda := .issue (encode (.gemm x)) :: es } = .next u →
    (∀ m n, m < (dimsOf x).m → n < (dimsOf x).n →
      u.mem.half (addrC x (dimsOf x) m n) = s.mem.half (addrC x (dimsOf x) m n) ∨
      u.mem.half (addrC x (dimsOf x) m n) = elem s.cfg.fp8 s.mem x (dimsOf x) m n) ∧
    ∀ a, inBuf x (dimsOf x) .c a = false → u.mem.byte a = s.mem.byte a

/-- The tiles partition the (M, N) index space (R26): every element belongs to exactly one. -/
def Obligations.TilesPartitionTheOutput : Prop :=
  ∀ (cfg : Config) (d : Dims), cfg.wf = true → (tiles cfg d).Nodup ∧
    ∀ m n, m < d.m → n < d.n →
      ∃! t, t ∈ tiles cfg d ∧ t.1 * cfg.tileM ≤ m ∧ m < min d.m ((t.1 + 1) * cfg.tileM) ∧
        t.2 * cfg.tileN ≤ n ∧ n < min d.n ((t.2 + 1) * cfg.tileN)

/-! ## Memory and addresses -/

/-- MemRead and MemWrite (R43, R44): a read is the little-endian integer of the n bytes; in canonical memory a write puts each byte of the value at its address,
leaves every byte outside the n as before and memory canonical, and is read back, cut to its bytes. -/
def Obligations.MemoryReadsWhatWasWritten : Prop :=
  ∀ (mem : Memory) (a n v : Nat),
    mem.read a n = ∑ i ∈ Finset.range n, (mem.byte (a + i)).toNat * 2 ^ (8 * i) ∧
    (mem.wf = true → a + n ≤ 2 ^ 64 →
      (∀ i, i < n → ((mem.write a n v).byte (a + i)).toNat = v / 2 ^ (8 * i) % 256) ∧
      (∀ b, inRange a n b = false → (mem.write a n v).byte b = mem.byte b) ∧
      (mem.write a n v).wf = true ∧ (mem.write a n v).read a n = v % 2 ^ (8 * n))

/-- Every access of a validated command lies inside the byte range of its buffer and below 2^64, and is naturally aligned (R46 to R50, R52, R54). -/
def Obligations.AccessesStayInsideTheirBuffers : Prop :=
  ∀ (cfg : Config) (x : Args) (k m n : Nat), x.wf = true → firstError cfg (encode (.gemm x)) = none →
    k < (dimsOf x).k → m < (dimsOf x).m → n < (dimsOf x).n →
    (x.a.base ≤ addrA x (dimsOf x) k m ∧ addrA x (dimsOf x) k m + 1 ≤ x.a.base + req (dimsOf x) .a) ∧
    (x.b.base ≤ addrB x (dimsOf x) k n ∧ addrB x (dimsOf x) k n + 1 ≤ x.b.base + req (dimsOf x) .b) ∧
    (x.aScale.base ≤ addrAScale x (dimsOf x) (k / 128) m ∧ addrAScale x (dimsOf x) (k / 128) m + 4 ≤ x.aScale.base + req (dimsOf x) .aScale ∧
      addrAScale x (dimsOf x) (k / 128) m % 4 = 0) ∧
    (x.bScale.base ≤ addrBScale x (dimsOf x) (k / 128) (n / 128) ∧
      addrBScale x (dimsOf x) (k / 128) (n / 128) + 4 ≤ x.bScale.base + req (dimsOf x) .bScale ∧
      addrBScale x (dimsOf x) (k / 128) (n / 128) % 4 = 0) ∧
    (x.c.base ≤ addrC x (dimsOf x) m n ∧ addrC x (dimsOf x) m n + 2 ≤ x.c.base + req (dimsOf x) .c ∧ addrC x (dimsOf x) m n % 2 = 0) ∧
    ∀ y, (bufArg x y).base + req (dimsOf x) y ≤ 2 ^ 64

/-- No byte of C is written twice (R54, R60): two different elements share no byte. -/
def Obligations.OutputElementsShareNoByte : Prop :=
  ∀ (x : Args) (d : Dims) (m n m' n' : Nat), n < d.n → n' < d.n → (m, n) ≠ (m', n') →
    addrC x d m n + 2 ≤ addrC x d m' n' ∨ addrC x d m' n' + 2 ≤ addrC x d m n

/-! ## The datapath -/

/-- The number an FP8 byte denotes, in both variants (R81, R82): the NaNs and zeros, and the value of every other byte from its sign, exponent and mantissa fields. -/
def Obligations.Fp8ByteDenotes : Prop :=
  ∀ b : Byte, ∀ e t : Nat, e = (b.extractLsb' 3 4).toNat → t = (b.extractLsb' 0 3).toNat →
    ∀ sgn : ℚ, sgn = (if b.getLsbD 7 then -1 else 1) →
    (fp8dec .e4m3fnuz b = .nan ↔ b = 0x80#8) ∧ (fp8dec .e4m3fnuz b = .zero false ↔ b = 0x00#8) ∧
    (b ≠ 0x80#8 → (fp8dec .e4m3fnuz b).isFinite = true ∧ (fp8dec .e4m3fnuz b).val =
      if e = 0 then sgn * t * 2 ^ (-10 : Int) else sgn * (1 + t / 8) * 2 ^ ((e : Int) - 8)) ∧
    (fp8dec .e4m3fn b = .nan ↔ b = 0x7F#8 ∨ b = 0xFF#8) ∧ (fp8dec .e4m3fn b = .zero false ↔ b = 0x00#8) ∧
    (fp8dec .e4m3fn b = .zero true ↔ b = 0x80#8) ∧
    (b ≠ 0x7F#8 → b ≠ 0xFF#8 → (fp8dec .e4m3fn b).isFinite = true ∧ (fp8dec .e4m3fn b).val =
      if e = 0 then sgn * t * 2 ^ (-9 : Int) else sgn * (1 + t / 8) * 2 ^ ((e : Int) - 7))

/-- Multiplication of class values, the whole table (R136): NaN absorbs, infinity by zero is NaN, any other infinity or zero keeps its class with the xor of the signs,
and the product of two numbers is exact, its value the product of their values. It is symmetric and loses nothing. -/
def Obligations.ProductsAreExact : Prop :=
  ∀ p q : ClassVal, cmul p q = cmul q p ∧
    (p = .nan → cmul p q = .nan) ∧
    (∀ s t, p = .inf s → q = .zero t → cmul p q = .nan) ∧
    (∀ s t, p = .inf s → (q = .inf t ∨ ∃ m x, q = .fin t m x) → cmul p q = .inf (s ^^ t)) ∧
    (∀ s t, p = .zero s → (q = .zero t ∨ ∃ m x, q = .fin t m x) → cmul p q = .zero (s ^^ t)) ∧
    (∀ s m x t n y, p = .fin s m x → q = .fin t n y → cmul p q = .fin (s ^^ t) (m * n) (x + y)) ∧
    (p.isFinite = true → q.isFinite = true → (cmul p q).isFinite = true ∧ (cmul p q).val = p.val * q.val)

/-- What ROUND_F32 computes (R154, R86), in exact arithmetic: with 2^e the binade of the magnitude of r, q = max(e, -126) - 23 and n the integer nearest to that magnitude
divided by 2^q, the even one in a tie, the result is the binary32 number of magnitude n * 2^q and r's sign, or r's infinity when that magnitude is 2^128 or more. -/
def Obligations.RoundGivesTheNearestEvenMultiple : Prop :=
  ∀ (r : Exact) (e q : Int) (n : Nat) (y : ℚ), r.num ≠ 0 → (2 : ℚ) ^ e ≤ |r.toRat| → |r.toRat| < 2 ^ (e + 1) →
    q = max e (-126) - 23 → y = |r.toRat| / 2 ^ q → (|(n : ℚ) - y| < 1 / 2 ∨ (|(n : ℚ) - y| = 1 / 2 ∧ n % 2 = 0)) →
    ∀ sgn : Bool, sgn = decide (r.toRat < 0) →
    ((n : ℚ) * 2 ^ q < 2 ^ (128 : Int) →
      (f32dec (roundF32 r)).isFinite = true ∧ signOf (roundF32 r) = sgn ∧
      (f32dec (roundF32 r)).val = (if sgn then -1 else 1) * (n : ℚ) * 2 ^ q) ∧
    ((2 : ℚ) ^ (128 : Int) ≤ (n : ℚ) * 2 ^ q → f32dec (roundF32 r) = .inf sgn)

/-- Overflow of ROUND_F32 happens exactly from 2^128 - 2^103 up (R154). -/
def Obligations.RoundOverflowsExactlyAtTheMidpoint : Prop :=
  ∀ r : Exact, r.num ≠ 0 →
    (f32dec (roundF32 r) = .inf (decide (r.num < 0)) ↔ (2 : ℚ) ^ (128 : Int) - 2 ^ (103 : Int) ≤ |r.toRat|)

/-- ROUND_F32 gives a nearest binary32 number (R154): no finite word is nearer to r than a finite result. -/
def Obligations.RoundedResultIsNearest : Prop :=
  ∀ (r : Exact) (w : Word), r.num ≠ 0 → (f32dec (roundF32 r)).isFinite = true → (f32dec w).isFinite = true →
    |(f32dec (roundF32 r)).val - r.toRat| ≤ |(f32dec w).val - r.toRat|

/-- A number that is already a binary32 value is returned unchanged (R154). -/
def Obligations.RoundKeepsBinary32Values : Prop :=
  ∀ (u : Word) (r : Exact), (f32dec u).isFinite = true → r.num ≠ 0 → r.toRat = (f32dec u).val → roundF32 r = u

/-- The relative error of one rounding in the normal range is at most 2^-24 (R159). -/
def Obligations.RoundingRelativeError : Prop :=
  ∀ r : Exact, (2 : ℚ) ^ (-126 : Int) ≤ |r.toRat| → |r.toRat| < 2 ^ (128 : Int) - 2 ^ (103 : Int) →
    (f32dec (roundF32 r)).isFinite = true ∧ |(f32dec (roundF32 r)).val - r.toRat| ≤ 2 ^ (-24 : Int) * |r.toRat|

/-- ACC_STEP, every branch (R155). For a finite accumulator and a finite term: a sum of zero gives +0, or -0 when both are -0,
and any other sum is rounded once by ROUND_F32, whatever dyadic it is written as. NaN is absorbing and canonical, infinities of opposite signs give the NaN,
an infinity absorbs every other term, and an infinite term replaces a finite accumulator. -/
def Obligations.AccStepRoundsTheExactSum : Prop :=
  ∀ (u : Word) (t : ClassVal),
    ((f32dec u).isFinite = true → t.isFinite = true →
      ((f32dec u).val + t.val = 0 →
        accStep u t = if f32dec u = .zero true ∧ t = .zero true then 0x80000000#32 else 0x00000000#32) ∧
      ∀ r : Exact, r.num ≠ 0 → r.toRat = (f32dec u).val + t.val → accStep u t = roundF32 r) ∧
    ((f32dec u = .nan ∨ t = .nan) → accStep u t = 0x7FC00000#32) ∧
    (∀ s, f32dec u = .inf s → t = .inf (!s) → accStep u t = 0x7FC00000#32) ∧
    (∀ s, f32dec u = .inf s → t ≠ .nan → t ≠ .inf (!s) → accStep u t = u) ∧
    (∀ s, (f32dec u).isFinite = true → t = .inf s → accStep u t = if s then 0xFF800000#32 else 0x7F800000#32)

/-- Zero propagation (R122): if one of the four factors is a zero and all four are finite, the term is a zero and leaves the accumulator's value alone,
changing at most the sign of a zero; a NaN factor, or a zero factor met with an infinite one on either side, gives NaN (R152). -/
def Obligations.ZeroFactorsContributeNothing : Prop :=
  ∀ (va sa vb sb : ClassVal) (u : Word),
    (va.isFinite = true → sa.isFinite = true → vb.isFinite = true → sb.isFinite = true →
      (va.isZero = true ∨ sa.isZero = true ∨ vb.isZero = true ∨ sb.isZero = true) →
      (term (dqmul va sa) (dqmul vb sb)).isZero = true ∧
      (f32dec u ≠ .nan → (f32dec u).isZero = false → accStep u (term (dqmul va sa) (dqmul vb sb)) = u) ∧
      ((f32dec u).isZero = true → (f32dec (accStep u (term (dqmul va sa) (dqmul vb sb)))).isZero = true)) ∧
    ((va = .nan ∨ sa = .nan ∨ vb = .nan ∨ sb = .nan) → term (dqmul va sa) (dqmul vb sb) = .nan) ∧
    ((va.isZero = true ∨ sa.isZero = true ∨ vb.isZero = true ∨ sb.isZero = true) →
      (∃ s, va = .inf s ∨ sa = .inf s ∨ vb = .inf s ∨ sb = .inf s) → term (dqmul va sa) (dqmul vb sb) = .nan)

/-- Zero terms are neutral in the whole reduction (R161 (b)): leaving them out gives the same word, or both results are zeros. -/
def Obligations.ZeroTermsCanBeLeftOut : Prop :=
  ∀ ts : List ClassVal,
    reduceK (ts.filter fun t => !t.isZero) = reduceK ts ∨
    ((f32dec (reduceK (ts.filter fun t => !t.isZero))).isZero = true ∧ (f32dec (reduceK ts)).isZero = true)

/-- NaN in the reduction (R161 (c), (d), (f)): a NaN term gives the canonical NaN, the result is never another NaN,
and with finite terms alone it is no NaN. -/
def Obligations.NaNIsStickyCanonicalAndNeverMade : Prop :=
  ∀ ts : List ClassVal,
    (.nan ∈ ts → reduceK ts = 0x7FC00000#32) ∧
    (f32dec (reduceK ts) = .nan → reduceK ts = 0x7FC00000#32) ∧
    ((∀ t ∈ ts, t.isFinite = true) → f32dec (reduceK ts) ≠ .nan)

/-- Sign symmetry of the reduction (R161 (e)): negating every term keeps the NaN, or flips the sign bit of the result, or leaves +0 at +0. -/
def Obligations.NegatedTermsFlipTheSign : Prop :=
  ∀ ts : List ClassVal, (∀ t ∈ ts, t.wf = true) →
    (reduceK ts = 0x7FC00000#32 ∧ reduceK (ts.map ClassVal.neg) = 0x7FC00000#32) ∨
    reduceK (ts.map ClassVal.neg) = reduceK ts ^^^ 0x80000000#32 ∨
    (reduceK ts = 0x00000000#32 ∧ reduceK (ts.map ClassVal.neg) = 0x00000000#32)

/-- When the reduction is exact (R160): every term a multiple of 2^g, every partial sum of magnitude at most 2^(g+24) and below 2^128. -/
def Obligations.SmallMultiplesSumExactly : Prop :=
  ∀ (ts : List ClassVal) (g : Int), -149 ≤ g → g + 24 ≤ 128 → (∀ t ∈ ts, t.isFinite = true) →
    (∀ t ∈ ts, ∃ z : Int, t.val = z * 2 ^ g) →
    (∀ j, j ≤ ts.length → |((ts.take j).map ClassVal.val).sum| ≤ 2 ^ (g + 24) ∧ |((ts.take j).map ClassVal.val).sum| < 2 ^ (128 : Int)) →
    (f32dec (reduceK ts)).isFinite = true ∧ (f32dec (reduceK ts)).val = (ts.map ClassVal.val).sum

/-- The error bound of the reduction (R159), for K terms, when every exact sum that is rounded is zero or in the range where one rounding has relative error at most 2^-24:
the accumulator is within K u / (1 - K u) times the sum of magnitudes of the exact sum, u = 2^-24. -/
def Obligations.ReductionErrorBound : Prop :=
  ∀ ts : List ClassVal, (ts.length : ℚ) * 2 ^ (-24 : Int) < 1 → (∀ t ∈ ts, t.isFinite = true) →
    (∀ (j : Nat) (h : j < ts.length), ∀ r : ℚ, r = (f32dec (reduceK (ts.take j))).val + (ts[j]'h).val →
      r = 0 ∨ (2 ^ (-126 : Int) ≤ |r| ∧ |r| < 2 ^ (128 : Int) - 2 ^ (103 : Int))) →
    |(f32dec (reduceK ts)).val - (ts.map ClassVal.val).sum| ≤
      ((ts.length : ℚ) * 2 ^ (-24 : Int)) / (1 - (ts.length : ℚ) * 2 ^ (-24 : Int)) * (ts.map fun t => |t.val|).sum

/-- Block invariance (R123, R139 (b)): two memories in which every dequantized value of A's column m and of B's column n is the same class value,
however it is split between byte and scale, give the same element of C. -/
def Obligations.ElementDependsOnDequantizedValues : Prop :=
  ∀ (fmt : Fp8Format) (mem mem' : Memory) (x : Args) (d : Dims) (m n : Nat),
    (∀ k, k < d.k → (dequantA fmt mem x d k m).same (dequantA fmt mem' x d k m) = true) →
    (∀ k, k < d.k → (dequantB fmt mem x d k n).same (dequantB fmt mem' x d k n) = true) →
    elem fmt mem x d m n = elem fmt mem' x d m n

/-- When two dequantized values are the same class value (R139 (b)), for finite operands and scales: a non-zero product, exactly when the real products agree;
a zero product is the zero whose sign is the xor of the signs of byte and scale, and another is the same exactly when it is zero with the same xor. -/
def Obligations.DequantizedValueIsTheRealProduct : Prop :=
  ∀ (fmt : Fp8Format) (b b' : Byte) (s s' : Word),
    (fp8dec fmt b).isFinite = true → (fp8dec fmt b').isFinite = true → (f32dec s).isFinite = true → (f32dec s').isFinite = true →
    ((fp8dec fmt b).val * (f32dec s).val ≠ 0 →
      ((dq fmt b s).same (dq fmt b' s') = true ↔ (fp8dec fmt b).val * (f32dec s).val = (fp8dec fmt b').val * (f32dec s').val)) ∧
    ((fp8dec fmt b).val * (f32dec s).val = 0 →
      dq fmt b s = .zero (b.getLsbD 7 ^^ s.getLsbD 31) ∧
      ((dq fmt b s).same (dq fmt b' s') = true ↔
        (fp8dec fmt b').val * (f32dec s').val = 0 ∧ (b.getLsbD 7 ^^ s.getLsbD 31) = (b'.getLsbD 7 ^^ s'.getLsbD 31)))

/-- The document's scenario at the level of one element (R100 worked example, S1 and S2): 256 terms of 1 give 256.0, 256 terms of 2 give 512.0, exactly. -/
def Obligations.UnitScenarioGivesK : Prop :=
  ∀ (fmt : Fp8Format) (mem : Memory) (x : Args) (d : Dims) (m n : Nat), d.k = 256 →
    ((∀ k, k < 256 → (termAt fmt mem x d m n k).same (.fin false 1 0) = true) → elem fmt mem x d m n = 0x4380#16) ∧
    ((∀ k, k < 256 → (termAt fmt mem x d m n k).same (.fin false 2 0) = true) → elem fmt mem x d m n = 0x4400#16)

/-- The bit-level conversion to bf16 is the value-level one (R170, R171), for every word. -/
def Obligations.ConverterMatchesTheValueRule : Prop :=
  ∀ u : Word, cvtBF16 u = cvtBF16Value (f32dec u)

/-- The conversion keeps the sign of every word that is no NaN, is exact on the bf16 grid, and gives the one bf16 NaN for every NaN (R170, R172 (b), (d)). -/
def Obligations.ConverterSignGridAndNaN : Prop :=
  (∀ u : Word, f32dec u ≠ .nan → (cvtBF16 u).getLsbD 15 = signOf u ∧ bf16dec (cvtBF16 u) ≠ .nan) ∧
  (∀ h : Half, bf16dec h ≠ .nan → cvtBF16 (h ++ 0x0000#16) = h) ∧
  (∀ u : Word, f32dec u = .nan → cvtBF16 u = 0x7FC0#16)

/-- The conversion is monotone (R172 (c)), with the infinities at the ends. -/
def Obligations.ConverterIsMonotone : Prop :=
  ∀ u v : Word, (f32dec u).le (f32dec v) → (bf16dec (cvtBF16 u)).le (bf16dec (cvtBF16 v))
end

