-- ==== Sys2Proof/Laws/Decode.lean ====
section
/-! SUPPORT. The laws of the command encoding's building blocks. -/

namespace Sys2Proof

@[simp] theorem leBytes_length (n v : Nat) : (leBytes n v).length = n := by
  induction n generalizing v with
  | zero => rfl
  | succ n ih => simp [leBytes, ih]

/-- Reading a little-endian field looks at the bytes from its offset on. -/
theorem leNat_append_left (pre bs : List Byte) (n : Nat) : leNat (pre ++ bs) pre.length n = leNat bs 0 n := by
  have key : ∀ off, leNat (pre ++ bs) (pre.length + off) n = leNat bs off n := by
    induction n with
    | zero => intro off; rfl
    | succ n ih =>
      intro off
      simp only [leNat, Nat.add_assoc, ih (off + 1)]
      congr 2
      rw [List.getD_eq_getElem?_getD, List.getD_eq_getElem?_getD, List.getElem?_append_right (by omega), Nat.add_sub_cancel_left]
  simpa using key 0

/-- The number in the bytes that were made from it (R10). -/
theorem leNat_leBytes (n v : Nat) (post : List Byte) : leNat (leBytes n v ++ post) 0 n = v % 256 ^ n := by
  induction n generalizing v with
  | zero => simp [leNat, Nat.mod_one]
  | succ n ih =>
    have hshift : leNat (BitVec.ofNat 8 v :: (leBytes n (v / 256) ++ post)) 1 n = leNat (leBytes n (v / 256) ++ post) 0 n :=
      leNat_append_left [BitVec.ofNat 8 v] _ n
    simp only [leBytes, List.cons_append, leNat, Nat.zero_add, hshift, ih]
    rw [Nat.pow_succ', Nat.mod_mul]
    simp

@[simp] theorem SubDesc.toBytes_length (x : SubDesc) : x.toBytes.length = 24 := by simp [SubDesc.toBytes]

@[simp] theorem Desc.toBytes_length (d : Desc) : d.toBytes.length = 128 := by simp [Desc.toBytes]

/-- An operand that fits its fields is read back from its sub-descriptor (R72, R73). -/
theorem BufArg.sub_args {b : BufArg} (h : b.wf = true) : b.sub.args = b := by
  simp only [BufArg.wf, Bool.and_eq_true, decide_eq_true_eq] at h
  obtain ⟨⟨⟨h1, h2⟩, h3⟩, h4⟩ := h
  obtain ⟨base, dim0, dim1, nbytes⟩ := b
  simp only [BufArg.sub, SubDesc.args, BitVec.toNat_ofNat, BufArg.mk.injEq]
  exact ⟨Nat.mod_eq_of_lt h1, Nat.mod_eq_of_lt h2, Nat.mod_eq_of_lt h3, Nat.mod_eq_of_lt h4⟩

/-- The operands of an encoded well-formed command (R73, R79). -/
theorem encode_args {x : Args} (h : x.wf = true) : (encode (.gemm x)).args = x := by
  simp only [Args.wf, Bool.and_eq_true] at h
  obtain ⟨⟨⟨⟨ha, hb⟩, has⟩, hbs⟩, hc⟩ := h
  obtain ⟨a, b, as', bs', c⟩ := x
  simp [encode, Desc.args, BufArg.sub_args ha, BufArg.sub_args hb, BufArg.sub_args has, BufArg.sub_args hbs, BufArg.sub_args hc]

end Sys2Proof
end

