-- ==== Sys2Proof/Laws/Memory.lean ====
section
/-! SUPPORT. The laws of memory: what a byte write changes, and that every memory operation keeps the canonical form, in which equal memories are equal lists. -/

namespace Sys2Proof.Machine

theorem Memory.wfFrom_cons {lo a : Nat} {v : Byte} {rest : Memory} :
    Memory.wfFrom lo ((a, v) :: rest) = true ↔
      lo ≤ a ∧ a < 2 ^ 64 ∧ v ≠ unlistedByte ∧ Memory.wfFrom (a + 1) rest = true := by
  simp [Memory.wfFrom, and_assoc]

theorem Memory.wfFrom_mono {lo lo' : Nat} {mem : Memory} (h : Memory.wfFrom lo mem = true) (hle : lo' ≤ lo) :
    Memory.wfFrom lo' mem = true := by
  cases mem with
  | nil => rfl
  | cons p rest =>
    obtain ⟨a, v⟩ := p
    rw [Memory.wfFrom_cons] at h ⊢
    exact ⟨hle.trans h.1, h.2⟩

/-- Below every listed address, and so below the bound, memory reads as unlisted. -/
theorem Memory.byte_below {lo a : Nat} {mem : Memory} (h : Memory.wfFrom lo mem = true) (ha : a < lo) :
    mem.byte a = unlistedByte := by
  induction mem generalizing lo with
  | nil => rfl
  | cons p rest ih =>
    obtain ⟨b, v⟩ := p
    rw [Memory.wfFrom_cons] at h
    rw [Memory.byte, if_neg (by omega)]
    exact ih h.2.2.2 (by omega)

theorem Memory.setByte_wfFrom {lo a : Nat} {v : Byte} {mem : Memory} (h : Memory.wfFrom lo mem = true)
    (hlo : lo ≤ a) (ha : a < 2 ^ 64) : Memory.wfFrom lo (mem.setByte a v) = true := by
  induction mem generalizing lo with
  | nil =>
    unfold Memory.setByte
    split
    · rfl
    · exact Memory.wfFrom_cons.mpr ⟨hlo, ha, ‹_›, rfl⟩
  | cons p rest ih =>
    obtain ⟨b, w⟩ := p
    have h' := Memory.wfFrom_cons.mp h
    unfold Memory.setByte
    split
    · split
      · exact h
      · exact Memory.wfFrom_cons.mpr ⟨hlo, ha, ‹_›, Memory.wfFrom_cons.mpr ⟨by omega, h'.2⟩⟩
    · split
      · split
        · exact Memory.wfFrom_mono h'.2.2.2 (by omega)
        · exact Memory.wfFrom_cons.mpr ⟨hlo, ha, ‹_›, by subst a; exact h'.2.2.2⟩
      · exact Memory.wfFrom_cons.mpr ⟨h'.1, h'.2.1, h'.2.2.1, ih h'.2.2.2 (by omega)⟩

theorem Memory.byte_setByte_from {lo : Nat} {mem : Memory} (h : Memory.wfFrom lo mem = true) (a : Nat) (v : Byte) (b : Nat) :
    (mem.setByte a v).byte b = if b = a then v else mem.byte b := by
  induction mem generalizing lo with
  | nil =>
    unfold Memory.setByte
    split <;> simp_all [Memory.byte]
  | cons p rest ih =>
    obtain ⟨c, w⟩ := p
    have h' := Memory.wfFrom_cons.mp h
    have below : ∀ x, x ≤ c → Memory.byte rest x = unlistedByte :=
      fun x hx => Memory.byte_below h'.2.2.2 (by omega)
    unfold Memory.setByte
    split
    · rename_i hac
      have hb := below a hac.le
      split
      · rename_i hv
        by_cases hba : b = a
        · subst hba
          simp [Memory.byte, hac.ne, hb, hv]
        · simp [hba]
      · simp [Memory.byte]
    · split
      · rename_i _ hac
        subst hac
        split
        · rename_i hv
          by_cases hba : b = a
          · subst hba
            simp [below b le_rfl, hv]
          · simp [Memory.byte, hba]
        · simp only [Memory.byte]
          split <;> rfl
      · rename_i hlt hne
        simp only [Memory.byte, ih h'.2.2.2]
        by_cases hbc : b = c
        · subst hbc
          simp [Ne.symm hne]
        · simp [hbc]

/-- Writing a byte keeps the canonical form. -/
theorem Memory.setByte_wf {mem : Memory} {a : Nat} {v : Byte} (h : mem.wf = true) (ha : a < 2 ^ 64) :
    (mem.setByte a v).wf = true :=
  Memory.setByte_wfFrom h (Nat.zero_le _) ha

/-- Reading a byte after writing one. -/
theorem Memory.byte_setByte {mem : Memory} (h : mem.wf = true) (a : Nat) (v : Byte) (b : Nat) :
    (mem.setByte a v).byte b = if b = a then v else mem.byte b :=
  Memory.byte_setByte_from h a v b

/-- Two canonical memories that read alike at every address are equal. -/
theorem Memory.ext_from {lo : Nat} {m₁ m₂ : Memory} (h₁ : Memory.wfFrom lo m₁ = true) (h₂ : Memory.wfFrom lo m₂ = true)
    (h : ∀ a, m₁.byte a = m₂.byte a) : m₁ = m₂ := by
  induction m₁ generalizing lo m₂ with
  | nil =>
    cases m₂ with
    | nil => rfl
    | cons p rest =>
      obtain ⟨a, v⟩ := p
      have h' := Memory.wfFrom_cons.mp h₂
      have := h a
      simp [Memory.byte] at this
      exact absurd this.symm h'.2.2.1
  | cons p rest ih =>
    obtain ⟨a, v⟩ := p
    have h₁' := Memory.wfFrom_cons.mp h₁
    cases m₂ with
    | nil =>
      have := h a
      simp [Memory.byte] at this
      exact absurd this h₁'.2.2.1
    | cons q rest' =>
      obtain ⟨b, w⟩ := q
      have h₂' := Memory.wfFrom_cons.mp h₂
      have hab : a = b := by
        by_contra hne
        rcases Nat.lt_or_gt_of_ne hne with hlt | hgt
        · have := h a
          simp only [Memory.byte, if_pos, if_neg hne] at this
          rw [Memory.byte_below h₂'.2.2.2 (by omega)] at this
          exact h₁'.2.2.1 this
        · have := h b
          simp only [Memory.byte, if_pos, if_neg (Ne.symm hne)] at this
          rw [Memory.byte_below h₁'.2.2.2 (by omega)] at this
          exact h₂'.2.2.1 this.symm
      subst hab
      have hvw : v = w := by simpa [Memory.byte] using h a
      subst hvw
      congr 1
      refine ih h₁'.2.2.2 h₂'.2.2.2 fun c => ?_
      by_cases hca : c = a
      · subst hca
        rw [Memory.byte_below h₁'.2.2.2 (by omega), Memory.byte_below h₂'.2.2.2 (by omega)]
      · simpa [Memory.byte, hca] using h c

theorem Memory.ext {m₁ m₂ : Memory} (h₁ : m₁.wf = true) (h₂ : m₂.wf = true) (h : ∀ a, m₁.byte a = m₂.byte a) : m₁ = m₂ :=
  Memory.ext_from h₁ h₂ h

/-- A write inside the address space keeps the canonical form. -/
theorem Memory.write_wf {mem : Memory} {a n v : Nat} (h : mem.wf = true) (ha : a + n ≤ 2 ^ 64) :
    (mem.write a n v).wf = true := by
  induction n generalizing mem a v with
  | zero => exact h
  | succ n ih => exact ih (Memory.setByte_wf h (by omega)) (by omega)

/-- Writing an element of C keeps the canonical form. -/
theorem Memory.setHalf_wf {mem : Memory} {a : Nat} {v : Half} (h : mem.wf = true) (ha : a + 2 ≤ 2 ^ 64) :
    (mem.setHalf a v).wf = true :=
  Memory.write_wf h ha

/-- A byte after an element of C is written: its low byte at the address, its high byte above, every other byte as before. -/
theorem Memory.byte_setHalf {mem : Memory} {a : Nat} (h : mem.wf = true) (ha : a + 2 ≤ 2 ^ 64) (v : Half) (b : Nat) :
    (mem.setHalf a v).byte b =
      if b = a then v.setWidth 8 else if b = a + 1 then (v >>> 8).setWidth 8 else mem.byte b := by
  have h1 : (mem.setByte a (BitVec.ofNat 8 v.toNat)).wf = true := Memory.setByte_wf h (by omega)
  show ((mem.setByte a (BitVec.ofNat 8 v.toNat)).setByte (a + 1) (BitVec.ofNat 8 (v.toNat / 256))).byte b = _
  rw [Memory.byte_setByte h1, Memory.byte_setByte h]
  have e2 : (BitVec.ofNat 8 (v.toNat / 256)) = (v >>> 8).setWidth 8 := by
    apply BitVec.eq_of_toNat_eq
    simp [Nat.shiftRight_eq_div_pow]
  have e1 : BitVec.ofNat 8 v.toNat = v.setWidth 8 := by
    apply BitVec.eq_of_toNat_eq
    simp
  rw [e1, e2]
  split_ifs <;> first | rfl | omega

/-- Reset memory has the canonical form. -/
theorem State.reset_mem_wf : State.reset.mem.wf = true := rfl

end Sys2Proof.Machine
end

