-- ==== Sys2Proof/Laws/State.lean ====
section
/-! SUPPORT. One lemma for each field of State and each update of it, true by rfl, so that no later proof unfolds a record update. -/

namespace Sys2Proof.Machine

@[simp] theorem State.issue_cfg (d : Desc) (s : State) : (s.issue d).cfg = s.cfg := rfl
@[simp] theorem State.issue_mem (d : Desc) (s : State) : (s.issue d).mem = s.mem := rfl
@[simp] theorem State.issue_cmd (d : Desc) (s : State) : (s.issue d).cmd = d := rfl
@[simp] theorem State.issue_phase (d : Desc) (s : State) : (s.issue d).phase = .validate := rfl
@[simp] theorem State.issue_code (d : Desc) (s : State) : (s.issue d).code = 0 := rfl
@[simp] theorem State.issue_doneBit (d : Desc) (s : State) : (s.issue d).doneBit = false := rfl
@[simp] theorem State.issue_shape (d : Desc) (s : State) : (s.issue d).shape = s.shape := rfl
@[simp] theorem State.issue_workers (d : Desc) (s : State) : (s.issue d).workers = s.workers := rfl
@[simp] theorem State.issue_agenda (d : Desc) (s : State) : (s.issue d).agenda = s.agenda := rfl
@[simp] theorem State.issue_discards (d : Desc) (s : State) : (s.issue d).discards = s.discards := rfl

@[simp] theorem State.raise_cfg (e : ErrorCode) (s : State) : (s.raise e).cfg = s.cfg := rfl
@[simp] theorem State.raise_mem (e : ErrorCode) (s : State) : (s.raise e).mem = s.mem := rfl
@[simp] theorem State.raise_cmd (e : ErrorCode) (s : State) : (s.raise e).cmd = s.cmd := rfl
@[simp] theorem State.raise_phase (e : ErrorCode) (s : State) : (s.raise e).phase = .idle := rfl
@[simp] theorem State.raise_code (e : ErrorCode) (s : State) : (s.raise e).code = e.bits := rfl
@[simp] theorem State.raise_doneBit (e : ErrorCode) (s : State) : (s.raise e).doneBit = true := rfl
@[simp] theorem State.raise_shape (e : ErrorCode) (s : State) : (s.raise e).shape = s.shape := rfl
@[simp] theorem State.raise_workers (e : ErrorCode) (s : State) : (s.raise e).workers = s.workers := rfl
@[simp] theorem State.raise_agenda (e : ErrorCode) (s : State) : (s.raise e).agenda = s.agenda := rfl
@[simp] theorem State.raise_discards (e : ErrorCode) (s : State) : (s.raise e).discards = s.discards := rfl

@[simp] theorem State.complete_cfg (s : State) : (s.complete).cfg = s.cfg := rfl
@[simp] theorem State.complete_mem (s : State) : (s.complete).mem = s.mem := rfl
@[simp] theorem State.complete_cmd (s : State) : (s.complete).cmd = s.cmd := rfl
@[simp] theorem State.complete_phase (s : State) : (s.complete).phase = .idle := rfl
@[simp] theorem State.complete_code (s : State) : (s.complete).code = 0 := rfl
@[simp] theorem State.complete_doneBit (s : State) : (s.complete).doneBit = true := rfl
@[simp] theorem State.complete_shape (s : State) : (s.complete).shape = Config.discardedShape s.discards := rfl
@[simp] theorem State.complete_workers (s : State) : (s.complete).workers = [] := rfl
@[simp] theorem State.complete_agenda (s : State) : (s.complete).agenda = s.agenda := rfl
@[simp] theorem State.complete_discards (s : State) : (s.complete).discards = s.discards + 1 := rfl

@[simp] theorem State.resetEvent_cfg (s : State) : (s.resetEvent).cfg = s.cfg := rfl
@[simp] theorem State.resetEvent_mem (s : State) : (s.resetEvent).mem = s.mem := rfl
@[simp] theorem State.resetEvent_cmd (s : State) : (s.resetEvent).cmd = zeroDesc := rfl
@[simp] theorem State.resetEvent_phase (s : State) : (s.resetEvent).phase = .idle := rfl
@[simp] theorem State.resetEvent_code (s : State) : (s.resetEvent).code = 0 := rfl
@[simp] theorem State.resetEvent_doneBit (s : State) : (s.resetEvent).doneBit = false := rfl
@[simp] theorem State.resetEvent_shape (s : State) : (s.resetEvent).shape = ⟨0, 0, 0⟩ := rfl
@[simp] theorem State.resetEvent_workers (s : State) : (s.resetEvent).workers = [] := rfl
@[simp] theorem State.resetEvent_agenda (s : State) : (s.resetEvent).agenda = s.agenda := rfl
@[simp] theorem State.resetEvent_discards (s : State) : (s.resetEvent).discards = s.discards := rfl

@[simp] theorem State.startCompute_cfg (s : State) : (s.startCompute).cfg = s.cfg := rfl
@[simp] theorem State.startCompute_mem (s : State) : (s.startCompute).mem = s.mem := rfl
@[simp] theorem State.startCompute_cmd (s : State) : (s.startCompute).cmd = s.cmd := rfl
@[simp] theorem State.startCompute_phase (s : State) : (s.startCompute).phase = .compute := rfl
@[simp] theorem State.startCompute_code (s : State) : (s.startCompute).code = s.code := rfl
@[simp] theorem State.startCompute_doneBit (s : State) : (s.startCompute).doneBit = s.doneBit := rfl
@[simp] theorem State.startCompute_shape (s : State) : (s.startCompute).shape = (dimsOf s.cmd.args).latch := rfl
@[simp] theorem State.startCompute_workers (s : State) : (s.startCompute).workers = (tiles s.cfg (dimsOf s.cmd.args)).map newWorker := rfl
@[simp] theorem State.startCompute_agenda (s : State) : (s.startCompute).agenda = s.agenda := rfl
@[simp] theorem State.startCompute_discards (s : State) : (s.startCompute).discards = s.discards := rfl

@[simp] theorem State.setWorker_cfg (p : Nat) (w : Worker) (s : State) : (s.setWorker p w).cfg = s.cfg := rfl
@[simp] theorem State.setWorker_mem (p : Nat) (w : Worker) (s : State) : (s.setWorker p w).mem = s.mem := rfl
@[simp] theorem State.setWorker_cmd (p : Nat) (w : Worker) (s : State) : (s.setWorker p w).cmd = s.cmd := rfl
@[simp] theorem State.setWorker_phase (p : Nat) (w : Worker) (s : State) : (s.setWorker p w).phase = s.phase := rfl
@[simp] theorem State.setWorker_code (p : Nat) (w : Worker) (s : State) : (s.setWorker p w).code = s.code := rfl
@[simp] theorem State.setWorker_doneBit (p : Nat) (w : Worker) (s : State) : (s.setWorker p w).doneBit = s.doneBit := rfl
@[simp] theorem State.setWorker_shape (p : Nat) (w : Worker) (s : State) : (s.setWorker p w).shape = s.shape := rfl
@[simp] theorem State.setWorker_workers (p : Nat) (w : Worker) (s : State) : (s.setWorker p w).workers = s.workers.set p w := rfl
@[simp] theorem State.setWorker_agenda (p : Nat) (w : Worker) (s : State) : (s.setWorker p w).agenda = s.agenda := rfl
@[simp] theorem State.setWorker_discards (p : Nat) (w : Worker) (s : State) : (s.setWorker p w).discards = s.discards := rfl

@[simp] theorem State.withMem_cfg (m : Memory) (s : State) : (s.withMem m).cfg = s.cfg := rfl
@[simp] theorem State.withMem_mem (m : Memory) (s : State) : (s.withMem m).mem = m := rfl
@[simp] theorem State.withMem_cmd (m : Memory) (s : State) : (s.withMem m).cmd = s.cmd := rfl
@[simp] theorem State.withMem_phase (m : Memory) (s : State) : (s.withMem m).phase = s.phase := rfl
@[simp] theorem State.withMem_code (m : Memory) (s : State) : (s.withMem m).code = s.code := rfl
@[simp] theorem State.withMem_doneBit (m : Memory) (s : State) : (s.withMem m).doneBit = s.doneBit := rfl
@[simp] theorem State.withMem_shape (m : Memory) (s : State) : (s.withMem m).shape = s.shape := rfl
@[simp] theorem State.withMem_workers (m : Memory) (s : State) : (s.withMem m).workers = s.workers := rfl
@[simp] theorem State.withMem_agenda (m : Memory) (s : State) : (s.withMem m).agenda = s.agenda := rfl
@[simp] theorem State.withMem_discards (m : Memory) (s : State) : (s.withMem m).discards = s.discards := rfl

@[simp] theorem State.computeAll_cfg (s : State) : (s.computeAll).cfg = s.cfg := rfl
@[simp] theorem State.computeAll_mem (s : State) : (s.computeAll).mem = gemmMemory s.cfg s.mem s.cmd.args s.shape.dims := rfl
@[simp] theorem State.computeAll_cmd (s : State) : (s.computeAll).cmd = s.cmd := rfl
@[simp] theorem State.computeAll_phase (s : State) : (s.computeAll).phase = .idle := rfl
@[simp] theorem State.computeAll_code (s : State) : (s.computeAll).code = 0 := rfl
@[simp] theorem State.computeAll_doneBit (s : State) : (s.computeAll).doneBit = true := rfl
@[simp] theorem State.computeAll_shape (s : State) : (s.computeAll).shape = Config.discardedShape s.discards := rfl
@[simp] theorem State.computeAll_workers (s : State) : (s.computeAll).workers = [] := rfl
@[simp] theorem State.computeAll_agenda (s : State) : (s.computeAll).agenda = s.agenda := rfl
@[simp] theorem State.computeAll_discards (s : State) : (s.computeAll).discards = s.discards + 1 := rfl

/-- Two updates of the worker set at one position: the later one stands. -/
@[simp] theorem State.setWorker_setWorker (p : Nat) (v w : Worker) (s : State) :
    (s.setWorker p v).setWorker p w = s.setWorker p w := by
  simp [State.setWorker]

/-- The latch of dimensions that fit 32 bits gives them back (R35). -/
theorem Dims.dims_latch {d : Dims} (hm : d.m < 2 ^ 32) (hn : d.n < 2 ^ 32) (hk : d.k < 2 ^ 32) : d.latch.dims = d := by
  obtain ⟨m, n, k⟩ := d
  simp only [Dims.latch, Shape.dims, BitVec.toNat_ofNat, Dims.mk.injEq]
  exact ⟨Nat.mod_eq_of_lt hm, Nat.mod_eq_of_lt hn, Nat.mod_eq_of_lt hk⟩

/-- The dimensions of a latched descriptor fit `SHAPE` (R35, R70). -/
@[simp] theorem dimsOf_latch (c : Desc) : (dimsOf c.args).latch.dims = dimsOf c.args :=
  Dims.dims_latch c.a.dim1.isLt c.b.dim1.isLt c.a.dim0.isLt

end Sys2Proof.Machine
end

