-- ==== Sys2Proof/Laws/Operations.lean ====
section
/-! SUPPORT. For each shared operation of the machine one lemma that says everything it can do, so that no later proof unfolds it. -/

namespace Sys2Proof.Machine

/-- The descriptor's opcode and reserved field pass check 1 exactly when the descriptor decodes (R75, R76, R105). -/
theorem decodeDesc_legal (c : Desc) : decodeDesc c = .ok (.gemm c.args) ↔ legalCommand c = true := by
  unfold decodeDesc legalCommand
  split_ifs <;> simp_all

/-- A descriptor that does not decode fails check 1 (R105). -/
theorem firstError_of_decode_error {cfg : Config} {c : Desc} {e : DecodeError} (h : decodeDesc c = .error e) :
    firstError cfg c = some .illegalCommand := by
  have hl : legalCommand c = false := by
    cases hl : legalCommand c with
    | false => rfl
    | true => rw [(decodeDesc_legal c).mpr hl] at h; cases h
  simp [firstError, hl]

theorem inRange_iff {base size a : Nat} : inRange base size a = true ↔ base ≤ a ∧ a < base + size := by
  simp [inRange]

/-- A byte of a buffer's range (R45). -/
theorem inBuf_iff {x : Args} {d : Dims} {y : Buf} {a : Nat} :
    inBuf x d y a = true ↔ (bufArg x y).base ≤ a ∧ a < (bufArg x y).base + req d y :=
  inRange_iff

/-- A byte outside a buffer's range (R45). -/
theorem inBuf_false_iff {x : Args} {d : Dims} {y : Buf} {a : Nat} :
    inBuf x d y a = false ↔ ¬ ((bufArg x y).base ≤ a ∧ a < (bufArg x y).base + req d y) := by
  rw [← inBuf_iff, Bool.not_eq_true]

theorem disjointRanges_iff {b₁ n₁ b₂ n₂ : Nat} : disjointRanges b₁ n₁ b₂ n₂ = true ↔ b₁ + n₁ ≤ b₂ ∨ b₂ + n₂ ≤ b₁ := by
  simp [disjointRanges]

/-- Check 2 in numbers (R106). -/
theorem blockAligned_iff {d : Dims} : blockAligned d = true ↔ d.k % 128 = 0 ∧ d.n % 128 = 0 := by
  simp [blockAligned]

/-- The four conditions on one buffer in numbers (R109). -/
theorem bufferOk_iff {x : Args} {d : Dims} {y : Buf} :
    bufferOk x d y = true ↔ (bufArg x y).base ≠ 0 ∧ req d y ≤ (bufArg x y).nbytes ∧
      (bufArg x y).base + req d y ≤ 2 ^ 64 ∧ (bufArg x y).base % alignOf y = 0 := by
  simp [bufferOk, and_assoc]

/-- Check 5: every buffer, and C apart from every input (R109). -/
theorem buffersOk_iff {x : Args} {d : Dims} :
    buffersOk x d = true ↔ (∀ y, bufferOk x d y = true) ∧ ∀ y, y ≠ .c → disjointFromC x d y = true := by
  simp only [buffersOk, allBufs, inputBufs, Bool.and_eq_true, List.all_cons, List.all_nil]
  constructor
  · rintro ⟨⟨h1, h2, h3, h4, h5, -⟩, g1, g2, g3, g4, -⟩
    exact ⟨fun y => by cases y <;> assumption, fun y hy => by cases y <;> first | assumption | exact absurd rfl hy⟩
  · rintro ⟨h, g⟩
    exact ⟨⟨h _, h _, h _, h _, h _, trivial⟩, g _ (by simp), g _ (by simp), g _ (by simp), g _ (by simp), trivial⟩

/-- What a descriptor that passes every check satisfies (R105 to R109). -/
theorem firstError_none {cfg : Config} {c : Desc} :
    firstError cfg c = none ↔ legalCommand c = true ∧ blockAligned (dimsOf c.args) = true ∧
      shapeConsistent c.args (dimsOf c.args) = true ∧ supportedShape cfg (dimsOf c.args) = true ∧
      buffersOk c.args (dimsOf c.args) = true := by
  simp only [firstError]
  split_ifs <;> simp_all

/-- Everything `launch` can do (R110, R68). -/
theorem launch_cases (s : State) :
    (launchAdmitted s.cfg s.cmd.args (dimsOf s.cmd.args) = true ∧ launch s = .next s.startCompute) ∨
    (launchAdmitted s.cfg s.cmd.args (dimsOf s.cmd.args) = false ∧ launch s = .refused .notPlainMemory) := by
  unfold launch
  cases launchAdmitted s.cfg s.cmd.args (dimsOf s.cmd.args) <;> simp

/-- Everything validation can do (R102, R195, R110, R68). -/
theorem validateStep_cases (s : State) :
    (∃ e, firstError s.cfg s.cmd = some e ∧ validateStep s = .next (s.raise e)) ∨
    (firstError s.cfg s.cmd = none ∧ launchAdmitted s.cfg s.cmd.args (dimsOf s.cmd.args) = true ∧
      validateStep s = .next s.startCompute) ∨
    (firstError s.cfg s.cmd = none ∧ launchAdmitted s.cfg s.cmd.args (dimsOf s.cmd.args) = false ∧
      validateStep s = .refused .notPlainMemory) := by
  unfold validateStep
  cases h : firstError s.cfg s.cmd with
  | some e => exact .inl ⟨e, rfl, rfl⟩
  | none =>
    obtain ⟨h1, h2⟩ | ⟨h1, h2⟩ := launch_cases s
    · exact .inr (.inl ⟨rfl, h1, h2⟩)
    · exact .inr (.inr ⟨rfl, h1, h2⟩)

/-- Everything a whole command can do (R100, R105 to R109, R68). -/
theorem runCommand_cases (c : Desc) (s : State) :
    (∃ e, firstError s.cfg c = some e ∧ runCommand c s = .next ((s.issue c).raise e)) ∨
    (firstError s.cfg c = none ∧ launchAdmitted s.cfg c.args (dimsOf c.args) = true ∧
      runCommand c s = .next (s.issue c).startCompute.computeAll) ∨
    (firstError s.cfg c = none ∧ launchAdmitted s.cfg c.args (dimsOf c.args) = false ∧
      runCommand c s = .refused .notPlainMemory) := by
  unfold runCommand
  obtain ⟨e, h1, h2⟩ | ⟨h1, h2, h3⟩ | ⟨h1, h2, h3⟩ := validateStep_cases (s.issue c)
  · exact .inl ⟨e, h1, by rw [h2]; simp⟩
  · exact .inr (.inl ⟨h1, h2, by rw [h3]; simp⟩)
  · exact .inr (.inr ⟨h1, h2, by rw [h3]⟩)

/-- Everything a worker's step can do (R111, R112, R114). -/
theorem workerStep_cases {p : Nat} {s t : State} (h : workerStep p s = .next t) :
    t = s ∨ ∃ w, s.workers[p]? = some w ∧ rangesInSpace s.cmd.args s.shape.dims = true ∧
      ((w.stage = .pending ∧ t = s.setWorker p (startWorker s.cfg s.shape.dims w)) ∨
       (w.stage = .accum ∧ w.k < s.shape.dims.k ∧
          ∃ w', accumulateStep s.cfg s.mem s.cmd.args s.shape.dims w = some w' ∧ t = s.setWorker p w') ∨
       (w.stage = .accum ∧ w.k = s.shape.dims.k ∧
          t = (s.setWorker p (markStored w)).withMem (storeMemory s.cfg s.mem s.cmd.args s.shape.dims w))) := by
  unfold workerStep at h
  simp only at h
  split at h
  · cases h; exact .inl rfl
  · rename_i w hw
    split at h
    · cases h
    · rename_i hr
      have hr' : rangesInSpace s.cmd.args s.shape.dims = true := by simpa using hr
      split at h
      · cases h; exact .inr ⟨w, hw, hr', .inl ⟨‹_›, rfl⟩⟩
      · split at h
        · split at h
          · cases h; exact .inr ⟨w, hw, hr', .inr (.inl ⟨‹_›, ‹_›, _, ‹_›, rfl⟩)⟩
          · cases h
        · split at h
          · cases h; exact .inr ⟨w, hw, hr', .inr (.inr ⟨‹_›, ‹_›, rfl⟩)⟩
          · cases h; exact .inl rfl
      · cases h; exact .inl rfl

/-- Everything the finer store can do (R114, R60). -/
theorem storeElementStep_cases {p q : Nat} {s t : State} (h : storeElementStep p q s = .next t) :
    t = s ∨ ∃ w e, s.workers[p]? = some w ∧ w.acc[q]? = some e ∧ w.stage = .accum ∧ w.k = s.shape.dims.k ∧
      rangesInSpace s.cmd.args s.shape.dims = true ∧
      t = (s.setWorker p (markWritten w q)).withMem (storeEntry s.cfg s.cmd.args s.shape.dims w s.mem e) := by
  unfold storeElementStep at h
  simp only at h
  split at h
  · cases h; exact .inl rfl
  · rename_i w hw
    split at h
    · cases h; exact .inl rfl
    · rename_i e he
      split at h
      · rename_i hc
        split at h
        · cases h
        · rename_i hr
          cases h
          exact .inr ⟨w, e, hw, he, hc.1, hc.2, by simpa using hr, rfl⟩
      · cases h; exact .inl rfl

/-- Everything a host write can do (R36, R56, R224, R68). -/
theorem hostWriteStep_cases {a : BitVec 64} {v : Byte} {s t : State} (h : hostWriteStep a v s = .next t) :
    plainByte s.cfg a.toNat = true ∧ ownedInput s a.toNat = false ∧ ownedOutput s a.toNat = false ∧
      t = s.withMem (s.mem.setByte a.toNat v) := by
  unfold hostWriteStep at h
  split_ifs at h with h1 h2 h3
  cases h
  exact ⟨by simpa using h1, by simpa using h2, by simpa using h3, rfl⟩

/-- Everything the sequencer's step can do when it is chosen (R102, R118). -/
theorem sequencerStep_cases (s : State) :
    sequencerStep s = .next s ∨ (s.phase = .validate ∧ sequencerStep s = validateStep s) ∨
    (s.phase = .compute ∧ allStored s.workers = true ∧ sequencerStep s = .next s.complete) := by
  unfold sequencerStep
  cases hp : s.phase
  · exact .inl rfl
  · exact .inr (.inl ⟨rfl, rfl⟩)
  · cases ha : allStored s.workers
    · exact .inl (by simp)
    · exact .inr (.inr ⟨rfl, rfl, by simp⟩)

/-- Everything the default schedule can do: nothing, validation, the first unfinished worker's step, or completion (R119). -/
theorem engineStep_cases (s : State) :
    (s.phase = .idle ∧ engineStep s = .next s) ∨ (s.phase = .validate ∧ engineStep s = validateStep s) ∨
    (s.phase = .compute ∧ ∃ p, engineStep s = workerStep p s) ∨
    (s.phase = .compute ∧ allStored s.workers = true ∧ engineStep s = .next s.complete) := by
  unfold engineStep
  cases hp : s.phase
  · exact .inl ⟨rfl, rfl⟩
  · exact .inr (.inl ⟨rfl, rfl⟩)
  · cases hf : s.workers.findIdx? fun w => decide (w.stage ≠ .stored) with
    | some p => exact .inr (.inr (.inl ⟨rfl, p, rfl⟩))
    | none =>
      refine .inr (.inr (.inr ⟨rfl, ?_, rfl⟩))
      simpa [allStored, List.findIdx?_eq_none_iff] using hf

/-- Everything a command taken from the port can do: it runs whole, decoded or illegal (R100, R105). -/
theorem commandStep_idle {c : Desc} {s : State} (hi : s.phase = .idle) : commandStep c s = runCommand c s := by
  unfold commandStep
  cases hd : decodeDesc c with
  | error e => rfl
  | ok i =>
    have hl : legalCommand c = true := by
      unfold decodeDesc at hd
      unfold legalCommand
      split_ifs at hd; simp_all
    have hi' : i = .gemm c.args := by
      have := (decodeDesc_legal c).mpr hl
      rw [hd] at this
      exact Except.ok.inj this
    have henc : encode (.gemm c.args) = c := by
      simp only [legalCommand, Bool.and_eq_true, decide_eq_true_eq] at hl
      obtain ⟨op, rs, ⟨_, _, _, _⟩, ⟨_, _, _, _⟩, ⟨_, _, _, _⟩, ⟨_, _, _, _⟩, ⟨_, _, _, _⟩⟩ := c
      simp_all [encode, Desc.args, SubDesc.args, BufArg.sub]
    subst hi'
    simp [exec, execGemm, hi, henc]

/-- Everything a step can do: the default schedule goes on, with nothing on the agenda or with the port held, or the head of the agenda is taken (R36, R101). -/
theorem step_cases (s : State) :
    ((s.agenda = [] ∨ ∃ e rest, s.agenda = e :: rest ∧ needsPort e = true ∧ s.phase ≠ .idle) ∧ step s = engineStep s) ∨
    (∃ e rest, s.agenda = e :: rest ∧ (needsPort e = true → s.phase = .idle) ∧
      step s = takeEvent e { s with agenda := rest }) := by
  unfold step
  cases ha : s.agenda with
  | nil => exact .inl ⟨.inl rfl, rfl⟩
  | cons e rest =>
    cases hn : needsPort e with
    | false => exact .inr ⟨e, rest, rfl, by simp [hn], by simp [hn]⟩
    | true =>
      by_cases hi : s.phase = .idle
      · exact .inr ⟨e, rest, rfl, fun _ => hi, by simp [State.busy, hi]⟩
      · exact .inl ⟨.inr ⟨e, rest, rfl, hn, hi⟩, by simp [hn, State.busy, hi]⟩

/-- An element of C lies inside the byte range of C (R45, R50). -/
theorem addrC_inside {x : Args} {d : Dims} {m n : Nat} (hm : m < d.m) (hn : n < d.n) :
    x.c.base ≤ addrC x d m n ∧ addrC x d m n + 2 ≤ x.c.base + req d .c := by
  have h : m * d.n + n + 1 ≤ d.m * d.n :=
    calc m * d.n + n + 1 ≤ m * d.n + d.n := by omega
      _ = (m + 1) * d.n := by ring
      _ ≤ d.m * d.n := Nat.mul_le_mul_right _ hm
  have e : req d .c = 2 * (d.m * d.n) := Nat.mul_assoc 2 d.m d.n
  unfold addrC
  omega

theorem range_c_inSpace {x : Args} {d : Dims} (h : rangesInSpace x d = true) : x.c.base + req d .c ≤ 2 ^ 64 := by
  simp only [rangesInSpace, allBufs, List.all_cons, Bool.and_eq_true, decide_eq_true_eq] at h
  exact h.2.2.2.2.1

/-- A validated command's byte ranges lie below 2^64 (R109). -/
theorem rangesInSpace_of_buffersOk {x : Args} {d : Dims} (h : buffersOk x d = true) : rangesInSpace x d = true := by
  simp only [buffersOk, rangesInSpace, Bool.and_eq_true, List.all_eq_true, bufferOk, decide_eq_true_eq] at h ⊢
  exact fun y hy => (h.1 y hy).1.2

/-- One element write of the store step keeps the canonical form of memory. -/
theorem storeEntry_wf {cfg : Config} {mem : Memory} {x : Args} {d : Dims} {w : Worker} {e : AccEntry}
    (h : mem.wf = true) (hs : rangesInSpace x d = true) : (storeEntry cfg x d w mem e).wf = true := by
  unfold storeEntry
  split
  · rename_i hc
    simp only [entryInRange, Bool.and_eq_true, decide_eq_true_eq] at hc
    have := addrC_inside (x := x) hc.1.1 hc.1.2
    have := range_c_inSpace hs
    exact Memory.setHalf_wf h (by omega)
  · exact h

/-- The store step keeps the canonical form of memory. -/
theorem storeMemory_wf {cfg : Config} {mem : Memory} {x : Args} {d : Dims} {w : Worker}
    (h : mem.wf = true) (hs : rangesInSpace x d = true) : (storeMemory cfg mem x d w).wf = true := by
  unfold storeMemory
  generalize w.acc = es
  induction es generalizing mem with
  | nil => exact h
  | cons e es ih => exact ih (storeEntry_wf h hs)

theorem mem_cells {d : Dims} {p : Nat × Nat} : p ∈ cells d ↔ p.1 < d.m ∧ p.2 < d.n := by
  obtain ⟨m, n⟩ := p
  simp [cells]

/-- The whole command's writes keep the canonical form of memory. -/
theorem gemmMemory_wf {cfg : Config} {mem : Memory} {x : Args} {d : Dims}
    (h : mem.wf = true) (hs : rangesInSpace x d = true) : (gemmMemory cfg mem x d).wf = true := by
  unfold gemmMemory
  have key : ∀ (ps : List (Nat × Nat)) (m : Memory), (∀ p ∈ ps, p.1 < d.m ∧ p.2 < d.n) → m.wf = true →
      (ps.foldl (fun m' p => m'.setHalf (addrC x d p.1 p.2) (elem cfg.fp8 mem x d p.1 p.2)) m).wf = true := by
    intro ps
    induction ps with
    | nil => intro m _ hm; exact hm
    | cons p ps ih =>
      intro m hp hm
      have hp' := hp p List.mem_cons_self
      have := addrC_inside (x := x) hp'.1 hp'.2
      have := range_c_inSpace hs
      exact ih _ (fun q hq => hp q (List.mem_cons_of_mem _ hq)) (Memory.setHalf_wf hm (by omega))
  exact key _ _ (fun p hp => mem_cells.mp hp) h

/-- A host write keeps the canonical form of memory. -/
theorem hostWriteStep_wf {a : BitVec 64} {v : Byte} {s t : State} (h : hostWriteStep a v s = .next t)
    (hm : s.mem.wf = true) : t.mem.wf = true := by
  obtain ⟨-, -, -, rfl⟩ := hostWriteStep_cases h
  exact Memory.setByte_wf hm a.isLt

end Sys2Proof.Machine
end

