-- ==== Sys2Proof/Laws/Workers.lean ====
section
/-! SUPPORT. The laws of the worker's steps: the fields each update changes, what the accumulate step can do, and what an element write changes. -/

namespace Sys2Proof.Machine

@[simp] theorem startWorker_ti (cfg : Config) (d : Dims) (w : Worker) : (startWorker cfg d w).ti = w.ti := rfl
@[simp] theorem startWorker_tj (cfg : Config) (d : Dims) (w : Worker) : (startWorker cfg d w).tj = w.tj := rfl
@[simp] theorem startWorker_stage (cfg : Config) (d : Dims) (w : Worker) : (startWorker cfg d w).stage = .accum := rfl
@[simp] theorem startWorker_k (cfg : Config) (d : Dims) (w : Worker) : (startWorker cfg d w).k = 0 := rfl
@[simp] theorem startWorker_acc (cfg : Config) (d : Dims) (w : Worker) : (startWorker cfg d w).acc = initAcc cfg d w := rfl

@[simp] theorem loadLatches_ti (cfg : Config) (mem : Memory) (x : Args) (d : Dims) (w : Worker) :
    (loadLatches cfg mem x d w).ti = w.ti := rfl
@[simp] theorem loadLatches_tj (cfg : Config) (mem : Memory) (x : Args) (d : Dims) (w : Worker) :
    (loadLatches cfg mem x d w).tj = w.tj := rfl
@[simp] theorem loadLatches_stage (cfg : Config) (mem : Memory) (x : Args) (d : Dims) (w : Worker) :
    (loadLatches cfg mem x d w).stage = w.stage := rfl
@[simp] theorem loadLatches_k (cfg : Config) (mem : Memory) (x : Args) (d : Dims) (w : Worker) :
    (loadLatches cfg mem x d w).k = w.k := rfl
@[simp] theorem loadLatches_acc (cfg : Config) (mem : Memory) (x : Args) (d : Dims) (w : Worker) :
    (loadLatches cfg mem x d w).acc = w.acc := rfl

@[simp] theorem markStored_ti (w : Worker) : (markStored w).ti = w.ti := rfl
@[simp] theorem markStored_tj (w : Worker) : (markStored w).tj = w.tj := rfl
@[simp] theorem markStored_stage (w : Worker) : (markStored w).stage = .stored := rfl
@[simp] theorem markStored_k (w : Worker) : (markStored w).k = w.k := rfl

@[simp] theorem markWritten_ti (w : Worker) (p : Nat) : (markWritten w p).ti = w.ti := rfl
@[simp] theorem markWritten_tj (w : Worker) (p : Nat) : (markWritten w p).tj = w.tj := rfl
@[simp] theorem markWritten_stage (w : Worker) (p : Nat) : (markWritten w p).stage = w.stage := rfl
@[simp] theorem markWritten_k (w : Worker) (p : Nat) : (markWritten w p).k = w.k := rfl

/-- Marking an entry replaces it alone. -/
theorem markWritten_eq {w : Worker} {q : Nat} {e : AccEntry} (h : w.acc[q]? = some e) :
    markWritten w q = { w with acc := w.acc.set q { e with written := true } } := by
  obtain ⟨hq, rfl⟩ := List.getElem?_eq_some_iff.mp h
  simp only [markWritten, List.modify_eq_set_getElem?, h, Option.map_eq_map, Option.map_some, Option.getD_some]

/-- Marking an entry that is marked already changes nothing. -/
theorem markWritten_of_written {w : Worker} {q : Nat} {e : AccEntry} (h : w.acc[q]? = some e) (hw : e.written = true) :
    markWritten w q = w := by
  rw [markWritten_eq h, show ({ e with written := true } : AccEntry) = e by cases e; cases hw; rfl]
  obtain ⟨hq, rfl⟩ := List.getElem?_eq_some_iff.mp h
  rw [List.set_getElem_self]

/-- The scale latch of a row in range holds that row's scale of the chunk (R28). -/
theorem loadLatches_sA {cfg : Config} {mem : Memory} {x : Args} {d : Dims} {w : Worker} {i : Nat} (h : i < rowsOf cfg d w) :
    (loadLatches cfg mem x d w).sA[i]? = some (mem.word (addrAScale x d (w.k / BLOCK) (rowIndex cfg w i))) := by
  simp [loadLatches, h]

/-- The scale latch of a column in range holds the scale of that column's tile of B (R28). -/
theorem loadLatches_sB {cfg : Config} {mem : Memory} {x : Args} {d : Dims} {w : Worker} {j : Nat} (h : j < colsOf cfg d w) :
    (loadLatches cfg mem x d w).sB[j]? = some (mem.word (addrBScale x d (w.k / BLOCK) (colIndex cfg w j / BLOCK))) := by
  simp [loadLatches, h]

/-- One more term in the reduction (R157). -/
theorem partialSum_succ (fmt : Fp8Format) (mem : Memory) (x : Args) (d : Dims) (m n k : Nat) :
    partialSum fmt mem x d m n (k + 1) = accStep (partialSum fmt mem x d m n k) (termAt fmt mem x d m n k) := by
  simp [partialSum, reduceK, List.range_succ]

@[simp] theorem partialSum_zero (fmt : Fp8Format) (mem : Memory) (x : Args) (d : Dims) (m n : Nat) :
    partialSum fmt mem x d m n 0 = accInit := rfl

/-- Everything one entry's part of the accumulate step can do (R112, R27). -/
theorem accumulateEntry_cases {cfg : Config} {mem : Memory} {x : Args} {d : Dims} {w : Worker} {e e' : AccEntry}
    (h : accumulateEntry cfg mem x d w e = some e') :
    (entryInRange cfg d w e = false ∧ e' = e) ∨
    (entryInRange cfg d w e = true ∧ ∃ sa sb, w.sA[e.i]? = some sa ∧ w.sB[e.j]? = some sb ∧
      e' = { e with val := accStep e.val (term
        (dq cfg.fp8 (mem.byte (addrA x d w.k (rowIndex cfg w e.i))) sa)
        (dq cfg.fp8 (mem.byte (addrB x d w.k (colIndex cfg w e.j))) sb)) }) := by
  unfold accumulateEntry at h
  split at h
  · split at h
    · rename_i hr _ _ sa sb ha hb
      exact .inr ⟨hr, sa, sb, ha, hb, (Option.some.inj h).symm⟩
    · cases h
  · rename_i hr
    exact .inl ⟨by simpa using hr, (Option.some.inj h).symm⟩

/-- The accumulate step over a list of entries does each entry's part, in place. -/
theorem accumulateEntries_some {cfg : Config} {mem : Memory} {x : Args} {d : Dims} {w : Worker} {es es' : List AccEntry} :
    accumulateEntries cfg mem x d w es = some es' ↔
      List.Forall₂ (fun e e' => accumulateEntry cfg mem x d w e = some e') es es' := by
  induction es generalizing es' with
  | nil => cases es' <;> simp [accumulateEntries]
  | cons e es ih =>
    simp only [accumulateEntries]
    constructor
    · intro h
      split at h
      · rename_i a b ha hb
        cases h
        exact .cons ha (ih.mp hb)
      · cases h
    · intro h
      cases h with
      | cons ha hb => simp [ha, ih.mpr hb]

/-- The accumulate step has a result when every entry's part has one. -/
theorem accumulateEntries_isSome {cfg : Config} {mem : Memory} {x : Args} {d : Dims} {w : Worker} {es : List AccEntry}
    (h : ∀ e ∈ es, ∃ e', accumulateEntry cfg mem x d w e = some e') :
    ∃ es', accumulateEntries cfg mem x d w es = some es' := by
  induction es with
  | nil => exact ⟨[], rfl⟩
  | cons e es ih =>
    obtain ⟨e', he⟩ := h e List.mem_cons_self
    obtain ⟨es', hes⟩ := ih fun f hf => h f (List.mem_cons_of_mem _ hf)
    exact ⟨e' :: es', by simp [accumulateEntries, he, hes]⟩

/-- Everything the accumulate step can do (R112): the latches are loaded at a chunk's start, each entry does its part, and k advances. -/
theorem accumulateStep_cases {cfg : Config} {mem : Memory} {x : Args} {d : Dims} {w w' : Worker}
    (h : accumulateStep cfg mem x d w = some w') :
    ∃ v es, v = (if w.k % BLOCK = 0 then loadLatches cfg mem x d w else w) ∧
      List.Forall₂ (fun e e' => accumulateEntry cfg mem x d v e = some e') w.acc es ∧
      w' = { v with acc := es, k := w.k + 1 } := by
  unfold accumulateStep at h
  simp only at h
  have hacc : (if w.k % BLOCK = 0 then loadLatches cfg mem x d w else w).acc = w.acc := by split <;> rfl
  have hk : (if w.k % BLOCK = 0 then loadLatches cfg mem x d w else w).k = w.k := by split <;> rfl
  rw [hacc, hk] at h
  split at h
  · rename_i es hes
    exact ⟨_, es, rfl, accumulateEntries_some.mp hes, (Option.some.inj h).symm⟩
  · cases h

/-- What one element write of the store step changes: nothing, or the two bytes of its element (R114, R173). -/
theorem storeEntry_cases (cfg : Config) (x : Args) (d : Dims) (w : Worker) (mem : Memory) (e : AccEntry) :
    (storeEntry cfg x d w mem e = mem ∧ (entryInRange cfg d w e = false ∨ e.written = true)) ∨
    (storeEntry cfg x d w mem e =
        mem.setHalf (addrC x d (rowIndex cfg w e.i) (colIndex cfg w e.j)) (cvtBF16 e.val) ∧
      rowIndex cfg w e.i < d.m ∧ colIndex cfg w e.j < d.n ∧ e.written = false) := by
  unfold storeEntry
  split
  · rename_i h
    simp only [entryInRange, Bool.and_eq_true, decide_eq_true_eq, Bool.not_eq_true'] at h
    exact .inr ⟨rfl, h.1.1, h.1.2, h.2⟩
  · rename_i h
    refine .inl ⟨rfl, ?_⟩
    cases hr : entryInRange cfg d w e
    · exact .inl rfl
    · exact .inr (by simpa [hr] using h)

/-- The halfword at an address is made of the two bytes there (R42). -/
theorem Memory.half_congr {m₁ m₂ : Memory} {a : Nat} (h0 : m₁.byte a = m₂.byte a) (h1 : m₁.byte (a + 1) = m₂.byte (a + 1)) :
    m₁.half a = m₂.half a := by
  simp [Memory.half, Memory.read, h0, h1]

/-- The halfword just written is read back (R43, R44). -/
theorem Memory.half_setHalf {mem : Memory} {a : Nat} (h : mem.wf = true) (ha : a + 2 ≤ 2 ^ 64) (v : Half) :
    (mem.setHalf a v).half a = v := by
  have hv := v.isLt
  apply BitVec.eq_of_toNat_eq
  have h0 : (mem.setHalf a v).byte a = v.setWidth 8 := by rw [Memory.byte_setHalf h ha, if_pos rfl]
  have h1 : (mem.setHalf a v).byte (a + 1) = (v >>> 8).setWidth 8 := by
    rw [Memory.byte_setHalf h ha, if_neg (by omega), if_pos rfl]
  simp only [Memory.half, Memory.read, h0, h1, BitVec.toNat_ofNat, BitVec.toNat_setWidth, BitVec.toNat_ushiftRight,
    Nat.shiftRight_eq_div_pow]
  omega

/-- A word is made of the four bytes at its address (R42). -/
theorem Memory.word_congr {m₁ m₂ : Memory} {a : Nat} (h : ∀ i, i < 4 → m₁.byte (a + i) = m₂.byte (a + i)) : m₁.word a = m₂.word a := by
  have h0 := h 0 (by omega)
  have h1 := h 1 (by omega)
  have h2 := h 2 (by omega)
  have h3 := h 3 (by omega)
  simp only [Nat.add_zero] at h0
  simp [Memory.word, Memory.read, h0, h1, h2, h3, Nat.add_assoc]

end Sys2Proof.Machine
end

