-- ==== Sys2Proof/Laws/Inputs.lean ====
section
/-! SUPPORT. Validated byte ranges, and that the values the engine computes depend on the bytes of the input ranges alone. -/

namespace Sys2Proof.Machine

variable {cfg : Config} {x : Args} {d : Dims}

/-- What validation gives about the byte ranges of a command, in the form the lemmas below use. -/
structure SoundRanges (x : Args) (d : Dims) : Prop where
  kal : d.k % 128 = 0
  nal : d.n % 128 = 0
  space : ∀ y, (bufArg x y).base + req d y ≤ 2^64
  disj : ∀ y, y ≠ .c → ∀ a, inBuf x d y a = true → inBuf x d .c a = false

/-- Validation that passes gives sound ranges (R106, R109). -/
theorem soundRanges_of_firstError {cfg : Config} {c : Desc} (h : firstError cfg c = none) : SoundRanges c.args (dimsOf c.args) := by
  rw [firstError_none, blockAligned_iff, buffersOk_iff] at h
  obtain ⟨-, h1, h2, -, h3, h4⟩ := h
  refine ⟨h1.1, h1.2, fun y => (bufferOk_iff.mp (h3 y)).2.2.1, fun y hy a ha => ?_⟩
  have := disjointRanges_iff.mp (h4 y hy)
  rw [inBuf_iff] at ha
  rw [inBuf_false_iff]
  simp only [bufArg] at *
  omega

/-- Two memories agree on every byte of the four input ranges. -/
def SameInputs (x : Args) (d : Dims) (m₁ m₂ : Memory) : Prop := ∀ y, y ≠ .c → ∀ a, inBuf x d y a = true → m₁.byte a = m₂.byte a

/-- A row-major index lies inside its array. -/
theorem rowMajor_lt {k K m M : Nat} (hk : k < K) (hm : m < M) : k * M + m + 1 ≤ K * M := by
  calc k * M + m + 1 ≤ k * M + M := by omega
      _ = (k + 1) * M := by ring
      _ ≤ K * M := Nat.mul_le_mul_right _ hk

/-- A dequantized value of A depends on the input bytes alone. -/
theorem dequantA_congr (g : SoundRanges x d) {m₁ m₂} (h : SameInputs x d m₁ m₂) {fmt} {k m} (hk : k < d.k) (hm : m < d.m) :
    dequantA fmt m₁ x d k m = dequantA fmt m₂ x d k m := by
  have e1 := rowMajor_lt hk hm
  have hkb : k / 128 < d.k / 128 := by have := g.kal; omega
  have e2 := rowMajor_lt hkb hm
  unfold dequantA
  congr 1
  · apply h .a (by simp)
    rw [inBuf_iff]; simp only [bufArg, req, addrA]; omega
  · apply Memory.word_congr
    intro i hi
    apply h .aScale (by simp)
    have : 4 * (d.k / 128) * d.m = 4 * (d.k / 128 * d.m) := by ring
    rw [inBuf_iff]; simp only [bufArg, req, addrAScale, BLOCK, this]; omega

/-- A dequantized value of B depends on the input bytes alone. -/
theorem dequantB_congr (g : SoundRanges x d) {m₁ m₂} (h : SameInputs x d m₁ m₂) {fmt} {k n} (hk : k < d.k) (hn : n < d.n) :
    dequantB fmt m₁ x d k n = dequantB fmt m₂ x d k n := by
  have e1 := rowMajor_lt hk hn
  have hkb : k / 128 < d.k / 128 := by have := g.kal; omega
  have hnb : n / 128 < d.n / 128 := by have := g.nal; omega
  have e2 := rowMajor_lt hkb hnb
  unfold dequantB
  congr 1
  · apply h .b (by simp)
    rw [inBuf_iff]; simp only [bufArg, req, addrB]; omega
  · apply Memory.word_congr
    intro i hi
    apply h .bScale (by simp)
    have : 4 * (d.k / 128) * (d.n / 128) = 4 * (d.k / 128 * (d.n / 128)) := by ring
    rw [inBuf_iff]; simp only [bufArg, req, addrBScale, BLOCK, this]; omega

/-- A partial sum depends on the input bytes alone. -/
theorem partialSum_congr (g : SoundRanges x d) {m₁ m₂} (h : SameInputs x d m₁ m₂) {fmt} {m n k} (hk : k ≤ d.k) (hm : m < d.m) (hn : n < d.n) :
    partialSum fmt m₁ x d m n k = partialSum fmt m₂ x d m n k := by
  induction k with
  | zero => rfl
  | succ k ih =>
    rw [partialSum_succ, partialSum_succ, ih (by omega)]
    simp only [termAt, dequantA_congr g h (by omega : k < d.k) hm, dequantB_congr g h (by omega : k < d.k) hn]

/-- An element of C depends on the input bytes alone (R115). -/
theorem elem_congr (g : SoundRanges x d) {m₁ m₂} (h : SameInputs x d m₁ m₂) {fmt} {m n} (hm : m < d.m) (hn : n < d.n) :
    elem fmt m₁ x d m n = elem fmt m₂ x d m n := by
  simp [elem, partialSum_congr g h le_rfl hm hn]

/-- An entry of an accumulator file lies inside its tile. -/
theorem AccEntry.inside_tile {w : Worker} {e : AccEntry} (h : w.acc.map AccEntry.pos = (initAcc cfg d w).map AccEntry.pos) (he : e ∈ w.acc) :
    e.i < rowsOf cfg d w ∧ e.j < colsOf cfg d w := by
  have : e.pos ∈ w.acc.map AccEntry.pos := List.mem_map_of_mem he
  rw [h] at this
  simp only [initAcc, List.mem_map, List.mem_flatMap, List.mem_range] at this
  obtain ⟨_, ⟨i, hi, j, hj, rfl⟩, h3⟩ := this
  simp only [AccEntry.pos, Prod.mk.injEq] at h3
  omega

/-- An entry of an accumulator file belongs to an element of C. -/
theorem AccEntry.inside_output {w : Worker} {e : AccEntry} (h : w.acc.map AccEntry.pos = (initAcc cfg d w).map AccEntry.pos) (he : e ∈ w.acc) :
    rowIndex cfg w e.i < d.m ∧ colIndex cfg w e.j < d.n := by
  have := AccEntry.inside_tile h he
  simp only [rowsOf, colsOf, rowIndex, colIndex] at *
  omega

end Sys2Proof.Machine
end

