-- ==== Sys2Proof/Laws/PerInstr.lean ====
section
/-! SUPPORT. Statements made for each instruction: what the opcode map asks of every encoded command (R75, R76). -/

namespace Sys2Proof.Laws.OpcodeWord

/-- Descriptor bytes 0 to 7 of an encoded command are 01 00 00 00 00 00 00 00: match 0x1 under the full 64-bit mask (R75). -/
def Statement (i : Instr) : Prop := (encodeBytes i).take 8 = [1, 0, 0, 0, 0, 0, 0, 0]

theorem gemm (args : Args) : Statement (.gemm args) := by
  simp only [Statement, encodeBytes, encode, Desc.toBytes, List.append_assoc]
  rfl

end Sys2Proof.Laws.OpcodeWord
end

