-- ==== Sys2Proof/Tests/Slice0.lean ====
section
/-! SUPPORT. The model's own tests, with expected results from the spec's tables, and for each statement with hypotheses a concrete state and operands that meet them. -/

namespace Sys2Proof.Tests

set_option Elab.async false

open Sys2Proof Sys2Proof.Machine

/-! ## Helpers -/

/-- The command of program P3 (95_test_vectors.md section 3). -/
def p3 : Args := ⟨⟨0x1000, 256, 2, 0x200⟩, ⟨0x2000, 256, 128, 0x8000⟩, ⟨0xA000, 2, 2, 0x10⟩, ⟨0xA100, 2, 1, 0x8⟩, ⟨0xB000, 2, 128, 0x200⟩⟩

/-- P3 with a null C: consistent and supported, rejected by check 5. -/
def p3NullC : Args := { p3 with c := { p3.c with base := 0 } }

/-- Memory in which A[0, 0] and B[0, 0] are 1.0 and so are the scales of chunk 0; everything else reads 0x00. -/
def mem0 : Memory := [(0x1000, 0x40), (0x2000, 0x40), (0xA002, 0x80), (0xA003, 0x3F), (0xA102, 0x80), (0xA103, 0x3F)]

/-- The same with A[0, 0] written as 2.0 and its scale as 0.5. -/
def mem1 : Memory := [(0x1000, 0x48), (0x2000, 0x40), (0xA003, 0x3F), (0xA102, 0x80), (0xA103, 0x3F)]

/-- An idle engine over `mem0`. -/
def idle0 : State := { State.reset with mem := mem0 }

/-- P3 in COMPUTE with these workers and this agenda. -/
def computing (ws : List Worker) (es : List Event) : State :=
  { (idle0.issue (encode (.gemm p3))).startCompute with workers := ws, agenda := es }

/-- P3's one worker after its start step. -/
def started : Worker := startWorker Config.reset ⟨2, 128, 256⟩ (newWorker (0, 0))

/-- P3's one worker with every term accumulated. -/
def summed : Worker :=
  { started with k := 256, acc := started.acc.map fun e => { e with val := partialSum .e4m3fnuz mem0 p3 ⟨2, 128, 256⟩ e.i e.j 256 } }

/-- The status word and a halfword of memory after an outcome. -/
def seen (a : Nat) : Result → Option (BitVec 32 × Half)
  | .next t => some (t.status, t.mem.half a)
  | _ => none

/-! ## WellFormed: each check refuses a term that fails it alone -/

theorem test_wf_accepts_p3 : (Instr.gemm p3).wf = true := by decide
theorem test_wf_refuses_base : (Instr.gemm { p3 with a := { p3.a with base := 2 ^ 64 } }).wf = false := by decide
theorem test_wf_refuses_dim0 : (Instr.gemm { p3 with b := { p3.b with dim0 := 2 ^ 32 } }).wf = false := by decide
theorem test_wf_refuses_dim1 : (Instr.gemm { p3 with aScale := { p3.aScale with dim1 := 2 ^ 32 } }).wf = false := by decide
theorem test_wf_refuses_nbytes : (Instr.gemm { p3 with c := { p3.c with nbytes := 2 ^ 64 } }).wf = false := by decide
theorem test_wf_refuses_bScale : (Instr.gemm { p3 with bScale := { p3.bScale with base := 2 ^ 64 } }).wf = false := by decide

/-! ## Decoding (words written out from R70; P3's bytes from 95_test_vectors.md) -/

/-- The 128 bytes of P3's descriptor, as the spec lists them. -/
def p3Bytes : List Byte :=
  [0x01, 0, 0, 0, 0, 0, 0, 0,  0x00, 0x10, 0, 0, 0, 0, 0, 0] ++
  [0x00, 0x01, 0, 0, 0x02, 0, 0, 0,  0x00, 0x02, 0, 0, 0, 0, 0, 0] ++
  [0x00, 0x20, 0, 0, 0, 0, 0, 0,  0x00, 0x01, 0, 0, 0x80, 0, 0, 0] ++
  [0x00, 0x80, 0, 0, 0, 0, 0, 0,  0x00, 0xA0, 0, 0, 0, 0, 0, 0] ++
  [0x02, 0, 0, 0, 0x02, 0, 0, 0,  0x10, 0, 0, 0, 0, 0, 0, 0] ++
  [0x00, 0xA1, 0, 0, 0, 0, 0, 0,  0x02, 0, 0, 0, 0x01, 0, 0, 0] ++
  [0x08, 0, 0, 0, 0, 0, 0, 0,  0x00, 0xB0, 0, 0, 0, 0, 0, 0] ++
  [0x02, 0, 0, 0, 0x80, 0, 0, 0,  0x00, 0x02, 0, 0, 0, 0, 0, 0]

theorem test_decode_p3 : decodeBytes p3Bytes = .ok (.gemm p3) := by decide +kernel
theorem test_encode_p3 : encodeBytes (.gemm p3) = p3Bytes := by decide +kernel
theorem test_decode_bit_63_reserved : decodeBytes ([0x01, 0, 0, 0, 0, 0, 0, 0x80] ++ List.replicate 120 0) = .error .reservedNotZero := by
  decide +kernel
theorem test_decode_opcode_ff : decodeBytes (0xFF :: List.replicate 127 0) = .error .illegalOpcode := by decide +kernel
theorem test_decode_short : decodeBytes (0x01 :: List.replicate 126 0) = .error .wrongLength := by decide +kernel

/-- The table's row, operand words of zeros. -/
theorem test_decodeTableWord_gemm :
    decodeTableWord 1024 1 = some (.gemm ⟨⟨0, 0, 0, 0⟩, ⟨0, 0, 0, 0⟩, ⟨0, 0, 0, 0⟩, ⟨0, 0, 0, 0⟩, ⟨0, 0, 0, 0⟩⟩) := by decide +kernel

/-- Bits [159:128] of the descriptor are A.dim0 and bits [895:832] are C.base (R70). -/
theorem test_decodeTableWord_fields :
    decodeTableWord 1024 (1 + 256 * 2 ^ 128 + 0xB000 * 2 ^ 832) =
      some (.gemm ⟨⟨0, 256, 0, 0⟩, ⟨0, 0, 0, 0⟩, ⟨0, 0, 0, 0⟩, ⟨0, 0, 0, 0⟩, ⟨0xB000, 0, 0, 0⟩⟩) := by decide +kernel

/-- `GEMM.MNK 2, 128, 256` expands to the command of P3 (R79). -/
theorem test_mnk_p3 : gemmMNK ⟨2, 128, 256⟩ 0x1000 0x2000 0xA000 0xA100 0xB000 = some (.gemm p3) := by decide

/-- The assembler form of P3, with the spec's hexadecimal numbers in decimal (R79). -/
theorem test_asm_p3 : (Instr.gemm p3).asm =
    "GEMM A=4096:256x2:512, B=8192:256x128:32768, AS=40960:2x2:16, BS=41216:2x1:8, C=45056:2x128:512" := by decide +kernel

/-! ## One step -/

/-- The first instruction after reset, all dimensions zero: K = 0 fails check 3 (V11 of 95_test_vectors.md). -/
theorem test_first_step_runs_the_word : seen 0 (step (State.reset.withFetchWord 1024 1)) = some (0x103#32, 0#16) := by decide +kernel

/-- V26: C.base = 0 gives STATUS 0x0105. -/
theorem test_gemm_null_c : seen 0xB000 (exec (.gemm p3NullC) idle0) = some (0x105#32, 0#16) := by decide +kernel

/-! ## The datapath (95_test_vectors.md section 2) -/

/-- Section 2.1, the bytes where the two variants part and the ends of their ranges. -/
theorem test_fp8dec :
    fp8dec .e4m3fnuz 0x07 = .fin false 7 (-10) ∧ fp8dec .e4m3fnuz 0x08 = .fin false 8 (-10) ∧ fp8dec .e4m3fnuz 0x7F = .fin false 15 4 ∧
    fp8dec .e4m3fnuz 0x80 = .nan ∧ fp8dec .e4m3fnuz 0xC4 = .fin true 12 (-3) ∧ fp8dec .e4m3fnuz 0xFF = .fin true 15 4 ∧
    fp8dec .e4m3fn 0x07 = .fin false 7 (-9) ∧ fp8dec .e4m3fn 0x7E = .fin false 14 5 ∧ fp8dec .e4m3fn 0x7F = .nan ∧
    fp8dec .e4m3fn 0x80 = .zero true ∧ fp8dec .e4m3fn 0xFF = .nan := by decide

/-- Section 2.2. -/
theorem test_f32dec :
    f32dec 0x80000000 = .zero true ∧ f32dec 0x007FFFFF = .fin false 8388607 (-149) ∧ f32dec 0x00800000 = .fin false 8388608 (-149) ∧
    f32dec 0xC0000000 = .fin true 8388608 (-22) ∧ f32dec 0x7F7FFFFF = .fin false 16777215 104 ∧ f32dec 0xFF800000 = .inf true ∧
    f32dec 0x7F800001 = .nan := by decide

/-- Section 2.3. -/
theorem test_dq :
    dq .e4m3fnuz 0xC4 0x3DCCCCCD = .fin true 161061276 (-30) ∧ dq .e4m3fnuz 0x40 0x80000000 = .zero true ∧
    dq .e4m3fnuz 0x00 0x7F800000 = .nan ∧ dq .e4m3fnuz 0x40 0xFF800000 = .inf true ∧ dq .e4m3fnuz 0x80 0x00000000 = .nan := by decide

/-- Section 2.5: ties, gradual underflow, and the top. -/
theorem test_roundF32 :
    roundF32 ⟨2 ^ 24 + 1, 0⟩ = 0x4B800000 ∧ roundF32 ⟨2 ^ 24 + 3, 0⟩ = 0x4B800002 ∧ roundF32 ⟨1, -150⟩ = 0x00000000 ∧
    roundF32 ⟨3, -150⟩ = 0x00000002 ∧ roundF32 ⟨2 ^ 24 - 1, -150⟩ = 0x00800000 ∧ roundF32 ⟨-1, -151⟩ = 0x80000000 ∧
    roundF32 ⟨2 ^ 25 - 1, 103⟩ = 0x7F800000 := by decide +kernel

/-- Section 2.6: exact sums, absorption, cancellation and the sign of a zero. -/
theorem test_accStep :
    accStep 0x437F0000 (.fin false 1 0) = 0x43800000 ∧ accStep 0x4B800000 (.fin false 1 0) = 0x4B800000 ∧
    accStep 0x3F800000 (.fin true 10808639266750464 (-55)) = 0x3F333333 ∧ accStep 0x7F7FFFFF (.fin false 1 103) = 0x7F800000 ∧
    accStep 0x7F800000 (.inf true) = 0x7FC00000 ∧ accStep 0x80000000 (.zero false) = 0x00000000 ∧
    accStep 0x80000000 (.zero true) = 0x80000000 := by decide +kernel

/-- Section 2.7: the order matters. -/
theorem test_reduceK :
    reduceK [.fin false 1 24, .fin false 1 0, .fin false 1 0] = 0x4B800000 ∧
    reduceK [.fin false 1 0, .fin false 1 0, .fin false 1 24] = 0x4B800001 ∧
    reduceK [.fin false 1 127, .fin false 1 127, .fin true 1 127] = 0x7F800000 ∧ reduceK [.zero true] = 0x00000000 := by decide +kernel

/-- Section 2.8. -/
theorem test_cvtBF16 :
    cvtBF16 0x43808000 = 0x4380 ∧ cvtBF16 0x43818000 = 0x4382 ∧ cvtBF16 0xC3818000 = 0xC382 ∧ cvtBF16 0x7F7F8000 = 0x7F80 ∧
    cvtBF16 0x7F800001 = 0x7FC0 ∧ cvtBF16 0x00008000 = 0x0000 ∧ cvtBF16 0x00008001 = 0x0001 := by decide

/-- Section 2.9, the command of P1. -/
theorem test_addresses :
    let x : Args := ⟨⟨0x10000, 256, 128, 0x8000⟩, ⟨0x20000, 256, 256, 0x10000⟩, ⟨0x40000, 2, 128, 0x400⟩, ⟨0x41000, 2, 2, 0x10⟩,
      ⟨0x50000, 128, 256, 0x10000⟩⟩
    addrA x (dimsOf x) 5 7 = 0x10287 ∧ addrB x (dimsOf x) 255 255 = 0x2FFFF ∧ addrAScale x (dimsOf x) 1 127 = 0x403FC ∧
    addrBScale x (dimsOf x) 1 1 = 0x4100C ∧ addrC x (dimsOf x) 7 0 = 0x50E00 := by decide

/-! ## Witnesses: encoding -/

theorem witness_DecodeInvertsEncode : (Instr.gemm p3).wf = true := by decide
theorem witness_EncodeInvertsDecode : decodeBytes p3Bytes = .ok (.gemm p3) := test_decode_p3
theorem witness_OpcodeMapOnBytes :
    p3Bytes.length = 128 ∧ (p3Bytes.getD 0 0 = 0x01#8 ∧ ∀ j, 1 ≤ j → j ≤ 7 → p3Bytes.getD j 0 = 0#8) ∧
    (List.replicate 128 (0#8)).length = 128 ∧ (List.replicate 128 (0#8)).getD 0 0 ≠ 0x01#8 ∧
    ([0x01, 0, 0, 0, 0, 0, 0, 0x80] ++ List.replicate 120 0 : List Byte).getD 7 0 ≠ 0#8 := by
  refine ⟨rfl, ⟨rfl, ?_⟩, by simp, by decide, by decide⟩
  intro j h1 h2
  have : j = 1 ∨ j = 2 ∨ j = 3 ∨ j = 4 ∨ j = 5 ∨ j = 6 ∨ j = 7 := by omega
  rcases this with rfl | rfl | rfl | rfl | rfl | rfl | rfl <;> rfl
theorem witness_MnkExpansionIsConsistent :
    gemmMNK ⟨2, 128, 256⟩ 0x1000 0x2000 0xA000 0xA100 0xB000 = some (.gemm p3) ∧ gemmMNK ⟨2, 129, 256⟩ 1 2 3 4 5 = none ∧
    gemmMNK ⟨2, 128, 0⟩ 1 2 3 4 5 ≠ none := by decide

/-! ## Witnesses: one step -/

theorem p3_valid : firstError Config.reset (encode (.gemm p3)) = none := by decide +kernel
theorem p3_admitted : launchAdmitted Config.reset p3 (dimsOf p3) = true := by decide
theorem p3NullC_invalid : firstError Config.reset (encode (.gemm p3NullC)) = some .buffer := by decide +kernel
theorem p3_encode_args : (encode (.gemm p3)).args = p3 := encode_args (by decide)
theorem mem0_wf : mem0.wf = true := by decide
theorem mem1_wf : mem1.wf = true := by decide

theorem witness_StepRunsTheDecodedCommand :
    idle0.phase = .idle ∧ decodeDesc (encode (.gemm p3)) = .ok (.gemm p3) := ⟨rfl, by decide +kernel⟩
theorem witness_IllegalDescriptorCompletesWithCodeOne :
    idle0.phase = .idle ∧ zeroDesc.opcode ≠ 0x01#8 ∧ ({ encode (.gemm p3) with rsvd := 0x80000000000000#56 }).rsvd ≠ 0#56 := by decide
theorem witness_IssueLatchesOrHolds :
    idle0.phase = .idle ∧ (computing [started] [.issue zeroDesc]).phase ≠ .idle ∧ (idle0.issue zeroDesc).phase ≠ .idle := by
  refine ⟨rfl, ?_, ?_⟩ <;> simp [computing]
theorem witness_ResetReturnsTheEngineToIdle : (computing [started] [.reset]).agenda = [.reset] := rfl
theorem witness_StatusWritesAreIgnored :
    ({ idle0 with agenda := [.hostWriteStatus 0xFFFFFFFF] }).agenda = [.hostWriteStatus 0xFFFFFFFF] := rfl

/-- A whole command from the agenda of an idle engine; also a next state of `exec` that completes with OK. -/
theorem p3_completes : ∃ t, exec (.gemm p3) idle0 = .next t ∧ t.code = 0 := by
  obtain ⟨e, h, -⟩ | ⟨-, -, h⟩ | ⟨-, h, -⟩ := runCommand_cases (encode (.gemm p3)) idle0
  · rw [show idle0.cfg = Config.reset from rfl, p3_valid] at h; cases h
  · exact ⟨_, h, rfl⟩
  · rw [p3_encode_args, show idle0.cfg = Config.reset from rfl, p3_admitted] at h; cases h

theorem p3NullC_completes : ∃ t, exec (.gemm p3NullC) idle0 = .next t ∧ t.code = 5 := by
  obtain ⟨e, h, h'⟩ | ⟨h, -, -⟩ | ⟨h, -, -⟩ := runCommand_cases (encode (.gemm p3NullC)) idle0
  · rw [show idle0.cfg = Config.reset from rfl, p3NullC_invalid] at h; cases h
    exact ⟨_, h', rfl⟩
  · rw [show idle0.cfg = Config.reset from rfl, p3NullC_invalid] at h; cases h
  · rw [show idle0.cfg = Config.reset from rfl, p3NullC_invalid] at h; cases h

theorem witness_NoStepChangesTheConfiguration : ∃ t, step { idle0 with agenda := [.issue zeroDesc] } = .next t := ⟨_, rfl⟩

/-- The last byte before A and the first after it may be written while P3 runs; the first and the last byte of A and of C may not. -/
theorem witness_HostWritesRespectTheCommandInFlight :
    let s := computing [started] [.hostWrite 0x0FFF 1]
    s.mem.wf = true ∧ s.phase ≠ .idle ∧ firstError s.cfg s.cmd = none ∧
    (∀ a ∈ [0x0FFF, 0xB200], plainByte s.cfg a = true ∧ ∀ y ∈ allBufs, inBuf s.cmd.args (dimsOf s.cmd.args) y a = false) ∧
    (∀ a ∈ [0x1000, 0x11FF], inBuf s.cmd.args (dimsOf s.cmd.args) .a a = true) ∧
    ∀ a ∈ [0xB000, 0xB1FF], inBuf s.cmd.args (dimsOf s.cmd.args) .c a = true := by
  refine ⟨mem0_wf, by simp [computing], p3_valid, ?_⟩
  rw [show (computing [started] [.hostWrite 0x0FFF 1]).cmd = encode (.gemm p3) from rfl, p3_encode_args]
  decide

/-! ## Witnesses: the command -/

theorem witness_GemmCompletesWithEveryElement :
    idle0.phase = .idle ∧ idle0.mem.wf = true ∧ p3.wf = true ∧ firstError idle0.cfg (encode (.gemm p3)) = none ∧
    launchAdmitted idle0.cfg p3 (dimsOf p3) = true := ⟨rfl, mem0_wf, by decide, p3_valid, p3_admitted⟩
theorem witness_ValidationPassesExactlyWhen :
    p3.wf = true ∧ firstError Config.reset (encode (.gemm p3)) = none ∧ p3NullC.wf = true ∧
    firstError Config.reset (encode (.gemm p3NullC)) ≠ none :=
  ⟨by decide, p3_valid, by decide, by rw [p3NullC_invalid]; simp⟩
theorem witness_GemmErrorChangesOnlyTheInterface :
    idle0.phase = .idle ∧ firstError idle0.cfg (encode (.gemm p3NullC)) = some .buffer := ⟨rfl, p3NullC_invalid⟩

/-- R190's own examples (K = 200 with a null A; B.dim0 = 128; C.base = 0), an unsupported consistent shape, a set reserved bit, and a command that passes.
Each clause of the statement has a descriptor that fails its check first. -/
theorem witness_FirstFailingCheckIsReported :
    idle0.phase = .idle ∧
    ({ encode (.gemm p3) with rsvd := 1#56 } : Desc).rsvd ≠ 0#56 ∧
    (let x : Args := { p3 with a := ⟨0, 200, 2, 0x200⟩ }; ¬ (x.a.dim0 % 128 = 0 ∧ x.b.dim1 % 128 = 0)) ∧
    (let x : Args := { p3 with b := { p3.b with dim0 := 128 } }; blockAligned (dimsOf x) = true ∧ x.b.dim0 ≠ x.a.dim0) ∧
    (let x : Args := { p3 with a := { p3.a with dim1 := 3 }, aScale := { p3.aScale with dim1 := 3 }, c := { p3.c with dim0 := 3 } };
      blockAligned (dimsOf x) = true ∧ shapeConsistent x (dimsOf x) = true ∧ dimsOf x ∉ idle0.cfg.supported) ∧
    (blockAligned (dimsOf p3NullC) = true ∧ shapeConsistent p3NullC (dimsOf p3NullC) = true ∧
      dimsOf p3NullC ∈ idle0.cfg.supported ∧ p3NullC.c.base = 0) ∧
    firstError idle0.cfg (encode (.gemm p3)) = none :=
  ⟨rfl, by decide, by decide, by decide, by decide, by decide, p3_valid⟩

theorem witness_GemmFrame : ∃ t, idle0.mem.wf = true ∧ p3.wf = true ∧ exec (.gemm p3) idle0 = .next t :=
  p3_completes.elim fun t h => ⟨t, mem0_wf, by decide, h.1⟩
theorem witness_GemmFrame_error :
    ∃ t, idle0.mem.wf = true ∧ p3NullC.wf = true ∧ exec (.gemm p3NullC) idle0 = .next t ∧ t.code ≠ 0 :=
  p3NullC_completes.elim fun t h => ⟨t, mem0_wf, by decide, h.1, by rw [h.2]; decide⟩
theorem witness_GemmWritesAllOrNothing :
    ∃ t, idle0.phase = .idle ∧ idle0.mem.wf = true ∧ p3.wf = true ∧ exec (.gemm p3) idle0 = .next t ∧ t.code = 0 :=
  p3_completes.elim fun t h => ⟨t, rfl, mem0_wf, by decide, h⟩
theorem witness_GemmLeavesTheInputsAlone :
    ∃ t, idle0.mem.wf = true ∧ p3.wf = true ∧ exec (.gemm p3) idle0 = .next t ∧ inBuf p3 (dimsOf p3) .a 0x1000 = true :=
  p3_completes.elim fun t h => ⟨t, mem0_wf, by decide, h.1, by decide⟩

/-- Two memories that differ in what C holds before the command. -/
theorem witness_OutcomeDependsOnInputsAlone :
    ∃ t, idle0.phase = .idle ∧ idle0.mem.wf = true ∧ (idle0.mem.setByte 0xB000 0xEE).wf = true ∧ p3.wf = true ∧
      (∀ y, y ≠ .c → ∀ a, inBuf p3 (dimsOf p3) y a = true → idle0.mem.byte a = (idle0.mem.setByte 0xB000 0xEE).byte a) ∧
      idle0.mem ≠ idle0.mem.setByte 0xB000 0xEE ∧ exec (.gemm p3) idle0 = .next t ∧ t.code = 0 := by
  obtain ⟨t, h, hc⟩ := p3_completes
  refine ⟨t, rfl, mem0_wf, by decide, by decide, fun y hy a ha => ?_, by decide, h, hc⟩
  have := (soundRanges_of_firstError p3_valid).disj y hy a (by rw [p3_encode_args]; exact ha)
  rw [p3_encode_args, inBuf_false_iff] at this
  show mem0.byte a = (mem0.setByte _ _).byte a
  rw [Memory.byte_setByte mem0_wf, if_neg]
  rintro rfl
  exact this (by decide)

theorem witness_RepeatedGemmIsBitIdentical :
    ∃ t, idle0.phase = .idle ∧ idle0.mem.wf = true ∧ p3.wf = true ∧ exec (.gemm p3) idle0 = .next t :=
  p3_completes.elim fun t h => ⟨t, rfl, mem0_wf, by decide, h.1⟩

/-- A hole on the last byte of C: the launch is refused (R68). -/
theorem witness_GemmStopsForNoData :
    p3.wf = true ∧ exec (.gemm p3) { idle0 with cfg := { Config.reset with holes := [⟨0xB1FF, 1⟩] } } = .refused .notPlainMemory := by
  refine ⟨by decide, ?_⟩
  obtain ⟨e, h, -⟩ | ⟨-, h, -⟩ | ⟨-, -, h⟩ :=
    runCommand_cases (encode (.gemm p3)) { idle0 with cfg := { Config.reset with holes := [⟨0xB1FF, 1⟩] } }
  · rw [show firstError _ (encode (.gemm p3)) = none from by decide +kernel] at h; cases h
  · rw [p3_encode_args] at h
    exact absurd (show launchAdmitted { Config.reset with holes := [⟨0xB1FF, 1⟩] } p3 (dimsOf p3) = true from h) (by decide)
  · exact h

/-! ## Witnesses: step by step -/

theorem idle0_inv (es : List Event) : ({ idle0 with agenda := es } : State).Inv :=
  ⟨(by decide : Config.reset.wf = true), mem0_wf, Nat.zero_le 5, fun h => absurd rfl h, fun _ => rfl, fun _ => rfl, fun h => nomatch h⟩

theorem tiles_p3 : tiles Config.reset ⟨2, 128, 256⟩ = [(0, 0)] := by decide

theorem initAcc_val {cfg : Config} {d : Dims} {w : Worker} {e : AccEntry} (h : e ∈ initAcc cfg d w) :
    e.val = accInit ∧ e.written = false := by
  simp only [initAcc, List.mem_flatMap, List.mem_map] at h
  obtain ⟨_, -, _, -, rfl⟩ := h
  exact ⟨rfl, rfl⟩

/-- P3 in COMPUTE with a sound worker meets the invariant. -/
theorem computing_inv {w : Worker} (es : List Event) (ht : w.ti = 0 ∧ w.tj = 0)
    (hw : WorkerInv Config.reset mem0 p3 ⟨2, 128, 256⟩ w) : (computing [w] es).Inv := by
  have hx : (computing [w] es).cmd.args = p3 := p3_encode_args
  refine ⟨(by decide : Config.reset.wf = true), mem0_wf, Nat.zero_le 5, fun _ => rfl, fun _ => rfl, fun h => absurd rfl h, fun _ => ⟨p3_valid, ?_, ?_, ?_, ?_⟩⟩
  · rw [hx]; exact p3_admitted
  · rfl
  · rw [hx]; simp [computing, ht, dimsOf, p3, idle0, State.reset, tiles_p3]
  · rw [hx]; intro v hv
    simp only [computing, List.mem_singleton] at hv
    subst hv; exact hw

theorem pending_sound : WorkerInv Config.reset mem0 p3 ⟨2, 128, 256⟩ (newWorker (0, 0)) :=
  ⟨by simp [newWorker], by simp [newWorker], by simp [newWorker], by simp [newWorker], by simp [newWorker], by simp [newWorker],
    by simp [newWorker]⟩

theorem started_sound : WorkerInv Config.reset mem0 p3 ⟨2, 128, 256⟩ started :=
  ⟨by simp [started], by simp [started], fun _ => rfl, fun _ e he => (initAcc_val he).1, fun _ h => absurd rfl h,
    fun e he h => absurd ((initAcc_val he).2.symm.trans h) (by decide), by simp [started]⟩

theorem summed_sound : WorkerInv Config.reset mem0 p3 ⟨2, 128, 256⟩ summed := by
  refine ⟨by simp [summed], by simp [summed, started], fun _ => ?_, fun _ e he => ?_, fun _ h => absurd rfl h, fun e he h => ?_,
    by simp [summed, started]⟩
  · simp only [summed, List.map_map]; rfl
  · simp only [summed, List.mem_map] at he
    obtain ⟨f, -, rfl⟩ := he
    simp [entrySummed, rowIndex, colIndex, summed, started, newWorker, Config.reset]
  · simp only [summed, List.mem_map] at he
    obtain ⟨f, hf, rfl⟩ := he
    rw [show f.written = false from (initAcc_val hf).2] at h; cases h

theorem witness_StepKeepsTheInvariant :
    ∃ t, (computing [newWorker (0, 0)] [.worker 0]).Inv ∧ step (computing [newWorker (0, 0)] [.worker 0]) = .next t :=
  ⟨_, computing_inv _ ⟨rfl, rfl⟩ pending_sound, rfl⟩
theorem witness_SoundStatesNeverFault : (computing [started] []).Inv := computing_inv _ ⟨rfl, rfl⟩ started_sound
theorem witness_WorkerStartInitialisesItsTile :
    (computing [newWorker (0, 0)] [.worker 0]).Inv ∧ (computing [newWorker (0, 0)] [.worker 0]).workers[0]? = some (newWorker (0, 0)) ∧
    (newWorker (0, 0)).stage = .pending := ⟨computing_inv _ ⟨rfl, rfl⟩ pending_sound, rfl, rfl⟩
theorem witness_WorkerAccumulatesOneTermEach :
    (computing [started] [.worker 0]).Inv ∧ (computing [started] [.worker 0]).workers[0]? = some started ∧ started.stage = .accum ∧
    started.k < (computing [started] [.worker 0]).shape.dims.k :=
  ⟨computing_inv _ ⟨rfl, rfl⟩ started_sound, rfl, rfl, by decide⟩
theorem witness_WorkerStoresItsTile :
    (computing [summed] [.worker 0]).Inv ∧ (computing [summed] [.worker 0]).workers[0]? = some summed ∧ summed.stage = .accum ∧
    summed.k = (computing [summed] [.worker 0]).shape.dims.k :=
  ⟨computing_inv _ ⟨rfl, rfl⟩ summed_sound, rfl, rfl, by decide⟩

/-- An element that is not yet written, and one whose worker still has terms to take. -/
theorem witness_StoreElementWritesOneElement :
    (∃ e, (computing [summed] [.storeElement 0 0]).Inv ∧ (computing [summed] [.storeElement 0 0]).workers[0]? = some summed ∧
      summed.acc[0]? = some e ∧ summed.stage = .accum ∧ summed.k = (computing [summed] [.storeElement 0 0]).shape.dims.k ∧
      e.written = false) ∧
    (computing [started] [.storeElement 0 0]).Inv ∧ started.k ≠ (computing [started] [.storeElement 0 0]).shape.dims.k :=
  ⟨⟨_, computing_inv _ ⟨rfl, rfl⟩ summed_sound, rfl, rfl, rfl, by decide, rfl⟩, computing_inv _ ⟨rfl, rfl⟩ started_sound, by decide⟩

theorem witness_ValidationStepRejectsOrLaunches :
    (idle0.issue (encode (.gemm p3NullC))).phase = .validate ∧
    firstError (idle0.issue (encode (.gemm p3NullC))).cfg (encode (.gemm p3NullC)) = some .buffer ∧
    firstError (idle0.issue (encode (.gemm p3))).cfg (encode (.gemm p3)) = none ∧
    launchAdmitted Config.reset (encode (.gemm p3)).args (dimsOf (encode (.gemm p3)).args) = true :=
  ⟨rfl, p3NullC_invalid, p3_valid, by rw [p3_encode_args]; exact p3_admitted⟩
theorem witness_CompletionWaitsForEveryWorker :
    (computing [markStored summed] [.sequencer]).phase = .compute ∧ (markStored summed).stage = .stored ∧
    (computing [summed] [.sequencer]).phase = .compute ∧ summed.stage ≠ .stored := by
  refine ⟨rfl, rfl, rfl, ?_⟩; simp [summed, started]

/-- P3's validation step launches it (R110). -/
theorem p3_launch (es : List Event) :
    step { (idle0.issue (encode (.gemm p3))) with agenda := .sequencer :: es } = .next (computing [newWorker (0, 0)] es) := by
  have h := validateStep_cases { (idle0.issue (encode (.gemm p3))) with agenda := es }
  rw [show firstError (idle0.issue (encode (.gemm p3))).cfg (idle0.issue (encode (.gemm p3))).cmd = none from p3_valid,
    show (idle0.issue (encode (.gemm p3))).cmd.args = p3 from p3_encode_args,
    show launchAdmitted (idle0.issue (encode (.gemm p3))).cfg p3 (dimsOf p3) = true from p3_admitted] at h
  simp only [reduceCtorEq, false_and, exists_false, true_and, false_or, Bool.true_eq_false, or_false] at h
  rw [show step { (idle0.issue (encode (.gemm p3))) with agenda := .sequencer :: es } =
    validateStep { (idle0.issue (encode (.gemm p3))) with agenda := es } from rfl, h]
  simp only [State.startCompute, computing]
  rw [show tiles (idle0.issue (encode (.gemm p3))).cfg (dimsOf (idle0.issue (encode (.gemm p3))).cmd.args) = [(0, 0)] from
    by rw [State.issue_cmd, p3_encode_args]; exact tiles_p3]
  rfl

/-- A worker of P3 that can take every accumulate step it still owes. -/
def Ready (w : Worker) : Prop :=
  w.stage = .accum ∧ (w.ti = 0 ∧ w.tj = 0) ∧ (∀ e ∈ w.acc, e.i < 2 ∧ e.j < 128) ∧
  (w.k % 128 ≠ 0 → w.sA.length = 2 ∧ w.sB.length = 128)

theorem started_ready : Ready started := by
  refine ⟨rfl, ⟨rfl, rfl⟩, ?_, fun h => absurd rfl h⟩
  intro e he
  have := AccEntry.inside_tile (cfg := Config.reset) (d := ⟨2, 128, 256⟩) (w := started) rfl he
  rwa [show rowsOf Config.reset ⟨2, 128, 256⟩ started = 2 from by decide,
    show colsOf Config.reset ⟨2, 128, 256⟩ started = 128 from by decide] at this

theorem ready_step {w : Worker} (h : Ready w) :
    ∃ w', accumulateStep Config.reset mem0 p3 ⟨2, 128, 256⟩ w = some w' ∧ Ready w' ∧ w'.k = w.k + 1 := by
  obtain ⟨hs, ⟨hti, htj⟩, hacc, hl⟩ := h
  have hv : ∃ v : Worker, v = (if w.k % BLOCK = 0 then loadLatches Config.reset mem0 p3 ⟨2, 128, 256⟩ w else w) ∧
      v.stage = .accum ∧ v.ti = 0 ∧ v.tj = 0 ∧ v.acc = w.acc ∧ v.k = w.k ∧ v.sA.length = 2 ∧ v.sB.length = 128 := by
    refine ⟨_, rfl, ?_⟩
    split
    · refine ⟨hs, hti, htj, rfl, rfl, ?_, ?_⟩ <;> simp [loadLatches, rowsOf, colsOf, hti, htj, Config.reset]
    · exact ⟨hs, hti, htj, rfl, rfl, hl ‹_›⟩
  obtain ⟨v, hv, vs, vti, vtj, vacc, vk, vA, vB⟩ := hv
  obtain ⟨es, hes⟩ := accumulateEntries_isSome (cfg := Config.reset) (mem := mem0) (x := p3) (d := ⟨2, 128, 256⟩) (w := v) (es := v.acc)
    (fun e he => by
      rw [vacc] at he
      obtain ⟨hi, hj⟩ := hacc e he
      unfold accumulateEntry
      split
      · rw [List.getElem?_eq_getElem (by omega), List.getElem?_eq_getElem (by omega)]; exact ⟨_, rfl⟩
      · exact ⟨_, rfl⟩)
  have hstep : accumulateStep Config.reset mem0 p3 ⟨2, 128, 256⟩ w = some { v with acc := es, k := v.k + 1 } := by
    simp only [accumulateStep, ← hv, hes]
  refine ⟨_, hstep, ⟨vs, ⟨vti, vtj⟩, fun e' he' => ?_, fun _ => ⟨vA, vB⟩⟩, by simp [vk]⟩
  have key : ∀ es : List AccEntry, List.Forall₂ (fun e e' => accumulateEntry Config.reset mem0 p3 ⟨2, 128, 256⟩ v e = some e') v.acc es →
      ∀ e' ∈ es, e'.i < 2 ∧ e'.j < 128 := by
    intro es hf
    rw [← vacc] at hacc
    generalize v.acc = l at hf hacc
    induction hf with
    | nil => simp
    | cons h _ ih =>
      intro e' he'
      rcases List.mem_cons.mp he' with rfl | he'
      · have := hacc _ List.mem_cons_self
        rcases accumulateEntry_cases h with ⟨-, rfl⟩ | ⟨-, _, _, -, -, rfl⟩ <;> exact this
      · exact ih (fun e he => hacc e (List.mem_cons_of_mem _ he)) e' he'
  exact key es (accumulateEntries_some.mp hes) e' he'

theorem rangesInSpace_p3 : rangesInSpace p3 ⟨2, 128, 256⟩ = true := by decide

theorem computing_dims (ws : List Worker) (es : List Event) : (computing ws es).shape.dims = ⟨2, 128, 256⟩ := by
  show (dimsOf (encode (.gemm p3)).args).latch.dims = _
  rw [p3_encode_args]; decide

theorem computing_args (ws : List Worker) (es : List Event) : (computing ws es).cmd.args = p3 := p3_encode_args

theorem step_worker (w : Worker) (es : List Event) : step (computing [w] (.worker 0 :: es)) = workerStep 0 (computing [w] es) := by
  simp only [step, show (computing [w] (.worker 0 :: es)).agenda = .worker 0 :: es from rfl, needsPort, Bool.false_and, takeEvent,
    Bool.false_eq_true, if_false]
  congr 1

theorem ready_machine_step {w : Worker} (h : Ready w) (hk : w.k < 256) (rest : List Event) :
    ∃ w', step (computing [w] (.worker 0 :: rest)) = .next (computing [w'] rest) ∧ Ready w' ∧ w'.k = w.k + 1 := by
  obtain ⟨w', ha, hr, hk'⟩ := ready_step h
  refine ⟨w', ?_, hr, hk'⟩
  simp only [step_worker, workerStep]
  rw [show (computing [w] rest).workers[0]? = some w from rfl, computing_args,
    computing_dims, show (computing [w] rest).cfg = Config.reset from rfl,
    show (computing [w] rest).mem = mem0 from rfl, rangesInSpace_p3]
  simp only [h.1, hk, ha, Bool.true_eq_false, if_false, if_true]
  rfl

theorem run_succ {n : Nat} {s t : State} (h : step s = .next t) :
    Host.Core.run Sys2Proof.core (n + 1) s = Host.Core.run Sys2Proof.core n t := by
  simp only [Host.Core.run]
  rw [show Sys2Proof.core.step s = .next t from h]

/-- All the accumulate steps of P3's worker, then `m` steps more. -/
theorem ready_run (m : Nat) (rest : List Event) (n : Nat) (w : Worker) (h : Ready w) (hk : w.k + n = 256) :
    ∃ w', Ready w' ∧ w'.k = 256 ∧
      Host.Core.run Sys2Proof.core (n + m) (computing [w] (List.replicate n (.worker 0) ++ rest)) =
        Host.Core.run Sys2Proof.core m (computing [w'] rest) := by
  induction n generalizing w with
  | zero => exact ⟨w, h, by omega, by simp⟩
  | succ n ih =>
    obtain ⟨w₁, h₁, r₁, k₁⟩ := ready_machine_step h (by omega) (List.replicate n (.worker 0) ++ rest)
    obtain ⟨w', r', k', h'⟩ := ih w₁ r₁ (by omega)
    refine ⟨w', r', k', ?_⟩
    rw [Nat.add_right_comm, List.replicate_succ, List.cons_append, run_succ h₁, h']

/-- P3 issued and run to its completion by one worker, choice by choice. -/
theorem witness_EveryScheduleReachesTheAtomicResult :
    ∃ u, idle0.Inv ∧ idle0.phase = .idle ∧ p3.wf = true ∧
      (∀ e ∈ Event.sequencer :: .worker 0 :: (List.replicate 256 (.worker 0) ++ [.worker 0, .sequencer]), engineEvent e = true) ∧
      Host.Core.run Sys2Proof.core (256 + 2 + 1 + 1 + 1)
        { idle0 with agenda := .issue (encode (.gemm p3)) :: .sequencer :: .worker 0 :: (List.replicate 256 (.worker 0) ++ [.worker 0, .sequencer]) } =
          .next u ∧ u.phase = .idle := by
  obtain ⟨w, hr, hk, hrun⟩ := ready_run 2 [.worker 0, .sequencer] 256 started started_ready rfl
  have hstore : step (computing [w] [.worker 0, .sequencer]) =
      .next (State.withMem (storeMemory Config.reset mem0 p3 ⟨2, 128, 256⟩ w) (computing [markStored w] [.sequencer])) := by
    simp only [step_worker, workerStep]
    rw [show (computing [w] [.sequencer]).workers[0]? = some w from rfl, computing_args,
      computing_dims, show (computing [w] [.sequencer]).cfg = Config.reset from rfl,
      show (computing [w] [.sequencer]).mem = mem0 from rfl, rangesInSpace_p3]
    simp only [hr.1, hk, Nat.lt_irrefl, Bool.true_eq_false, if_false, if_true]
    rfl
  refine ⟨(State.withMem (storeMemory Config.reset mem0 p3 ⟨2, 128, 256⟩ w) (computing [markStored w] [])).complete,
    idle0_inv [], rfl, by decide, by decide +kernel, ?_, rfl⟩
  rw [run_succ (t := { (idle0.issue (encode (.gemm p3))) with
    agenda := .sequencer :: .worker 0 :: (List.replicate 256 (.worker 0) ++ [.worker 0, .sequencer]) }) rfl,
    run_succ (p3_launch _), run_succ (t := computing [started] (List.replicate 256 (.worker 0) ++ [.worker 0, .sequencer])) rfl,
    hrun, run_succ hstore]
  rfl

theorem witness_IssuedCommandCompletesInBoundedSteps :
    idle0.Inv ∧ idle0.phase = .idle ∧ idle0.agenda = [] ∧ p3.wf = true ∧ firstError idle0.cfg (encode (.gemm p3)) = none ∧
    launchAdmitted idle0.cfg p3 (dimsOf p3) = true ∧ p3NullC.wf = true ∧
    firstError idle0.cfg (encode (.gemm p3NullC)) = some .buffer :=
  ⟨idle0_inv [], rfl, rfl, by decide, p3_valid, p3_admitted, by decide, p3NullC_invalid⟩

/-- P3 issued, validated, its worker started, then a reset in COMPUTE. -/
theorem witness_EveryElementIsOldOrFinal :
    ∃ u, idle0.Inv ∧ idle0.phase = .idle ∧ p3.wf = true ∧ (∀ e ∈ [Event.sequencer, .worker 0, .reset], engineOrReset e = true) ∧
      Host.Core.run Sys2Proof.core (3 + 1) { idle0 with agenda := [.issue (encode (.gemm p3)), .sequencer, .worker 0, .reset] } = .next u := by
  refine ⟨(computing [started] []).resetEvent, idle0_inv [], rfl, by decide, by decide, ?_⟩
  rw [run_succ (t := { (idle0.issue (encode (.gemm p3))) with agenda := [.sequencer, .worker 0, .reset] }) rfl, run_succ (p3_launch _)]
  rfl

theorem witness_TilesPartitionTheOutput : Config.reset.wf = true := by decide

/-! ## Witnesses: memory and addresses -/

/-- The last two bytes of the address space. -/
theorem witness_MemoryReadsWhatWasWritten : mem0.wf = true ∧ (2 ^ 64 - 2) + 2 ≤ 2 ^ 64 := by decide
theorem witness_AccessesStayInsideTheirBuffers :
    p3.wf = true ∧ firstError Config.reset (encode (.gemm p3)) = none ∧ 255 < (dimsOf p3).k ∧ 1 < (dimsOf p3).m ∧ 127 < (dimsOf p3).n :=
  ⟨by decide, p3_valid, by decide, by decide, by decide⟩
theorem witness_OutputElementsShareNoByte : 127 < (dimsOf p3).n ∧ 0 < (dimsOf p3).n ∧ ((0, 127) : Nat × Nat) ≠ (1, 0) := by decide

/-! ## Witnesses: the datapath -/

/-- The boundary bytes of every clause: a subnormal, a normal, the zeros and the NaNs of both variants. -/
theorem witness_Fp8ByteDenotes :
    (0x87#8).extractLsb' 3 4 = 0#4 ∧ (0x87#8).extractLsb' 0 3 = 7#3 ∧ (0x87#8).getLsbD 7 = true ∧ (0x08#8).extractLsb' 3 4 = 1#4 ∧
    0x81#8 ≠ 0x80#8 ∧ 0x7E#8 ≠ 0x7F#8 ∧ 0x7E#8 ≠ 0xFF#8 := by decide
theorem witness_ProductsAreExact :
    (f32dec 0x7F7FFFFF).isFinite = true ∧ (fp8dec .e4m3fnuz 0x00).isFinite = true ∧ f32dec 0x7F800000 = .inf false ∧
    fp8dec .e4m3fn 0x80 = .zero true ∧ fp8dec .e4m3fn 0x7F = .nan ∧ fp8dec .e4m3fnuz 0xC4 = .fin true 12 (-3) := by decide

/-- 1, and the overflow midpoint 2^128 - 2^103, a tie. -/
theorem witness_RoundGivesTheNearestEvenMultiple :
    (let r : Exact := ⟨1, 0⟩
     (2 : ℚ) ^ (0 : Int) ≤ |r.toRat| ∧ |r.toRat| < 2 ^ ((0 : Int) + 1) ∧ (-23 : Int) = max 0 (-126) - 23 ∧
      |((2 ^ 23 : Nat) : ℚ) - |r.toRat| / 2 ^ (-23 : Int)| < 1 / 2 ∧ ((2 ^ 23 : Nat) : ℚ) * 2 ^ (-23 : Int) < 2 ^ (128 : Int)) ∧
    (let r : Exact := ⟨2 ^ 25 - 1, 103⟩
     (2 : ℚ) ^ (127 : Int) ≤ |r.toRat| ∧ |r.toRat| < 2 ^ ((127 : Int) + 1) ∧ (104 : Int) = max 127 (-126) - 23 ∧
      |((2 ^ 24 : Nat) : ℚ) - |r.toRat| / 2 ^ (104 : Int)| = 1 / 2 ∧ (2 : ℚ) ^ (128 : Int) ≤ ((2 ^ 24 : Nat) : ℚ) * 2 ^ (104 : Int)) := by
  refine ⟨⟨?_, ?_, ?_, ?_, ?_⟩, ?_, ?_, ?_, ?_, ?_⟩ <;> norm_num [Exact.toRat, abs_of_pos]
theorem witness_RoundOverflowsExactlyAtTheMidpoint : (⟨2 ^ 25 - 1, 103⟩ : Exact).num ≠ 0 := by decide
theorem witness_RoundedResultIsNearest :
    (⟨2 ^ 24 + 1, 0⟩ : Exact).num ≠ 0 ∧ (f32dec (roundF32 ⟨2 ^ 24 + 1, 0⟩)).isFinite = true ∧ (f32dec 0x4B800001).isFinite = true := by
  decide +kernel
theorem witness_RoundKeepsBinary32Values :
    (f32dec 0x40000000).isFinite = true ∧ (⟨2, 0⟩ : Exact).num ≠ 0 ∧ (⟨2, 0⟩ : Exact).toRat = (f32dec 0x40000000).val := by
  refine ⟨by decide, by decide, ?_⟩
  rw [show f32dec 0x40000000 = .fin false 8388608 (-22) from by decide]
  norm_num [Exact.toRat, ClassVal.val, ClassVal.exact]
theorem witness_RoundingRelativeError :
    (2 : ℚ) ^ (-126 : Int) ≤ |(⟨2 ^ 24 + 1, 0⟩ : Exact).toRat| ∧ |(⟨2 ^ 24 + 1, 0⟩ : Exact).toRat| < 2 ^ (128 : Int) - 2 ^ (103 : Int) := by
  constructor <;> norm_num [Exact.toRat]
theorem witness_AccStepRoundsTheExactSum :
    (f32dec 0x3F800000).isFinite = true ∧ (ClassVal.fin false 1 0).isFinite = true ∧
    (⟨2, 0⟩ : Exact).toRat = (f32dec 0x3F800000).val + (ClassVal.fin false 1 0).val ∧
    (f32dec 0x3F800000).val + (ClassVal.fin true 1 0).val = 0 := by
  rw [show f32dec 0x3F800000 = .fin false 8388608 (-23) from by decide]
  refine ⟨rfl, rfl, ?_, ?_⟩ <;> norm_num [Exact.toRat, ClassVal.val, ClassVal.exact]
theorem witness_AccStepRoundsTheExactSum_special :
    f32dec 0x7FC00000 = .nan ∧ f32dec 0xFF800000 = .inf true ∧ (f32dec 0x3F800000).isFinite = true := by decide
/-- T7 of 95_test_vectors.md: a zero of A met with an infinite scale of B; and a zero scale of A met with it. -/
theorem test_term_zero_by_infinity :
    term (dq .e4m3fnuz 0x00 0x3F800000) (dq .e4m3fnuz 0x40 0x7F800000) = .nan ∧
    term (dq .e4m3fnuz 0x40 0x00000000) (dq .e4m3fnuz 0x40 0x7F800000) = .nan := by decide
theorem witness_ZeroFactorsContributeNothing :
    (fp8dec .e4m3fnuz 0x00).isZero = true ∧ (f32dec 0x7F7FFFFF).isFinite = true ∧ (fp8dec .e4m3fnuz 0x7F).isFinite = true ∧
    f32dec 0x7F800000 = .inf false ∧ f32dec 0x3F800000 ≠ .nan ∧ (f32dec 0x3F800000).isZero = false ∧ (f32dec 0x80000000).isZero = true := by
  decide
theorem witness_NaNIsStickyCanonicalAndNeverMade :
    ClassVal.nan ∈ [ClassVal.fin false 1 0, .nan] ∧ f32dec (reduceK [.fin false 1 0, .nan]) = .nan := by decide +kernel
theorem witness_NegatedTermsFlipTheSign : ∀ t ∈ [ClassVal.fin false 1 0, .nan, .zero true, .inf false], t.wf = true := by decide
theorem witness_SmallMultiplesSumExactly :
    (-149 : Int) ≤ 0 ∧ (0 : Int) + 24 ≤ 128 ∧ (∀ t ∈ [ClassVal.fin false 1 0], t.isFinite = true) ∧
    (∀ t ∈ [ClassVal.fin false 1 0], ∃ z : Int, t.val = z * 2 ^ (0 : Int)) ∧
    ∀ j, j ≤ 1 → |(([ClassVal.fin false 1 0].take j).map ClassVal.val).sum| ≤ 2 ^ ((0 : Int) + 24) ∧
      |(([ClassVal.fin false 1 0].take j).map ClassVal.val).sum| < 2 ^ (128 : Int) := by
  refine ⟨by decide, by decide, by decide, ?_, fun j hj => ?_⟩
  · intro t ht
    rw [List.mem_singleton] at ht; subst ht
    exact ⟨1, by norm_num [ClassVal.val, ClassVal.exact, Exact.toRat]⟩
  · obtain rfl | rfl : j = 0 ∨ j = 1 := by omega
    · norm_num
    · norm_num [ClassVal.val, ClassVal.exact, Exact.toRat]
theorem witness_ReductionErrorBound :
    (([ClassVal.fin false 1 0].length : Nat) : ℚ) * 2 ^ (-24 : Int) < 1 ∧ (∀ t ∈ [ClassVal.fin false 1 0], t.isFinite = true) ∧
    ∀ r : ℚ, r = (f32dec (reduceK [])).val + (ClassVal.fin false 1 0).val →
      r = 0 ∨ (2 ^ (-126 : Int) ≤ |r| ∧ |r| < 2 ^ (128 : Int) - 2 ^ (103 : Int)) := by
  refine ⟨by norm_num, by decide, ?_⟩
  rintro r rfl
  right
  rw [show f32dec (reduceK []) = .zero false from by decide]
  constructor <;> norm_num [ClassVal.val, ClassVal.exact, Exact.toRat]

/-- A[0, 0] = 1.0 with scale 1.0 against 2.0 with scale 0.5. -/
theorem witness_ElementDependsOnDequantizedValues :
    (∀ k, k < 256 → (dequantA .e4m3fnuz mem0 p3 ⟨2, 128, 256⟩ k 0).same (dequantA .e4m3fnuz mem1 p3 ⟨2, 128, 256⟩ k 0) = true) ∧
    (∀ k, k < 256 → (dequantB .e4m3fnuz mem0 p3 ⟨2, 128, 256⟩ k 0).same (dequantB .e4m3fnuz mem1 p3 ⟨2, 128, 256⟩ k 0) = true) ∧
    mem0 ≠ mem1 := by decide +kernel
/-- A zero product of sign 1, and a second one of the same sign from other signs (E4M3FN has both zeros). -/
theorem witness_DequantizedValueIsTheRealProduct_zero :
    (fp8dec .e4m3fn 0x80).val * (f32dec 0x3F800000).val = 0 ∧ (fp8dec .e4m3fn 0x00).val * (f32dec 0xBF800000).val = 0 ∧
    ((0x80#8).getLsbD 7 ^^ (0x3F800000#32).getLsbD 31) = ((0x00#8).getLsbD 7 ^^ (0xBF800000#32).getLsbD 31) := by
  rw [show fp8dec .e4m3fn 0x80 = .zero true from by decide, show fp8dec .e4m3fn 0x00 = .zero false from by decide]
  refine ⟨?_, ?_, by decide⟩ <;> norm_num [ClassVal.val, ClassVal.exact, Exact.toRat]
theorem witness_DequantizedValueIsTheRealProduct :
    (fp8dec .e4m3fnuz 0x40).isFinite = true ∧ (fp8dec .e4m3fnuz 0x48).isFinite = true ∧ (f32dec 0x3F800000).isFinite = true ∧
    (f32dec 0x3F000000).isFinite = true ∧ (fp8dec .e4m3fnuz 0x40).val * (f32dec 0x3F800000).val ≠ 0 ∧
    (fp8dec .e4m3fnuz 0x00).val * (f32dec 0x3F800000).val = 0 := by
  rw [show fp8dec .e4m3fnuz 0x40 = .fin false 8 (-3) from by decide, show f32dec 0x3F800000 = .fin false 8388608 (-23) from by decide,
    show fp8dec .e4m3fnuz 0x00 = .zero false from by decide]
  refine ⟨rfl, by decide, rfl, by decide, ?_, ?_⟩ <;> norm_num [ClassVal.val, ClassVal.exact, Exact.toRat]

/-- One column of A and one of B that share 256 bytes of 1.0, scales 1.0 for both. -/
def memOnes : Memory :=
  (List.range 256).map (fun k => (0x1000 + k, 0x40#8)) ++ [(0x2002, 0x80), (0x2003, 0x3F), (0x2006, 0x80), (0x2007, 0x3F)]

def onesArgs : Args := ⟨⟨0x1000, 256, 1, 256⟩, ⟨0x1000, 256, 1, 256⟩, ⟨0x2000, 2, 1, 8⟩, ⟨0x2000, 2, 0, 0⟩, ⟨0x3000, 1, 1, 2⟩⟩

theorem witness_UnitScenarioGivesK :
    ∀ k, k < 256 → (termAt .e4m3fnuz memOnes onesArgs ⟨1, 1, 256⟩ 0 0 k).same (.fin false 1 0) = true := by
  have hb : ∀ k, k < 256 → memOnes.byte (0x1000 + k) = 0x40#8 := by decide +kernel
  have hw : ∀ q, q < 2 → memOnes.word (0x2000 + 4 * q) = 0x3F800000#32 := by decide +kernel
  intro k hk
  simp only [termAt, dequantA, dequantB, addrA, addrB, addrAScale, addrBScale, onesArgs, BLOCK, Nat.mul_one, Nat.add_zero,
    Nat.reduceDiv, Nat.mul_zero, hb k hk, hw (k / 128) (by omega), hw 0 (by omega)]
  decide +kernel
theorem witness_ConverterSignGridAndNaN :
    f32dec 0x80000000 ≠ .nan ∧ bf16dec 0x3F80 ≠ .nan ∧ f32dec 0xFFFFFFFF = .nan := by decide
theorem witness_ConverterIsMonotone : (f32dec 0x3F800000).le (f32dec 0x40000000) := by
  rw [show f32dec 0x3F800000 = .fin false 8388608 (-23) from by decide, show f32dec 0x40000000 = .fin false 8388608 (-22) from by decide]
  refine ⟨by simp, by simp, .inr (.inr ⟨rfl, rfl, ?_⟩)⟩
  norm_num [ClassVal.val, ClassVal.exact, Exact.toRat]

end Sys2Proof.Tests
end

section
/-! PROOFS. The configuration is fixed for the life of the engine (R8, R218): each operation of the machine keeps it, so every step does. -/

namespace Sys2Proof.Machine

theorem validateStep_keeps_cfg {s t : State} (h : validateStep s = .next t) : t.cfg = s.cfg := by
  obtain ⟨e, -, h'⟩ | ⟨-, -, h'⟩ | ⟨-, -, h'⟩ := validateStep_cases s <;> rw [h'] at h <;> cases h
  case inl => exact s.raise_cfg e
  case inr.inl => exact s.startCompute_cfg

theorem runCommand_keeps_cfg {c : Desc} {s t : State} (h : runCommand c s = .next t) : t.cfg = s.cfg := by
  obtain ⟨e, -, h'⟩ | ⟨-, -, h'⟩ | ⟨-, -, h'⟩ := runCommand_cases c s <;> rw [h'] at h <;> cases h
  case inl => simp only [State.raise_cfg, State.issue_cfg]
  case inr.inl => simp only [State.computeAll_cfg, State.startCompute_cfg, State.issue_cfg]

theorem issueStep_keeps_cfg {c : Desc} {s t : State} (h : issueStep c s = .next t) : t.cfg = s.cfg := by
  unfold issueStep at h
  split at h <;> cases h
  · exact s.issue_cfg c
  · rfl

theorem workerStep_keeps_cfg {p : Nat} {s t : State} (h : workerStep p s = .next t) : t.cfg = s.cfg := by
  obtain rfl | ⟨w, -, -, ⟨-, rfl⟩ | ⟨-, -, w', -, rfl⟩ | ⟨-, -, rfl⟩⟩ := workerStep_cases h
  case inl => rfl
  all_goals simp only [State.withMem_cfg, State.setWorker_cfg]

theorem storeElementStep_keeps_cfg {p q : Nat} {s t : State} (h : storeElementStep p q s = .next t) : t.cfg = s.cfg := by
  obtain rfl | ⟨w, e, -, -, -, -, -, rfl⟩ := storeElementStep_cases h
  · rfl
  · simp only [State.withMem_cfg, State.setWorker_cfg]

theorem hostWriteStep_keeps_cfg {a : BitVec 64} {v : Byte} {s t : State} (h : hostWriteStep a v s = .next t) :
    t.cfg = s.cfg := by
  obtain ⟨-, -, -, rfl⟩ := hostWriteStep_cases h
  exact State.withMem_cfg _ s

theorem sequencerStep_keeps_cfg {s t : State} (h : sequencerStep s = .next t) : t.cfg = s.cfg := by
  obtain h' | ⟨-, h'⟩ | ⟨-, -, h'⟩ := sequencerStep_cases s <;> rw [h'] at h
  · cases h; rfl
  · exact validateStep_keeps_cfg h
  · cases h; exact s.complete_cfg

theorem engineStep_keeps_cfg {s t : State} (h : engineStep s = .next t) : t.cfg = s.cfg := by
  obtain ⟨-, h'⟩ | ⟨-, h'⟩ | ⟨-, p, h'⟩ | ⟨-, -, h'⟩ := engineStep_cases s <;> rw [h'] at h
  · cases h; rfl
  · exact validateStep_keeps_cfg h
  · exact workerStep_keeps_cfg h
  · cases h; exact s.complete_cfg

/-- A command or an issue is taken only when the port is ready, which is what `hport` says (R101). -/
theorem takeEvent_keeps_cfg {e : Event} {s t : State} (hport : needsPort e = true → s.phase = .idle)
    (h : takeEvent e s = .next t) : t.cfg = s.cfg := by
  cases e with
  | command c => exact runCommand_keeps_cfg ((commandStep_idle (hport rfl)).symm.trans h)
  | issue c => exact issueStep_keeps_cfg h
  | sequencer => exact sequencerStep_keeps_cfg h
  | worker p => exact workerStep_keeps_cfg h
  | storeElement p q => exact storeElementStep_keeps_cfg h
  | reset => cases h; exact s.resetEvent_cfg
  | hostWrite a v => exact hostWriteStep_keeps_cfg h
  | hostWriteStatus v => cases h; rfl

/-- Settles O12: the step is the default schedule's or takes the head of the agenda, and both keep the configuration. -/
theorem noStepChangesTheConfiguration : Obligations.NoStepChangesTheConfiguration := by
  intro s t h
  obtain ⟨-, h'⟩ | ⟨e, rest, -, hport, h'⟩ := step_cases s <;> rw [h'] at h
  · exact engineStep_keeps_cfg h
  · exact takeEvent_keeps_cfg (s := { s with agenda := rest }) hport h

end Sys2Proof.Machine
end

section
/-! PROOFS. The interface state: the STATUS word and the events that leave the engine alone (R25). -/

namespace Sys2Proof.Machine

/-- The number in STATUS: its three fields stand side by side and stay below bit 10 (R25). -/
theorem State.status_toNat (s : State) :
    s.status.toNat = s.code.toNat + 256 * s.doneBit.toNat + 512 * s.busy.toNat := by
  have hcode := s.code.isLt
  have hdone := Bool.toNat_le s.doneBit
  have hbusy := Bool.toNat_le s.busy
  simp only [State.status, BitVec.toNat_ofNat]
  omega

/-- Settles O10: each field is read off the number in STATUS. -/
theorem statusWordLayout : Obligations.StatusWordLayout := by
  intro s
  have hst := s.status_toNat
  have hcode := s.code.isLt
  have hdone := Bool.toNat_le s.doneBit
  have hbusy := Bool.toNat_le s.busy
  refine ⟨?_, ?_, ?_, ?_⟩
  · apply BitVec.eq_of_toNat_eq
    simp only [BitVec.extractLsb'_toNat, Nat.shiftRight_zero, hst]
    omega
  · rw [← BitVec.testBit_toNat, hst, Nat.testBit_eq_decide_div_mod_eq]
    cases s.doneBit <;> simp <;> omega
  · rw [← BitVec.testBit_toNat, hst, Nat.testBit_eq_decide_div_mod_eq, decide_eq_true_iff]
    by_cases hp : s.phase = .idle <;> simp [State.busy, hp] <;> omega
  · apply BitVec.eq_of_toNat_eq
    simp only [BitVec.extractLsb'_toNat, Nat.shiftRight_eq_div_pow, hst, BitVec.toNat_ofNat]
    omega

/-- The head of the agenda is taken when it needs no port or the engine is idle (R36, R101). -/
theorem step_of_agenda {s : State} {e : Event} {rest : List Event} (ha : s.agenda = e :: rest)
    (hport : needsPort e = true → s.phase = .idle) : step s = takeEvent e { s with agenda := rest } := by
  obtain ⟨hno | ⟨e', rest', he, hn, hbusy⟩, -⟩ | ⟨e', rest', he, -, hstep⟩ := step_cases s
  · exact absurd (ha.symm.trans hno) (List.cons_ne_nil e rest)
  · cases ha.symm.trans he
    exact absurd (hport hn) hbusy
  · cases ha.symm.trans he
    exact hstep

/-- Settles O11: the event needs no port, and taking it answers the state itself. -/
theorem statusWritesAreIgnored : Obligations.StatusWritesAreIgnored := by
  intro s v rest ha
  exact step_of_agenda ha (by simp [needsPort])

end Sys2Proof.Machine
end

section
/-! PROOFS. The tiles of C partition its index space (R26). -/

namespace Sys2Proof.Machine

/-- A tile is a pair of a row block and a column block (R26, R110). -/
theorem mem_tiles {cfg : Config} {d : Dims} {t : Nat × Nat} :
    t ∈ tiles cfg d ↔ t.1 < ceilDiv d.m cfg.tileM ∧ t.2 < ceilDiv d.n cfg.tileN := by
  obtain ⟨ti, tj⟩ := t
  simp [tiles]

/-- No tile is listed twice (R26). -/
theorem tiles_nodup (cfg : Config) (d : Dims) : (tiles cfg d).Nodup :=
  List.Nodup.product List.nodup_range List.nodup_range

/-- Tile sizes of a legal configuration are positive (R117). -/
theorem Config.tile_pos {cfg : Config} (h : cfg.wf = true) : 0 < cfg.tileM ∧ 0 < cfg.tileN := by
  simp only [Config.wf, Bool.and_eq_true, decide_eq_true_eq] at h
  obtain ⟨⟨-, hM⟩, hN⟩ := h
  exact ⟨hM, hN⟩

/-- An index below `size` falls into one of the `ceilDiv size b` blocks of length `b` (R11). -/
theorem div_lt_ceilDiv {size b i : Nat} (hb : 0 < b) (hi : i < size) : i / b < ceilDiv size b := by
  have hle := Nat.div_mul_le_self i b
  rw [ceilDiv, Nat.lt_iff_add_one_le, Nat.le_div_iff_mul_le hb, Nat.succ_mul]
  omega

/-- The clipped block that an index below `size` lies in is the one its quotient names (R26). -/
theorem mem_block_iff {size b i q : Nat} (hb : 0 < b) (hi : i < size) :
    q * b ≤ i ∧ i < min size ((q + 1) * b) ↔ q = i / b := by
  rw [lt_min_iff, eq_comm, Nat.div_eq_iff hb, Nat.succ_mul]
  have : b * q = q * b := Nat.mul_comm b q
  omega

/-- Settles O35: the one tile of an element is given by its quotients by the tile sizes. -/
theorem tilesPartitionTheOutput : Obligations.TilesPartitionTheOutput := by
  intro cfg d hcfg
  obtain ⟨hM, hN⟩ := Config.tile_pos hcfg
  refine ⟨tiles_nodup cfg d, fun m n hm hn => ⟨(m / cfg.tileM, n / cfg.tileN), ⟨?_, ?_⟩, ?_⟩⟩
  · exact mem_tiles.mpr ⟨div_lt_ceilDiv hM hm, div_lt_ceilDiv hN hn⟩
  · obtain ⟨hrow, hrow'⟩ := (mem_block_iff hM hm).mpr rfl
    exact ⟨hrow, hrow', (mem_block_iff hN hn).mpr rfl⟩
  · rintro ⟨ti, tj⟩ ⟨-, hrow, hrow', hcol⟩
    exact Prod.ext ((mem_block_iff hM hm).mp ⟨hrow, hrow'⟩) ((mem_block_iff hN hn).mp hcol)

end Sys2Proof.Machine
end

section
/-! PROOFS. Writing elements of C: any sequence of element writes, each of its element's final value, leaves every element old or final and
every byte outside C as it was (R60, R114, R116). The store step of a worker and the whole command are two such sequences. -/

namespace Sys2Proof.Machine

/-- Two different elements of C share no byte (R50, R54). -/
theorem addrC_apart {x : Args} {d : Dims} {m n m' n' : Nat} (hn : n < d.n) (hn' : n' < d.n) (hne : (m, n) ≠ (m', n')) :
    addrC x d m n + 2 ≤ addrC x d m' n' ∨ addrC x d m' n' + 2 ≤ addrC x d m n := by
  simp only [addrC]
  rcases Nat.lt_trichotomy m m' with hm | rfl | hm
  · have := rowMajor_lt (M := d.n) hm hn
    omega
  · have : n ≠ n' := fun h => hne (by rw [h])
    omega
  · have := rowMajor_lt (M := d.n) hm hn'
    omega

/-- The halfword at an address gives the two bytes there (R42). -/
theorem Memory.half_eq_iff {m₁ m₂ : Memory} {a : Nat} :
    m₁.half a = m₂.half a ↔ m₁.byte a = m₂.byte a ∧ m₁.byte (a + 1) = m₂.byte (a + 1) := by
  refine ⟨fun h => ?_, fun h => Memory.half_congr h.1 h.2⟩
  have hnat := congrArg BitVec.toNat h
  simp only [Memory.half, Memory.read, BitVec.toNat_ofNat] at hnat
  have := (m₁.byte a).isLt
  have := (m₂.byte a).isLt
  have := (m₁.byte (a + 1)).isLt
  have := (m₂.byte (a + 1)).isLt
  constructor <;> apply BitVec.eq_of_toNat_eq <;> omega

/-- A byte in the range of C belongs to an element (R45, R50). -/
theorem exists_element_of_inBuf_c {x : Args} {d : Dims} {a : Nat} (h : inBuf x d .c a = true) :
    ∃ m n, m < d.m ∧ n < d.n ∧ (a = addrC x d m n ∨ a = addrC x d m n + 1) := by
  rw [inBuf_iff] at h
  obtain ⟨hlo, hhi⟩ := h
  simp only [bufArg, req, Nat.mul_assoc] at hlo hhi
  have hidx : (a - x.c.base) / 2 < d.m * d.n := by omega
  have hn : 0 < d.n := Nat.pos_of_mul_pos_left (Nat.zero_lt_of_lt hidx)
  refine ⟨(a - x.c.base) / 2 / d.n, (a - x.c.base) / 2 % d.n, Nat.div_lt_of_lt_mul (by rwa [Nat.mul_comm] at hidx), Nat.mod_lt _ hn, ?_⟩
  have := Nat.div_add_mod' ((a - x.c.base) / 2) d.n
  simp only [addrC]
  omega

/-- `m₂` is `m₁` after some elements of C took their final values `v`: every byte outside C is as before, every element old or final. -/
structure ElementWrites (x : Args) (d : Dims) (v : Nat → Nat → Half) (m₁ m₂ : Memory) : Prop where
  wf : m₂.wf = true
  outside : ∀ a, inBuf x d .c a = false → m₂.byte a = m₁.byte a
  element : ∀ m n, m < d.m → n < d.n → m₂.half (addrC x d m n) = m₁.half (addrC x d m n) ∨ m₂.half (addrC x d m n) = v m n

namespace ElementWrites

variable {x : Args} {d : Dims} {v : Nat → Nat → Half} {m₁ m₂ m₃ : Memory}

theorem refl (h : m₁.wf = true) : ElementWrites x d v m₁ m₁ := ⟨h, fun _ _ => rfl, fun _ _ _ _ => .inl rfl⟩

theorem trans (h₁₂ : ElementWrites x d v m₁ m₂) (h₂₃ : ElementWrites x d v m₂ m₃) : ElementWrites x d v m₁ m₃ where
  wf := h₂₃.wf
  outside a ha := (h₂₃.outside a ha).trans (h₁₂.outside a ha)
  element m n hm hn := by
    obtain h | h := h₂₃.element m n hm hn
    · rw [h]; exact h₁₂.element m n hm hn
    · exact .inr h

/-- An element that holds its final value keeps it. -/
theorem keeps_final (h : ElementWrites x d v m₁ m₂) {m n : Nat} (hm : m < d.m) (hn : n < d.n)
    (hfinal : m₁.half (addrC x d m n) = v m n) : m₂.half (addrC x d m n) = v m n :=
  (h.element m n hm hn).elim (fun h' => h'.trans hfinal) id

/-- One element's write of its final value (R55, R173). -/
theorem setHalf (hc : x.c.base + req d .c ≤ 2 ^ 64) (hwf : m₁.wf = true) {m n : Nat} (hm : m < d.m) (hn : n < d.n) :
    ElementWrites x d v m₁ (m₁.setHalf (addrC x d m n) (v m n)) := by
  obtain ⟨hlo, hhi⟩ := addrC_inside (x := x) hm hn
  have hspace : addrC x d m n + 2 ≤ 2 ^ 64 := hhi.trans hc
  refine ⟨Memory.setHalf_wf hwf hspace, fun a ha => ?_, fun m' n' hm' hn' => ?_⟩
  · rw [inBuf_false_iff] at ha
    simp only [bufArg] at ha
    rw [Memory.byte_setHalf hwf hspace, if_neg (by omega), if_neg (by omega)]
  · by_cases hsame : (m', n') = (m, n)
    · cases hsame
      exact .inr (Memory.half_setHalf hwf hspace _)
    · have hapart := addrC_apart (x := x) hn' hn hsame
      refine .inl (Memory.half_congr ?_ ?_) <;>
        rw [Memory.byte_setHalf hwf hspace, if_neg (by omega), if_neg (by omega)]

/-- Element writes one after another: each leaves its own element final, and no later one takes that back. -/
theorem foldl {α : Type} {f : Memory → α → Memory} {pos : α → Nat × Nat} {es : List α}
    (hpos : ∀ e ∈ es, (pos e).1 < d.m ∧ (pos e).2 < d.n)
    (hstep : ∀ e ∈ es, ∀ mem, ElementWrites x d v m₁ mem →
      ElementWrites x d v mem (f mem e) ∧ (f mem e).half (addrC x d (pos e).1 (pos e).2) = v (pos e).1 (pos e).2)
    (h : ElementWrites x d v m₁ m₂) :
    ElementWrites x d v m₁ (es.foldl f m₂) ∧
      ∀ e ∈ es, (es.foldl f m₂).half (addrC x d (pos e).1 (pos e).2) = v (pos e).1 (pos e).2 := by
  induction es using List.reverseRecOn with
  | nil => exact ⟨h, by simp⟩
  | append_singleton es e ih =>
    obtain ⟨hes, hfinal⟩ := ih (fun e' he' => hpos e' (by simp [he'])) (fun e' he' => hstep e' (by simp [he']))
    obtain ⟨hlast, hlastFinal⟩ := hstep e (by simp) _ hes
    rw [List.foldl_append, List.foldl_cons, List.foldl_nil]
    refine ⟨hes.trans hlast, fun e' he' => ?_⟩
    obtain he' | he' := List.mem_append.mp he'
    · obtain ⟨hm, hn⟩ := hpos e' (by simp [he'])
      exact hlast.keeps_final hm hn (hfinal e' he')
    · cases List.mem_singleton.mp he'
      exact hlastFinal

/-- Element writes leave every byte of the inputs alone (R29, R69). -/
theorem sameInputs (g : SoundRanges x d) (h : ElementWrites x d v m₁ m₂) : SameInputs x d m₁ m₂ :=
  fun y hy a ha => (h.outside a (g.disj y hy a ha)).symm

end ElementWrites

/-- The element of C that an accumulator entry belongs to (R27). -/
def outputPos (cfg : Config) (w : Worker) (e : AccEntry) : Nat × Nat := (rowIndex cfg w e.i, colIndex cfg w e.j)

/-- One element's part of the store step, with its sum complete: an element write that leaves the element final, if a mark it bears is true (R114). -/
theorem storeEntry_elementWrites {cfg : Config} {x : Args} {d : Dims} {w : Worker} {v : Nat → Nat → Half} {mem : Memory} {e : AccEntry}
    (hc : x.c.base + req d .c ≤ 2 ^ 64) (hwf : mem.wf = true)
    (hm : rowIndex cfg w e.i < d.m) (hn : colIndex cfg w e.j < d.n)
    (hval : cvtBF16 e.val = v (rowIndex cfg w e.i) (colIndex cfg w e.j))
    (hmark : e.written = true →
      mem.half (addrC x d (rowIndex cfg w e.i) (colIndex cfg w e.j)) = v (rowIndex cfg w e.i) (colIndex cfg w e.j)) :
    ElementWrites x d v mem (storeEntry cfg x d w mem e) ∧
      (storeEntry cfg x d w mem e).half (addrC x d (rowIndex cfg w e.i) (colIndex cfg w e.j)) =
        v (rowIndex cfg w e.i) (colIndex cfg w e.j) := by
  obtain ⟨hsame, hout | hwritten⟩ | ⟨hset, -, -, -⟩ := storeEntry_cases cfg x d w mem e
  · simp [entryInRange, hm, hn] at hout
  · rw [hsame]
    exact ⟨.refl hwf, hmark hwritten⟩
  · rw [hset, hval]
    exact ⟨.setHalf hc hwf hm hn, Memory.half_setHalf hwf ((addrC_inside hm hn).2.trans hc) _⟩

/-- The store step of a worker whose sums are complete writes the element of every entry (R114). -/
theorem storeMemory_elementWrites {cfg : Config} {x : Args} {d : Dims} {w : Worker} {v : Nat → Nat → Half} {mem : Memory}
    (hc : x.c.base + req d .c ≤ 2 ^ 64) (hwf : mem.wf = true)
    (hpos : ∀ e ∈ w.acc, rowIndex cfg w e.i < d.m ∧ colIndex cfg w e.j < d.n)
    (hval : ∀ e ∈ w.acc, cvtBF16 e.val = v (rowIndex cfg w e.i) (colIndex cfg w e.j))
    (hmark : ∀ e ∈ w.acc, e.written = true →
      mem.half (addrC x d (rowIndex cfg w e.i) (colIndex cfg w e.j)) = v (rowIndex cfg w e.i) (colIndex cfg w e.j)) :
    ElementWrites x d v mem (storeMemory cfg mem x d w) ∧
      ∀ e ∈ w.acc, (storeMemory cfg mem x d w).half (addrC x d (rowIndex cfg w e.i) (colIndex cfg w e.j)) =
        v (rowIndex cfg w e.i) (colIndex cfg w e.j) := by
  refine ElementWrites.foldl (pos := outputPos cfg w) hpos (fun e he mem' hw => ?_) (.refl hwf)
  obtain ⟨hm, hn⟩ := hpos e he
  exact storeEntry_elementWrites hc hw.wf hm hn (hval e he) fun hwritten => hw.keeps_final hm hn (hmark e he hwritten)

/-- The whole command writes every element of C (R100, R116). -/
theorem gemmMemory_elementWrites {cfg : Config} {x : Args} {d : Dims} {mem : Memory}
    (hc : x.c.base + req d .c ≤ 2 ^ 64) (hwf : mem.wf = true) :
    ElementWrites x d (elem cfg.fp8 mem x d) mem (gemmMemory cfg mem x d) ∧
      ∀ m n, m < d.m → n < d.n → (gemmMemory cfg mem x d).half (addrC x d m n) = elem cfg.fp8 mem x d m n := by
  obtain ⟨hwrites, hfinal⟩ := ElementWrites.foldl (v := elem cfg.fp8 mem x d) (pos := id) (es := cells d)
    (fun p hp => mem_cells.mp hp)
    (fun p hp mem' hw => by
      obtain ⟨hm, hn⟩ := mem_cells.mp hp
      exact ⟨.setHalf hc hw.wf hm hn, Memory.half_setHalf hw.wf ((addrC_inside hm hn).2.trans hc) _⟩)
    (ElementWrites.refl hwf)
  exact ⟨hwrites, fun m n hm hn => hfinal (m, n) (mem_cells.mpr ⟨hm, hn⟩)⟩

end Sys2Proof.Machine
end

section
/-! PROOFS. The whole command: what it leaves alone and what its outcome depends on (R29, R33, R100). -/

namespace Sys2Proof.Machine

/-- An error code is a listed code and not the code of success (R186). -/
theorem ErrorCode.bits_le_five (e : ErrorCode) : e.bits.toNat ≤ 5 := by
  cases e <;> decide

theorem ErrorCode.bits_ne_zero (e : ErrorCode) : e.bits ≠ 0 := by
  cases e <;> decide

/-- On an idle engine GEMM runs the command its operands encode (R100). -/
theorem exec_gemm_of_idle (x : Args) {s : State} (hi : s.phase = .idle) :
    exec (.gemm x) s = runCommand (encode (.gemm x)) s := by
  simp [exec, execGemm, hi]

/-- On a busy engine GEMM has no step (R101). -/
theorem exec_gemm_of_busy (x : Args) {s : State} (hb : s.phase ≠ .idle) : exec (.gemm x) s = .next s := by
  simp [exec, execGemm, hb]

/-- A command with a failing check completes with its code (R195). -/
theorem runCommand_of_error {c : Desc} {s : State} {e : ErrorCode} (h : firstError s.cfg c = some e) :
    runCommand c s = .next ((s.issue c).raise e) := by
  obtain ⟨e', h', hrun⟩ | ⟨h', -⟩ | ⟨h', -⟩ := runCommand_cases c s <;> rw [h] at h' <;> cases h'
  exact hrun

/-- A command that passes validation, in memory that admits it, is computed (R100, R110). -/
theorem runCommand_of_admitted {c : Desc} {s : State} (h : firstError s.cfg c = none)
    (ha : launchAdmitted s.cfg c.args (dimsOf c.args) = true) :
    runCommand c s = .next (s.issue c).startCompute.computeAll := by
  obtain ⟨e, h', -⟩ | ⟨-, -, hrun⟩ | ⟨-, hr, -⟩ := runCommand_cases c s
  · rw [h] at h'; cases h'
  · exact hrun
  · rw [ha] at hr; cases hr

/-- The memory of a command that was computed (R116). -/
theorem computed_mem (c : Desc) (s : State) :
    (s.issue c).startCompute.computeAll.mem = gemmMemory s.cfg s.mem c.args (dimsOf c.args) := by
  simp

/-- A computed command writes each element's final value, and nothing but elements of C (R116). -/
theorem computed_elementWrites {c : Desc} {s : State} (h : firstError s.cfg c = none) (hwf : s.mem.wf = true) :
    ElementWrites c.args (dimsOf c.args) (elem s.cfg.fp8 s.mem c.args (dimsOf c.args)) s.mem
        (s.issue c).startCompute.computeAll.mem ∧
      ∀ m n, m < (dimsOf c.args).m → n < (dimsOf c.args).n →
        (s.issue c).startCompute.computeAll.mem.half (addrC c.args (dimsOf c.args) m n) =
          elem s.cfg.fp8 s.mem c.args (dimsOf c.args) m n := by
  rw [computed_mem]
  exact gemmMemory_elementWrites ((soundRanges_of_firstError h).space .c) hwf

/-- Settles O20: the command writes no memory, or elements of C alone, which no input meets. -/
theorem gemmLeavesTheInputsAlone : Obligations.GemmLeavesTheInputsAlone := by
  intro x s t hwf hx hexec y hy a ha
  by_cases hi : s.phase = .idle
  · rw [exec_gemm_of_idle x hi] at hexec
    obtain ⟨e, -, hrun⟩ | ⟨hvalid, -, hrun⟩ | ⟨-, -, hrun⟩ := runCommand_cases (encode (.gemm x)) s <;>
      rw [hrun] at hexec <;> cases hexec
    · rfl
    · obtain ⟨hwrites, -⟩ := computed_elementWrites hvalid hwf
      have hsame := hwrites.sameInputs (soundRanges_of_firstError hvalid)
      rw [encode_args hx] at hsame
      exact (hsame y hy a ha).symm
  · rw [exec_gemm_of_busy x hi] at hexec
    cases hexec
    rfl

/-- STATUS is a view of CODE, DONE and PHASE (R25). -/
theorem State.status_congr {s t : State} (hcode : s.code = t.code) (hdone : s.doneBit = t.doneBit)
    (hphase : s.phase = t.phase) : s.status = t.status := by
  simp only [State.status, State.busy, hcode, hdone, hphase]

/-- Two computed commands over the same input bytes leave the same bytes in C (R33, R115). -/
theorem computed_output_congr {c : Desc} {s₁ s₂ : State} (hcfg : s₁.cfg = s₂.cfg) (hvalid : firstError s₁.cfg c = none)
    (hwf₁ : s₁.mem.wf = true) (hwf₂ : s₂.mem.wf = true) (hin : SameInputs c.args (dimsOf c.args) s₁.mem s₂.mem)
    {a : Nat} (ha : inBuf c.args (dimsOf c.args) .c a = true) :
    (s₂.issue c).startCompute.computeAll.mem.byte a = (s₁.issue c).startCompute.computeAll.mem.byte a := by
  obtain ⟨m, n, hm, hn, haddr⟩ := exists_element_of_inBuf_c ha
  obtain ⟨-, hfinal₁⟩ := computed_elementWrites hvalid hwf₁
  obtain ⟨-, hfinal₂⟩ := computed_elementWrites (hcfg ▸ hvalid) hwf₂
  have helem := elem_congr (soundRanges_of_firstError hvalid) hin (fmt := s₁.cfg.fp8) hm hn
  obtain ⟨hlow, hhigh⟩ := Memory.half_eq_iff.mp
    ((hfinal₂ m n hm hn).trans (by rw [hfinal₁ m n hm hn, helem, hcfg]))
  obtain rfl | rfl := haddr
  · exact hlow
  · exact hhigh

/-- Settles O21: both commands fail the same check, or both are computed, over the same input bytes. -/
theorem outcomeDependsOnInputsAlone : Obligations.OutcomeDependsOnInputsAlone := by
  intro x s₁ s₂ t₁ hi₁ hi₂ hwf₁ hwf₂ hx hcfg hin hexec
  rw [exec_gemm_of_idle x hi₁] at hexec
  rw [exec_gemm_of_idle x hi₂]
  obtain ⟨e, herr, hrun⟩ | ⟨hvalid, hadm, hrun⟩ | ⟨-, -, hrun⟩ := runCommand_cases (encode (.gemm x)) s₁ <;>
    rw [hrun] at hexec <;> cases hexec
  · refine ⟨_, runCommand_of_error (hcfg ▸ herr), State.status_congr rfl rfl rfl, fun hcode => ?_⟩
    exact absurd hcode e.bits_ne_zero
  · refine ⟨_, runCommand_of_admitted (hcfg ▸ hvalid) (hcfg ▸ hadm), State.status_congr rfl rfl rfl, fun _ a ha => ?_⟩
    rw [← encode_args hx] at ha hin
    exact computed_output_congr hcfg hvalid hwf₁ hwf₂ hin ha

end Sys2Proof.Machine
end

section
/-! PROOFS. A sound worker: what its invariant gives, what keeps it when memory changes under it, and that each of its steps keeps it (R26 to R28, R111 to R114). -/

namespace Sys2Proof.Machine

variable {cfg : Config} {x : Args} {d : Dims} {mem m₁ m₂ : Memory} {w : Worker} {e : AccEntry}

/-- The word of A's scales that a row and a chunk read depends on the input bytes alone (R48). -/
theorem aScaleWord_congr (g : SoundRanges x d) (h : SameInputs x d m₁ m₂) {k m : Nat} (hk : k < d.k) (hm : m < d.m) :
    m₁.word (addrAScale x d (k / BLOCK) m) = m₂.word (addrAScale x d (k / BLOCK) m) := by
  have hkb : k / 128 < d.k / 128 := by have := g.kal; omega
  have hidx := rowMajor_lt hkb hm
  refine Memory.word_congr fun i hi => h .aScale (by simp) _ ?_
  simp only [inBuf_iff, bufArg, req, addrAScale, BLOCK, Nat.mul_assoc]
  omega

/-- The word of B's scales that a column and a chunk read depends on the input bytes alone (R49). -/
theorem bScaleWord_congr (g : SoundRanges x d) (h : SameInputs x d m₁ m₂) {k n : Nat} (hk : k < d.k) (hn : n < d.n) :
    m₁.word (addrBScale x d (k / BLOCK) (n / BLOCK)) = m₂.word (addrBScale x d (k / BLOCK) (n / BLOCK)) := by
  have hkb : k / 128 < d.k / 128 := by have := g.kal; omega
  have hnb : n / 128 < d.n / 128 := by have := g.nal; omega
  have hidx := rowMajor_lt hkb hnb
  refine Memory.word_congr fun i hi => h .bScale (by simp) _ ?_
  simp only [inBuf_iff, bufArg, req, addrBScale, BLOCK, Nat.mul_assoc]
  omega

theorem rowIndex_lt {i : Nat} (h : i < rowsOf cfg d w) : rowIndex cfg w i < d.m := by
  simp only [rowsOf, rowIndex] at *
  omega

theorem colIndex_lt {j : Nat} (h : j < colsOf cfg d w) : colIndex cfg w j < d.n := by
  simp only [colsOf, colIndex] at *
  omega

/-- What a worker loads into its latches depends on the input bytes alone (R28). -/
theorem loadLatches_congr (g : SoundRanges x d) (h : SameInputs x d m₁ m₂) (hk : w.k < d.k) :
    loadLatches cfg m₁ x d w = loadLatches cfg m₂ x d w := by
  have hA : (loadLatches cfg m₁ x d w).sA = (loadLatches cfg m₂ x d w).sA :=
    List.map_congr_left fun i hi => aScaleWord_congr g h hk (rowIndex_lt (List.mem_range.mp hi))
  have hB : (loadLatches cfg m₁ x d w).sB = (loadLatches cfg m₂ x d w).sB :=
    List.map_congr_left fun j hj => bScaleWord_congr g h hk (colIndex_lt (List.mem_range.mp hj))
  calc loadLatches cfg m₁ x d w
      = { w with sA := (loadLatches cfg m₁ x d w).sA, sB := (loadLatches cfg m₁ x d w).sB } := rfl
    _ = loadLatches cfg m₂ x d w := by rw [hA, hB]; rfl

/-- An entry that the start step makes is at +0 and not written (R111, R150). -/
theorem mem_initAcc (h : e ∈ initAcc cfg d w) : e.val = accInit ∧ e.written = false := by
  simp only [initAcc, List.mem_flatMap, List.mem_map] at h
  obtain ⟨i, -, j, -, rfl⟩ := h
  exact ⟨rfl, rfl⟩

/-- One entry with the next term added (R112, R157). -/
def addTerm (cfg : Config) (mem : Memory) (x : Args) (d : Dims) (w : Worker) (e : AccEntry) : AccEntry :=
  { e with val := accStep e.val (termAt cfg.fp8 mem x d (rowIndex cfg w e.i) (colIndex cfg w e.j) w.k) }

/-- The worker with the next term added to every entry, under the latches of its chunk (R112). -/
def advance (cfg : Config) (mem : Memory) (x : Args) (d : Dims) (w : Worker) : Worker :=
  { loadLatches cfg mem x d w with acc := w.acc.map (addTerm cfg mem x d w), k := w.k + 1 }

@[simp] theorem advance_ti : (advance cfg mem x d w).ti = w.ti := rfl
@[simp] theorem advance_tj : (advance cfg mem x d w).tj = w.tj := rfl
@[simp] theorem advance_stage : (advance cfg mem x d w).stage = w.stage := rfl
@[simp] theorem advance_k : (advance cfg mem x d w).k = w.k + 1 := rfl
@[simp] theorem advance_acc : (advance cfg mem x d w).acc = w.acc.map (addTerm cfg mem x d w) := rfl

/-- Under the latches of its chunk an entry inside the tile takes its next term (R112). -/
theorem accumulateEntry_loadLatches (hi : e.i < rowsOf cfg d w) (hj : e.j < colsOf cfg d w) :
    accumulateEntry cfg mem x d (loadLatches cfg mem x d w) e = some (addTerm cfg mem x d w e) := by
  have hin : entryInRange cfg d (loadLatches cfg mem x d w) e = true := by
    simp only [entryInRange, Bool.and_eq_true, decide_eq_true_eq]
    exact ⟨rowIndex_lt hi, colIndex_lt hj⟩
  simp only [accumulateEntry, hin, if_true, loadLatches_sA hi, loadLatches_sB hj]
  rfl

/-- Two memories under which an element of C that holds its final value in the first holds its final value in the second. -/
def KeepsFinal (fmt : Fp8Format) (x : Args) (d : Dims) (m₁ m₂ : Memory) : Prop :=
  ∀ m n, m < d.m → n < d.n → m₁.half (addrC x d m n) = elem fmt m₁ x d m n → m₂.half (addrC x d m n) = elem fmt m₂ x d m n

/-- Element writes of final values take no final value back. -/
theorem ElementWrites.keepsFinal {fmt : Fp8Format} (g : SoundRanges x d) (h : ElementWrites x d (elem fmt m₁ x d) m₁ m₂) :
    KeepsFinal fmt x d m₁ m₂ := fun _ _ hm hn hfinal =>
  (h.keeps_final hm hn hfinal).trans (elem_congr g (h.sameInputs g) hm hn)

/-- Replacing one member of a list by one with the same image leaves the images as they were. -/
theorem map_set_eq_map {α β : Type} {f : α → β} {l : List α} {p : Nat} {a a' : α} (h : l[p]? = some a) (hf : f a' = f a) :
    (l.set p a').map f = l.map f := by
  obtain ⟨hp, rfl⟩ := List.getElem?_eq_some_iff.mp h
  rw [List.map_set, hf, ← List.map_set, List.set_getElem_self]

namespace WorkerInv

/-- Every entry of a sound worker belongs to an element of C (R27). -/
theorem inside_output (h : WorkerInv cfg mem x d w) (he : e ∈ w.acc) :
    rowIndex cfg w e.i < d.m ∧ colIndex cfg w e.j < d.n := by
  by_cases hp : w.stage = .pending
  · obtain ⟨-, hacc⟩ := h.pending hp
    simp [hacc] at he
  · exact AccEntry.inside_output (h.file hp) he

/-- A worker as validation creates it is sound (R110). -/
theorem newWorker (t : Nat × Nat) : WorkerInv cfg mem x d (newWorker t) where
  counter := Nat.zero_le _
  pending _ := ⟨rfl, rfl⟩
  file h := absurd rfl h
  summed h := absurd rfl h
  latches h := nomatch h
  written _ he := nomatch he
  stored h := nomatch h

/-- A sound worker stays sound when memory changes under it, if the input bytes and the elements already final stay (R56, R60). -/
theorem of_memory (g : SoundRanges x d) (hin : SameInputs x d m₁ m₂) (hfinal : KeepsFinal cfg.fp8 x d m₁ m₂)
    (h : WorkerInv cfg m₁ x d w) : WorkerInv cfg m₂ x d w where
  counter := h.counter
  pending := h.pending
  file := h.file
  summed hp e he := by
    obtain ⟨hm, hn⟩ := h.inside_output he
    exact (h.summed hp e he).trans (partialSum_congr g hin h.counter hm hn)
  latches hs hk := by
    have hlt : w.k < d.k := by
      have := h.counter
      have := g.kal
      simp only [BLOCK] at hk
      omega
    rw [← loadLatches_congr g hin hlt]
    exact h.latches hs hk
  written e he hw := by
    obtain ⟨hm, hn⟩ := h.inside_output he
    obtain ⟨hk, hstored⟩ := h.written e he hw
    exact ⟨hk, hfinal _ _ hm hn hstored⟩
  stored := h.stored

/-- The start step gives a sound worker (R111). -/
theorem startWorker : WorkerInv cfg mem x d (startWorker cfg d w) where
  counter := Nat.zero_le _
  pending h := nomatch h
  file _ := rfl
  summed _ _ he := (mem_initAcc he).1
  latches _ hk := absurd (Nat.zero_mod BLOCK) hk
  written e he hw := by
    obtain ⟨-, hnot⟩ := mem_initAcc he
    rw [hnot] at hw
    cases hw
  stored h := nomatch h

/-- A sound worker in ACCUM holds the latches of its chunk, or loads them now (R28, R112). -/
theorem chunk_latches (h : WorkerInv cfg mem x d w) (hs : w.stage = .accum) :
    (if w.k % BLOCK = 0 then loadLatches cfg mem x d w else w) = loadLatches cfg mem x d w := by
  split
  · rfl
  · rename_i hk
    obtain ⟨hA, hB⟩ := h.latches hs hk
    symm
    calc loadLatches cfg mem x d w
        = { w with sA := (loadLatches cfg mem x d w).sA, sB := (loadLatches cfg mem x d w).sB } := rfl
      _ = w := by rw [← hA, ← hB]

/-- The accumulate step of a sound worker has a result: the next term in every entry (R112). -/
theorem accumulateStep_eq (h : WorkerInv cfg mem x d w) (hs : w.stage = .accum) :
    accumulateStep cfg mem x d w = some (advance cfg mem x d w) := by
  have hentries : accumulateEntries cfg mem x d (loadLatches cfg mem x d w) w.acc = some (w.acc.map (addTerm cfg mem x d w)) := by
    rw [accumulateEntries_some, List.forall₂_map_right_iff, List.forall₂_same]
    intro e he
    obtain ⟨hi, hj⟩ := AccEntry.inside_tile (h.file (by simp [hs])) he
    exact accumulateEntry_loadLatches hi hj
  simp only [accumulateStep, h.chunk_latches hs, loadLatches_acc, hentries]
  rfl

/-- The accumulate step keeps a worker sound (R112, R157). -/
theorem advance (h : WorkerInv cfg mem x d w) (hs : w.stage = .accum) (hk : w.k < d.k) :
    WorkerInv cfg mem x d (advance cfg mem x d w) where
  counter := hk
  pending hp := by simp [hs] at hp
  file _ := by
    rw [advance_acc, List.map_map]
    exact h.file (by simp [hs])
  summed _ e he := by
    obtain ⟨e₀, he₀, rfl⟩ := List.mem_map.mp he
    have hsum := h.summed (by simp [hs]) e₀ he₀
    simp only [entrySummed, addTerm] at hsum ⊢
    rw [hsum, advance_k, partialSum_succ]
    rfl
  latches _ hmod := by
    have hchunk : (w.k + 1) / BLOCK = w.k / BLOCK := by
      simp only [advance_k, BLOCK] at hmod ⊢
      omega
    simp only [loadLatches, advance_k, hchunk]
    exact ⟨rfl, rfl⟩
  written e he hw := by
    obtain ⟨e₀, he₀, rfl⟩ := List.mem_map.mp he
    obtain ⟨hend, -⟩ := h.written e₀ he₀ hw
    omega
  stored hst := by simp [hs] at hst

/-- A complete sum converts to the element's final value (R115, R173). -/
theorem converted_sum (h : WorkerInv cfg mem x d w) (hs : w.stage = .accum) (hk : w.k = d.k) (he : e ∈ w.acc) :
    cvtBF16 e.val = elem cfg.fp8 mem x d (rowIndex cfg w e.i) (colIndex cfg w e.j) := by
  have hsum := h.summed (by simp [hs]) e he
  rw [entrySummed, hk] at hsum
  rw [hsum, elem]

/-- A worker whose elements are all final may be marked STORED (R114). -/
theorem markStored (h : WorkerInv cfg mem x d w) (hs : w.stage = .accum) (hk : w.k = d.k)
    (hfinal : ∀ e ∈ w.acc, entryStored cfg mem x d w e) : WorkerInv cfg mem x d (markStored w) where
  counter := h.counter
  pending hp := nomatch hp
  file _ := by
    rw [Machine.markStored, List.map_map]
    exact h.file (by simp [hs])
  summed _ e he := by
    obtain ⟨e₀, he₀, rfl⟩ := List.mem_map.mp he
    exact h.summed (by simp [hs]) e₀ he₀
  latches hst := nomatch hst
  written e he _ := by
    obtain ⟨e₀, he₀, rfl⟩ := List.mem_map.mp he
    exact ⟨hk, hfinal e₀ he₀⟩
  stored _ := by
    refine ⟨hk, fun e he => ?_⟩
    obtain ⟨e₀, -, rfl⟩ := List.mem_map.mp he
    rfl

/-- An entry whose element is final may be marked written (R114). -/
theorem markWritten (h : WorkerInv cfg mem x d w) (hs : w.stage = .accum) (hk : w.k = d.k) {q : Nat} (hq : w.acc[q]? = some e)
    (hfinal : entryStored cfg mem x d w e) : WorkerInv cfg mem x d (markWritten w q) := by
  have he : e ∈ w.acc := List.mem_of_getElem? hq
  rw [markWritten_eq hq]
  exact {
    counter := h.counter
    pending := fun hp => by cases hs.symm.trans hp
    file := fun hp => by
      refine (map_set_eq_map hq ?_).trans (h.file hp)
      rfl
    summed := fun hp f hf => by
      obtain hf | rfl := List.mem_or_eq_of_mem_set hf
      · exact h.summed hp f hf
      · exact h.summed hp e he
    latches := h.latches
    written := fun f hf hw => by
      obtain hf | rfl := List.mem_or_eq_of_mem_set hf
      · exact h.written f hf hw
      · exact ⟨hk, hfinal⟩
    stored := fun hst => by cases hs.symm.trans hst }

end WorkerInv

end Sys2Proof.Machine
end

section
/-! PROOFS. What each step of a worker answers, one equation for each case (R111, R112, R114). -/

namespace Sys2Proof.Machine

variable {s : State} {p q : Nat} {w : Worker} {e : AccEntry}

theorem workerStep_of_none (hw : s.workers[p]? = none) : workerStep p s = .next s := by
  simp [workerStep, hw]

theorem workerStep_pending (hw : s.workers[p]? = some w) (hr : rangesInSpace s.cmd.args s.shape.dims = true)
    (hs : w.stage = .pending) : workerStep p s = .next (s.setWorker p (startWorker s.cfg s.shape.dims w)) := by
  simp [workerStep, hw, hr, hs]

theorem workerStep_accumulate {w' : Worker} (hw : s.workers[p]? = some w) (hr : rangesInSpace s.cmd.args s.shape.dims = true)
    (hs : w.stage = .accum) (hk : w.k < s.shape.dims.k)
    (ha : accumulateStep s.cfg s.mem s.cmd.args s.shape.dims w = some w') :
    workerStep p s = .next (s.setWorker p w') := by
  simp [workerStep, hw, hr, hs, hk, ha]

theorem workerStep_store (hw : s.workers[p]? = some w) (hr : rangesInSpace s.cmd.args s.shape.dims = true)
    (hs : w.stage = .accum) (hk : w.k = s.shape.dims.k) :
    workerStep p s = .next ((s.setWorker p (markStored w)).withMem (storeMemory s.cfg s.mem s.cmd.args s.shape.dims w)) := by
  simp [workerStep, hw, hr, hs, hk]

theorem workerStep_stored (hw : s.workers[p]? = some w) (hr : rangesInSpace s.cmd.args s.shape.dims = true)
    (hs : w.stage = .stored) : workerStep p s = .next s := by
  simp [workerStep, hw, hr, hs]

theorem storeElementStep_write (hw : s.workers[p]? = some w) (he : w.acc[q]? = some e)
    (hr : rangesInSpace s.cmd.args s.shape.dims = true) (hs : w.stage = .accum) (hk : w.k = s.shape.dims.k) :
    storeElementStep p q s =
      .next ((s.setWorker p (markWritten w q)).withMem (storeEntry s.cfg s.cmd.args s.shape.dims w s.mem e)) := by
  simp [storeElementStep, hw, he, hr, hs, hk]

/-- With no such entry, or one whose worker is not ready to store, the finer store takes no step (R114). -/
theorem storeElementStep_of_not_ready
    (h : ∀ w e, s.workers[p]? = some w → w.acc[q]? = some e → ¬ (w.stage = .accum ∧ w.k = s.shape.dims.k)) :
    storeElementStep p q s = .next s := by
  unfold storeElementStep
  cases hw : s.workers[p]? with
  | none => rfl
  | some w =>
    cases he : w.acc[q]? with
    | none => simp only [he]
    | some e => simp only [he, if_neg (h w e hw he)]

end Sys2Proof.Machine
end

section
/-! PROOFS. From a state that meets the invariant every operation of the machine answers a state that meets it, or refuses; none faults.
Both claims about every step follow. -/

namespace Sys2Proof.Machine

/-- An outcome that a sound state may have: a state that meets the invariant, or a refusal, and no fault. -/
structure SoundOutcome (r : Result) : Prop where
  inv : ∀ t, r = .next t → t.Inv
  noFault : ∀ f, r ≠ .fault f

theorem SoundOutcome.next {t : State} (h : t.Inv) : SoundOutcome (.next t) := ⟨fun _ ht => by cases ht; exact h, fun _ => nofun⟩

theorem SoundOutcome.refused (r : Refusal) : SoundOutcome (.refused r) := ⟨fun _ => nofun, fun _ => nofun⟩

/-- In COMPUTE the latch holds the dimensions of CMD (R35). -/
theorem ComputeInv.dims {s : State} (h : ComputeInv s) : s.shape.dims = dimsOf s.cmd.args := by
  rw [h.shape, dimsOf_latch]

theorem ComputeInv.ranges {s : State} (h : ComputeInv s) : SoundRanges s.cmd.args (dimsOf s.cmd.args) :=
  soundRanges_of_firstError h.valid

/-- No access of a command in COMPUTE leaves the address space (R40, R43). -/
theorem ComputeInv.inSpace {s : State} (h : ComputeInv s) : rangesInSpace s.cmd.args s.shape.dims = true := by
  obtain ⟨-, -, -, -, hbuffers⟩ := firstError_none.mp h.valid
  rw [h.dims]
  exact rangesInSpace_of_buffersOk hbuffers

namespace State.Inv

variable {s : State}

/-- An idle state meets the invariant when its configuration, memory and STATUS do and no worker is left (R24 to R26). -/
theorem of_idle (hcfg : s.cfg.wf = true) (hmem : s.mem.wf = true) (hcode : s.code.toNat ≤ 5)
    (hdone : s.doneBit = false → s.code = 0) (hi : s.phase = .idle) (hw : s.workers = []) : s.Inv where
  cfgWf := hcfg
  memWf := hmem
  codeListed := hcode
  busyNotDone hb := absurd hi hb
  notDoneNoCode := hdone
  workersInCompute _ := hw
  computing hp := by cases hi.symm.trans hp

/-- The invariant does not speak of the agenda (R36). -/
theorem withAgenda (h : s.Inv) (es : List Event) : ({ s with agenda := es } : State).Inv where
  cfgWf := h.cfgWf
  memWf := h.memWf
  codeListed := h.codeListed
  busyNotDone := h.busyNotDone
  notDoneNoCode := h.notDoneNoCode
  workersInCompute := h.workersInCompute
  computing hp :=
    have hc := h.computing hp
    ⟨hc.valid, hc.admitted, hc.shape, hc.tileSet, hc.sound⟩

theorem no_workers_of_not_compute (h : s.Inv) (hp : s.phase ≠ .compute) (p : Nat) : s.workers[p]? = none := by
  simp [h.workersInCompute hp]

/-- A worker found in the worker set is one of a command in COMPUTE (R26). -/
theorem compute_of_worker (h : s.Inv) {p : Nat} {w : Worker} (hw : s.workers[p]? = some w) : s.phase = .compute := by
  by_contra hp
  rw [h.no_workers_of_not_compute hp p] at hw
  cases hw

theorem worker_sound (h : s.Inv) {p : Nat} {w : Worker} (hw : s.workers[p]? = some w) :
    WorkerInv s.cfg s.mem s.cmd.args (dimsOf s.cmd.args) w :=
  (h.computing (h.compute_of_worker hw)).sound w (List.mem_of_getElem? hw)

/-- The command issued in IDLE (R101). -/
theorem issue (h : s.Inv) (hi : s.phase = .idle) (c : Desc) : (s.issue c).Inv where
  cfgWf := h.cfgWf
  memWf := h.memWf
  codeListed := Nat.zero_le 5
  busyNotDone _ := rfl
  notDoneNoCode _ := rfl
  workersInCompute _ := h.workersInCompute (by simp [hi])
  computing hp := nomatch hp

/-- The error completion, which validation reaches (R195). -/
theorem raise (h : s.Inv) (hp : s.phase = .validate) (e : ErrorCode) : (s.raise e).Inv :=
  of_idle h.cfgWf h.memWf e.bits_le_five nofun rfl (h.workersInCompute (by simp [hp]))

/-- The successful completion (R118). -/
theorem complete (h : s.Inv) : s.complete.Inv :=
  of_idle h.cfgWf h.memWf (Nat.zero_le 5) nofun rfl rfl

/-- The reset event (R34, R215). -/
theorem resetEvent (h : s.Inv) : s.resetEvent.Inv :=
  of_idle h.cfgWf h.memWf (Nat.zero_le 5) (fun _ => rfl) rfl rfl

/-- The start of computation gives one sound worker for each tile (R110). -/
theorem startCompute (h : s.Inv) (hp : s.phase = .validate) (hvalid : firstError s.cfg s.cmd = none)
    (hadm : launchAdmitted s.cfg s.cmd.args (dimsOf s.cmd.args) = true) : s.startCompute.Inv where
  cfgWf := h.cfgWf
  memWf := h.memWf
  codeListed := h.codeListed
  busyNotDone _ := h.busyNotDone (by simp [hp])
  notDoneNoCode := h.notDoneNoCode
  workersInCompute hc := absurd rfl hc
  computing _ :=
    { valid := hvalid
      admitted := hadm
      shape := rfl
      tileSet := by
        rw [State.startCompute_workers, List.map_map]
        exact List.map_id _
      sound := fun w hw => by
        obtain ⟨t, -, rfl⟩ := List.mem_map.mp hw
        exact .newWorker t }

/-- A whole command that was computed (R100, R118). -/
theorem computed (h : s.Inv) {c : Desc} (hvalid : firstError s.cfg c = none) : (s.issue c).startCompute.computeAll.Inv :=
  of_idle h.cfgWf (computed_elementWrites hvalid h.memWf).1.wf (Nat.zero_le 5) nofun rfl rfl

/-- Memory may change under the invariant if, in COMPUTE, the input bytes and the elements already final stay (R56, R60). -/
theorem withMem (h : s.Inv) {mem : Memory} (hwf : mem.wf = true)
    (hkeeps : s.phase = .compute → SameInputs s.cmd.args (dimsOf s.cmd.args) s.mem mem ∧
      KeepsFinal s.cfg.fp8 s.cmd.args (dimsOf s.cmd.args) s.mem mem) : (s.withMem mem).Inv where
  cfgWf := h.cfgWf
  memWf := hwf
  codeListed := h.codeListed
  busyNotDone := h.busyNotDone
  notDoneNoCode := h.notDoneNoCode
  workersInCompute := h.workersInCompute
  computing hp := by
    obtain ⟨hin, hfinal⟩ := hkeeps hp
    have hc := h.computing hp
    exact ⟨hc.valid, hc.admitted, hc.shape, hc.tileSet, fun w hw => (hc.sound w hw).of_memory hc.ranges hin hfinal⟩

/-- Element writes of final values keep the invariant (R60, R114). -/
theorem withElementWrites (h : s.Inv) (hp : s.phase = .compute) {mem : Memory}
    (hw : ElementWrites s.cmd.args (dimsOf s.cmd.args) (elem s.cfg.fp8 s.mem s.cmd.args (dimsOf s.cmd.args)) s.mem mem) :
    (s.withMem mem).Inv :=
  have hc := h.computing hp
  h.withMem hw.wf fun _ => ⟨hw.sameInputs hc.ranges, hw.keepsFinal hc.ranges⟩

/-- One worker may be replaced by a sound one of the same tile (R26). -/
theorem setWorker (h : s.Inv) {p : Nat} {w w' : Worker} (hw : s.workers[p]? = some w) (hti : w'.ti = w.ti) (htj : w'.tj = w.tj)
    (hsound : WorkerInv s.cfg s.mem s.cmd.args (dimsOf s.cmd.args) w') : (s.setWorker p w').Inv where
  cfgWf := h.cfgWf
  memWf := h.memWf
  codeListed := h.codeListed
  busyNotDone := h.busyNotDone
  notDoneNoCode := h.notDoneNoCode
  workersInCompute hp := absurd (h.compute_of_worker hw) hp
  computing hp := by
    have hc := h.computing hp
    refine ⟨hc.valid, hc.admitted, hc.shape, ?_, fun v hv => ?_⟩
    · rw [State.setWorker_workers, map_set_eq_map hw (by rw [hti, htj])]
      exact hc.tileSet
    · obtain hv | rfl := List.mem_or_eq_of_mem_set hv
      · exact hc.sound v hv
      · exact hsound

end State.Inv

theorem validateStep_sound {s : State} (h : s.Inv) (hp : s.phase = .validate) : SoundOutcome (validateStep s) := by
  obtain ⟨e, -, hv⟩ | ⟨hvalid, hadm, hv⟩ | ⟨-, -, hv⟩ := validateStep_cases s <;> rw [hv]
  · exact .next (h.raise hp e)
  · exact .next (h.startCompute hp hvalid hadm)
  · exact .refused _

theorem runCommand_sound {s : State} (h : s.Inv) (hi : s.phase = .idle) (c : Desc) : SoundOutcome (runCommand c s) := by
  obtain ⟨e, -, hrun⟩ | ⟨hvalid, -, hrun⟩ | ⟨-, -, hrun⟩ := runCommand_cases c s <;> rw [hrun]
  · exact .next ((h.issue hi c).raise rfl e)
  · exact .next (h.computed hvalid)
  · exact .refused _

theorem issueStep_sound {s : State} (h : s.Inv) (c : Desc) : SoundOutcome (issueStep c s) := by
  unfold issueStep
  split
  · exact .next (h.issue ‹_› c)
  · exact .next h

/-- The store step: the tile's elements become final, then the worker is STORED (R114, R115). -/
theorem State.Inv.storeWorker {s : State} (h : s.Inv) {p : Nat} {w : Worker} (hw : s.workers[p]? = some w) (hs : w.stage = .accum)
    (hk : w.k = (dimsOf s.cmd.args).k) :
    ((s.setWorker p (markStored w)).withMem (storeMemory s.cfg s.mem s.cmd.args (dimsOf s.cmd.args) w)).Inv := by
  have hp := h.compute_of_worker hw
  have hsound := h.worker_sound hw
  obtain ⟨hwrites, hfinal⟩ := storeMemory_elementWrites (v := elem s.cfg.fp8 s.mem s.cmd.args (dimsOf s.cmd.args))
    ((h.computing hp).ranges.space .c) h.memWf
    (fun e he => hsound.inside_output he) (fun e he => hsound.converted_sum hs hk he) (fun e he hm => (hsound.written e he hm).2)
  have h' := h.withElementWrites hp hwrites
  refine h'.setWorker hw rfl rfl ((h'.worker_sound hw).markStored hs hk fun e he => ?_)
  obtain ⟨hm, hn⟩ := hsound.inside_output he
  exact (hfinal e he).trans (elem_congr (h.computing hp).ranges (hwrites.sameInputs (h.computing hp).ranges) hm hn)

/-- The finer store: one element becomes final, then its entry is marked (R55, R114, R115). -/
theorem State.Inv.storeElement {s : State} (h : s.Inv) {p q : Nat} {w : Worker} {e : AccEntry} (hw : s.workers[p]? = some w)
    (hq : w.acc[q]? = some e) (hs : w.stage = .accum) (hk : w.k = (dimsOf s.cmd.args).k) :
    ((s.setWorker p (markWritten w q)).withMem (storeEntry s.cfg s.cmd.args (dimsOf s.cmd.args) w s.mem e)).Inv := by
  have hp := h.compute_of_worker hw
  have hsound := h.worker_sound hw
  have he : e ∈ w.acc := List.mem_of_getElem? hq
  obtain ⟨hm, hn⟩ := hsound.inside_output he
  obtain ⟨hwrites, hfinal⟩ := storeEntry_elementWrites (v := elem s.cfg.fp8 s.mem s.cmd.args (dimsOf s.cmd.args))
    ((h.computing hp).ranges.space .c) h.memWf hm hn (hsound.converted_sum hs hk he) (fun hmark => (hsound.written e he hmark).2)
  have h' := h.withElementWrites hp hwrites
  refine h'.setWorker hw rfl rfl ((h'.worker_sound hw).markWritten hs hk hq ?_)
  exact hfinal.trans (elem_congr (h.computing hp).ranges (hwrites.sameInputs (h.computing hp).ranges) hm hn)

theorem workerStep_sound {s : State} (h : s.Inv) (p : Nat) : SoundOutcome (workerStep p s) := by
  cases hw : s.workers[p]? with
  | none =>
    rw [workerStep_of_none hw]
    exact .next h
  | some w =>
    have hc := h.computing (h.compute_of_worker hw)
    have hsound := h.worker_sound hw
    cases hs : w.stage with
    | pending =>
      rw [workerStep_pending hw hc.inSpace hs, hc.dims]
      exact .next (h.setWorker hw rfl rfl .startWorker)
    | accum =>
      obtain hk | hk := hsound.counter.lt_or_eq
      · have hacc := hsound.accumulateStep_eq hs
        rw [← hc.dims] at hacc
        rw [workerStep_accumulate hw hc.inSpace hs (hc.dims ▸ hk) hacc, hc.dims]
        exact .next (h.setWorker hw rfl rfl (hsound.advance hs hk))
      · rw [workerStep_store hw hc.inSpace hs (hc.dims ▸ hk), hc.dims]
        exact .next (h.storeWorker hw hs hk)
    | stored =>
      rw [workerStep_stored hw hc.inSpace hs]
      exact .next h

theorem storeElementStep_sound {s : State} (h : s.Inv) (p q : Nat) : SoundOutcome (storeElementStep p q s) := by
  by_cases hready : ∃ w e, s.workers[p]? = some w ∧ w.acc[q]? = some e ∧ w.stage = .accum ∧ w.k = s.shape.dims.k
  · obtain ⟨w, e, hw, hq, hs, hk⟩ := hready
    have hc := h.computing (h.compute_of_worker hw)
    rw [storeElementStep_write hw hq hc.inSpace hs hk, hc.dims]
    exact .next (h.storeElement hw hq hs (hc.dims ▸ hk))
  · rw [storeElementStep_of_not_ready fun w e hw hq hwk => hready ⟨w, e, hw, hq, hwk⟩]
    exact .next h

/-- A host write that is not refused while a command is in COMPUTE lies outside its five byte ranges (R56, R224). -/
theorem ComputeInv.outside_of_not_owned {s : State} (h : ComputeInv s) (hp : s.phase = .compute) {a : Nat}
    (hin : ownedInput s a = false) (hout : ownedOutput s a = false) (y : Buf) : inBuf s.cmd.args (dimsOf s.cmd.args) y a = false := by
  have howns : commandOwnsBuffers s = true := by simp [commandOwnsBuffers, State.busy, hp, h.valid]
  simp only [ownedInput, ownedOutput, howns, Bool.true_and, inputBufs, List.any_eq_false, List.mem_cons, List.not_mem_nil,
    Bool.not_eq_true] at hin hout
  cases y with
  | a => exact hin .a (by simp)
  | b => exact hin .b (by simp)
  | aScale => exact hin .aScale (by simp)
  | bScale => exact hin .bScale (by simp)
  | c => exact hout

/-- Elements of C whose bytes stay, over input bytes that stay, keep their final values. -/
theorem keepsFinal_of_same {fmt : Fp8Format} {x : Args} {d : Dims} {m₁ m₂ : Memory} (g : SoundRanges x d)
    (h : ∀ y a, inBuf x d y a = true → m₁.byte a = m₂.byte a) : KeepsFinal fmt x d m₁ m₂ := by
  intro m n hm hn hfinal
  obtain ⟨hlo, hhi⟩ := addrC_inside (x := x) hm hn
  have hhalf : m₁.half (addrC x d m n) = m₂.half (addrC x d m n) := by
    refine Memory.half_congr (h .c _ ?_) (h .c _ ?_) <;>
      simp only [inBuf_iff, bufArg] <;> omega
  exact hhalf.symm.trans (hfinal.trans (elem_congr g (fun y _ => h y) hm hn))

theorem hostWriteStep_sound {s : State} (h : s.Inv) (a : BitVec 64) (v : Byte) : SoundOutcome (hostWriteStep a v s) := by
  refine ⟨fun t ht => ?_, fun f hf => ?_⟩
  · obtain ⟨-, hin, hout, rfl⟩ := hostWriteStep_cases ht
    refine h.withMem (hostWriteStep_wf ht h.memWf) fun hp => ?_
    have hc := h.computing hp
    have hsame : ∀ y b, inBuf s.cmd.args (dimsOf s.cmd.args) y b = true → s.mem.byte b = (s.mem.setByte a.toNat v).byte b := by
      intro y b hb
      rw [Memory.byte_setByte h.memWf, if_neg]
      rintro rfl
      rw [hc.outside_of_not_owned hp hin hout y] at hb
      cases hb
    exact ⟨fun y _ => hsame y, keepsFinal_of_same hc.ranges hsame⟩
  · unfold hostWriteStep at hf
    split_ifs at hf

theorem sequencerStep_sound {s : State} (h : s.Inv) : SoundOutcome (sequencerStep s) := by
  obtain hseq | ⟨hp, hseq⟩ | ⟨-, -, hseq⟩ := sequencerStep_cases s <;> rw [hseq]
  · exact .next h
  · exact validateStep_sound h hp
  · exact .next h.complete

theorem engineStep_sound {s : State} (h : s.Inv) : SoundOutcome (engineStep s) := by
  obtain ⟨-, heng⟩ | ⟨hp, heng⟩ | ⟨-, p, heng⟩ | ⟨-, -, heng⟩ := engineStep_cases s <;> rw [heng]
  · exact .next h
  · exact validateStep_sound h hp
  · exact workerStep_sound h p
  · exact .next h.complete

theorem takeEvent_sound {e : Event} {s : State} (h : s.Inv) (hport : needsPort e = true → s.phase = .idle) :
    SoundOutcome (takeEvent e s) := by
  cases e with
  | command c =>
    have hrun : takeEvent (.command c) s = runCommand c s := commandStep_idle (hport rfl)
    rw [hrun]
    exact runCommand_sound h (hport rfl) c
  | issue c => exact issueStep_sound h c
  | sequencer => exact sequencerStep_sound h
  | worker p => exact workerStep_sound h p
  | storeElement p q => exact storeElementStep_sound h p q
  | reset => exact .next h.resetEvent
  | hostWrite a v => exact hostWriteStep_sound h a v
  | hostWriteStatus v => exact .next h

/-- Every step from a state that meets the invariant is sound, whatever the agenda asks. -/
theorem step_sound {s : State} (h : s.Inv) : SoundOutcome (step s) := by
  obtain ⟨-, hstep⟩ | ⟨e, rest, -, hport, hstep⟩ := step_cases s <;> rw [hstep]
  · exact engineStep_sound h
  · exact takeEvent_sound (h.withAgenda rest) hport

/-- Settles O25: the step is sound, so its next state meets the invariant. -/
theorem stepKeepsTheInvariant : Obligations.StepKeepsTheInvariant :=
  fun _ t h ht => (step_sound h).inv t ht

/-- Settles O26: the step is sound, so it is no fault. -/
theorem soundStatesNeverFault : Obligations.SoundStatesNeverFault :=
  fun _ r h => (step_sound h).noFault r

/-- Settles O24: at reset the engine is idle over empty memory, with no worker. -/
theorem invariantHoldsAtReset : Obligations.InvariantHoldsAtReset :=
  .of_idle (s := State.reset) (by decide) State.reset_mem_wf (Nat.zero_le 5) (fun _ => rfl) rfl rfl

end Sys2Proof.Machine
end

section
/-! PROOFS. Memory: what `MemRead` and `MemWrite` do, byte by byte (R43, R44). -/

namespace Sys2Proof.Machine

/-- A read is the little-endian number of its bytes (R43). -/
theorem Memory.read_eq_sum (mem : Memory) (a n : Nat) :
    mem.read a n = ∑ i ∈ Finset.range n, (mem.byte (a + i)).toNat * 2 ^ (8 * i) := by
  induction n generalizing a with
  | zero => rfl
  | succ n ih =>
    have hshift : ∀ i, 256 * ((mem.byte (a + 1 + i)).toNat * 2 ^ (8 * i)) = (mem.byte (a + (i + 1))).toNat * 2 ^ (8 * (i + 1)) := by
      intro i
      rw [Nat.add_assoc, Nat.add_comm 1 i]
      ring
    rw [Memory.read, ih, Finset.sum_range_succ', Finset.mul_sum, Finset.sum_congr rfl fun i _ => hshift i]
    simp [Nat.add_comm]

/-- A write leaves every byte outside its range as it was (R44). -/
theorem Memory.byte_write_outside {mem : Memory} {a n v b : Nat} (h : mem.wf = true) (ha : a + n ≤ 2 ^ 64)
    (hb : ¬ (a ≤ b ∧ b < a + n)) : (mem.write a n v).byte b = mem.byte b := by
  induction n generalizing mem a v with
  | zero => rfl
  | succ n ih =>
    rw [Memory.write, ih (Memory.setByte_wf h (by omega)) (by omega) (by omega), Memory.byte_setByte h, if_neg (by omega)]

/-- Byte `i` of the value without its low byte is byte `i + 1` of the value (R10). -/
theorem byte_shift (v i : Nat) : v / 256 / 2 ^ (8 * i) = v / 2 ^ (8 * (i + 1)) := by
  rw [Nat.div_div_eq_div_mul, Nat.mul_succ, Nat.pow_add, Nat.mul_comm 256]

/-- A write puts byte `i` of the value at `a + i` (R44). -/
theorem Memory.byte_write_inside {mem : Memory} {a n v i : Nat} (h : mem.wf = true) (ha : a + n ≤ 2 ^ 64)
    (hi : i < n) : ((mem.write a n v).byte (a + i)).toNat = v / 2 ^ (8 * i) % 256 := by
  induction n generalizing mem a v i with
  | zero => omega
  | succ n ih =>
    have hwf : (mem.setByte a (BitVec.ofNat 8 v)).wf = true := Memory.setByte_wf h (by omega)
    cases i with
    | zero =>
      have hbelow : ¬ (a + 1 ≤ a + 0 ∧ a + 0 < a + 1 + n) := by omega
      rw [Memory.write, Memory.byte_write_outside hwf (by omega) hbelow, Memory.byte_setByte h]
      simp
    | succ i =>
      have hbyte := ih (a := a + 1) (v := v / 256) hwf (by omega) (show i < n by omega)
      rw [Memory.write, ← Nat.add_assoc, Nat.add_right_comm, hbyte, byte_shift]

/-- A read of bytes that hold the bytes of a value gives the value, cut to their number (R43). -/
theorem Memory.read_of_bytes {mem : Memory} {a n v : Nat}
    (h : ∀ i, i < n → (mem.byte (a + i)).toNat = v / 2 ^ (8 * i) % 256) : mem.read a n = v % 2 ^ (8 * n) := by
  induction n generalizing a v with
  | zero => rw [Memory.read, Nat.mul_zero, Nat.pow_zero, Nat.mod_one]
  | succ n ih =>
    have hlow : (mem.byte a).toNat = v % 256 := by simpa using h 0 n.succ_pos
    have hhigh : mem.read (a + 1) n = v / 256 % 2 ^ (8 * n) := by
      refine ih fun i hi => ?_
      rw [Nat.add_right_comm, Nat.add_assoc, h (i + 1) (by omega), byte_shift]
    rw [Memory.read, hlow, hhigh, Nat.mul_succ, Nat.pow_add, Nat.mul_comm (2 ^ (8 * n)), Nat.mod_mul]

/-- Settles O36: the read is the sum of its bytes, and the write puts each byte of the value where the read takes it from. -/
theorem memoryReadsWhatWasWritten : Obligations.MemoryReadsWhatWasWritten := by
  intro mem a n v
  refine ⟨mem.read_eq_sum a n, fun hwf ha => ?_⟩
  have hbytes : ∀ i, i < n → ((mem.write a n v).byte (a + i)).toNat = v / 2 ^ (8 * i) % 256 :=
    fun i hi => Memory.byte_write_inside hwf ha hi
  refine ⟨hbytes, fun b hb => Memory.byte_write_outside hwf ha ?_, Memory.write_wf hwf ha, Memory.read_of_bytes hbytes⟩
  rw [← inRange_iff, hb]
  exact Bool.false_ne_true

end Sys2Proof.Machine
end

section
/-! PROOFS. Addresses: where the accesses of a validated command lie (R45 to R50, R52). -/

namespace Sys2Proof.Machine

/-- Settles O38: the halfwords of two elements lie apart. -/
theorem outputElementsShareNoByte : Obligations.OutputElementsShareNoByte :=
  fun _ _ _ _ _ _ => addrC_apart

section Accesses

variable {x : Args} {d : Dims} {k m n kb nb : Nat}

/-- A byte of A lies inside the byte range of A (R45, R46). -/
theorem addrA_inside (hk : k < d.k) (hm : m < d.m) :
    x.a.base ≤ addrA x d k m ∧ addrA x d k m + 1 ≤ x.a.base + req d .a := by
  have := rowMajor_lt hk hm
  simp only [addrA, req]
  omega

/-- A byte of B lies inside the byte range of B (R45, R47). -/
theorem addrB_inside (hk : k < d.k) (hn : n < d.n) :
    x.b.base ≤ addrB x d k n ∧ addrB x d k n + 1 ≤ x.b.base + req d .b := by
  have := rowMajor_lt hk hn
  simp only [addrB, req]
  omega

/-- A scale word of A lies inside the byte range of A's scales (R45, R48). -/
theorem addrAScale_inside (hkb : kb < d.k / BLOCK) (hm : m < d.m) :
    x.aScale.base ≤ addrAScale x d kb m ∧ addrAScale x d kb m + 4 ≤ x.aScale.base + req d .aScale := by
  have := rowMajor_lt hkb hm
  simp only [addrAScale, req, Nat.mul_assoc]
  omega

/-- A scale word of B lies inside the byte range of B's scales (R45, R49). -/
theorem addrBScale_inside (hkb : kb < d.k / BLOCK) (hnb : nb < d.n / BLOCK) :
    x.bScale.base ≤ addrBScale x d kb nb ∧ addrBScale x d kb nb + 4 ≤ x.bScale.base + req d .bScale := by
  have := rowMajor_lt hkb hnb
  simp only [addrBScale, req, Nat.mul_assoc]
  omega

end Accesses

/-- The base of a buffer of a validated command is aligned (R52, R109). -/
theorem aligned_of_firstError {cfg : Config} {c : Desc} (h : firstError cfg c = none) (y : Buf) :
    (bufArg c.args y).base % alignOf y = 0 := by
  obtain ⟨-, -, -, -, hbufs⟩ := firstError_none.mp h
  obtain ⟨-, -, -, halign⟩ := bufferOk_iff.mp ((buffersOk_iff.mp hbufs).1 y)
  exact halign

/-- Settles O37: each row-major index lies inside its array, and each base is aligned as its elements are. -/
theorem accessesStayInsideTheirBuffers : Obligations.AccessesStayInsideTheirBuffers := by
  intro cfg x k m n hwf hvalid hk hm hn
  have g := soundRanges_of_firstError hvalid
  have halign := aligned_of_firstError hvalid
  rw [encode_args hwf] at g halign
  have hkb : k / 128 < (dimsOf x).k / BLOCK := Nat.div_lt_div_of_lt_of_dvd (Nat.dvd_of_mod_eq_zero g.kal) hk
  have hnb : n / 128 < (dimsOf x).n / BLOCK := Nat.div_lt_div_of_lt_of_dvd (Nat.dvd_of_mod_eq_zero g.nal) hn
  obtain ⟨hasLo, hasHi⟩ := addrAScale_inside (x := x) hkb hm
  obtain ⟨hbsLo, hbsHi⟩ := addrBScale_inside (x := x) hkb hnb
  obtain ⟨hcLo, hcHi⟩ := addrC_inside (x := x) hm hn
  exact ⟨addrA_inside hk hm, addrB_inside hk hn,
    ⟨hasLo, hasHi, (Nat.add_mul_mod_self_left _ 4 _).trans (halign .aScale)⟩,
    ⟨hbsLo, hbsHi, (Nat.add_mul_mod_self_left _ 4 _).trans (halign .bScale)⟩,
    ⟨hcLo, hcHi, (Nat.add_mul_mod_self_left _ 2 _).trans (halign .c)⟩, g.space⟩

end Sys2Proof.Machine
end

section
/-! PROOFS. Host writes (R36): the byte written changes alone, and a byte of the running command's ranges is refused (R56, R224). -/

namespace Sys2Proof.Machine

section HostWrites

variable {s : State}

/-- A command owns its buffers when it is in flight and passes validation (R56, R224). -/
theorem commandOwnsBuffers_iff : commandOwnsBuffers s = true ↔ s.phase ≠ .idle ∧ firstError s.cfg s.cmd = none := by
  simp [commandOwnsBuffers, State.busy]

/-- The bytes the host may not write: those of the five ranges of a validated command in flight (R56, R224). -/
theorem owned_iff {a : Nat} :
    ownedInput s a = true ∨ ownedOutput s a = true ↔
      s.phase ≠ .idle ∧ firstError s.cfg s.cmd = none ∧ ∃ y, inBuf s.cmd.args (dimsOf s.cmd.args) y a = true := by
  rw [ownedInput, ownedOutput, Bool.and_eq_true, Bool.and_eq_true, ← and_or_left, commandOwnsBuffers_iff, and_assoc]
  refine and_congr_right fun _ => and_congr_right fun _ => ?_
  constructor
  · rintro (hin | hout)
    · obtain ⟨y, -, hy⟩ := List.any_eq_true.mp hin
      exact ⟨y, hy⟩
    · exact ⟨.c, hout⟩
  · rintro ⟨y, hy⟩
    cases y with
    | c => exact .inr hy
    | a | b | aScale | bScale => exact .inl (List.any_eq_true.mpr ⟨_, by simp [inputBufs], hy⟩)

/-- A host write to a plain byte that no command owns sets the byte (R36). -/
theorem hostWriteStep_of_not_owned {a : BitVec 64} {v : Byte} (hplain : plainByte s.cfg a.toNat = true)
    (howned : ¬ (ownedInput s a.toNat = true ∨ ownedOutput s a.toNat = true)) :
    hostWriteStep a v s = .next (s.withMem (s.mem.setByte a.toNat v)) := by
  obtain ⟨hin, hout⟩ := not_or.mp howned
  rw [hostWriteStep, if_neg (by simp [hplain]), if_neg hin, if_neg hout]

/-- A host write to a byte that a command owns is refused (R56, R224). -/
theorem hostWriteStep_of_owned {a : BitVec 64} {v : Byte} (howned : ownedInput s a.toNat = true ∨ ownedOutput s a.toNat = true) :
    ∃ r, hostWriteStep a v s = .refused r := by
  unfold hostWriteStep
  split_ifs with hplain hin hout
  · exact ⟨_, rfl⟩
  · exact ⟨_, rfl⟩
  · exact ⟨_, rfl⟩
  · exact absurd howned (not_or.mpr ⟨hin, hout⟩)

/-- A host write at the head of the agenda needs no port: it is taken at once (R36). -/
theorem step_hostWrite {a : BitVec 64} {v : Byte} {rest : List Event} (ha : s.agenda = .hostWrite a v :: rest) :
    step s = hostWriteStep a v { s with agenda := rest } :=
  step_of_agenda ha (by simp [needsPort])

end HostWrites

/-- Settles O13: the write is taken at once; it sets a plain byte that no command owns, and is refused at a byte that one owns. -/
theorem hostWritesRespectTheCommandInFlight : Obligations.HostWritesRespectTheCommandInFlight := by
  intro s a v rest hwf ha
  rw [step_hostWrite ha]
  constructor
  · intro hplain hfree
    refine ⟨_, hostWriteStep_of_not_owned hplain fun howned => ?_, rfl, Memory.byte_setByte hwf a.toNat v⟩
    obtain ⟨hbusy, -, y, hy⟩ := owned_iff.mp howned
    obtain hidle | hout := hfree
    · exact hbusy hidle
    · exact Bool.false_ne_true ((hout y).symm.trans hy)
  · intro hbusy hvalid hin
    exact hostWriteStep_of_owned (owned_iff.mpr ⟨hbusy, hvalid, hin⟩)

end Sys2Proof.Machine
end

section
/-! PROOFS. The encoding (R70 to R79): a little-endian field and its bytes, the two round trips between a descriptor and its 128 bytes,
and the opcode map on those bytes. -/

namespace Sys2Proof

/-- A field read from an offset is read from the bytes that stand there (R70). -/
theorem leNat_drop (bs : List Byte) (k off n : Nat) : leNat (bs.drop k) off n = leNat bs (k + off) n := by
  induction n generalizing off with
  | zero => rfl
  | succ n ih => simp only [leNat, ih, List.getD_eq_getElem?_getD, List.getElem?_drop, Nat.add_assoc]

/-- What stands after a stretch of `n` bytes stands `n` bytes further on. -/
theorem drop_add_of_drop {bs p post : List Byte} {off n : Nat} (h : bs.drop off = p ++ post) (hn : p.length = n) :
    bs.drop (off + n) = post := by
  rw [← List.drop_drop, h, List.drop_left' hn]

/-- A field is read back from its bytes, wherever they stand (R10, R70). -/
theorem ofNat_leNat_of_drop {n w : Nat} (hw : 256 ^ n = 2 ^ w) {bs post : List Byte} {off : Nat} {x : BitVec w}
    (h : bs.drop off = leBytes n x.toNat ++ post) : BitVec.ofNat w (leNat bs off n) = x := by
  rw [← Nat.add_zero off, ← leNat_drop, h, leNat_leBytes, hw, Nat.mod_eq_of_lt x.isLt, BitVec.ofNat_toNat, BitVec.setWidth_eq]

/-- A sub-descriptor is read back from its 24 bytes, wherever they stand (R72). -/
theorem SubDesc.ofBytes_of_drop {bs post : List Byte} {off : Nat} {x : SubDesc} (h : bs.drop off = x.toBytes ++ post) :
    SubDesc.ofBytes bs off = x := by
  simp only [SubDesc.toBytes, List.append_assoc] at h
  have hdim0 := drop_add_of_drop h (leBytes_length 8 _)
  have hdim1 := drop_add_of_drop hdim0 (leBytes_length 4 _)
  have hnbytes := drop_add_of_drop hdim1 (leBytes_length 4 _)
  simp only [SubDesc.ofBytes, ofNat_leNat_of_drop rfl h, ofNat_leNat_of_drop rfl hdim0, ofNat_leNat_of_drop rfl hdim1,
    ofNat_leNat_of_drop rfl hnbytes]

/-- A descriptor is read back from its 128 bytes (R70). -/
theorem Desc.ofBytes_toBytes (d : Desc) : Desc.ofBytes d.toBytes = d := by
  have hopcode : d.toBytes.drop 0 = leBytes 1 d.opcode.toNat ++ (leBytes 7 d.rsvd.toNat ++ (d.a.toBytes ++ (d.b.toBytes ++
      (d.aScale.toBytes ++ (d.bScale.toBytes ++ (d.c.toBytes ++ [])))))) := by
    simp [Desc.toBytes]
  have hrsvd := drop_add_of_drop hopcode (leBytes_length 1 _)
  have ha := drop_add_of_drop hrsvd (leBytes_length 7 _)
  have hb := drop_add_of_drop ha d.a.toBytes_length
  have haScale := drop_add_of_drop hb d.b.toBytes_length
  have hbScale := drop_add_of_drop haScale d.aScale.toBytes_length
  have hc := drop_add_of_drop hbScale d.bScale.toBytes_length
  simp only [Desc.ofBytes, ofNat_leNat_of_drop rfl hopcode, ofNat_leNat_of_drop rfl hrsvd, SubDesc.ofBytes_of_drop ha,
    SubDesc.ofBytes_of_drop hb, SubDesc.ofBytes_of_drop haScale, SubDesc.ofBytes_of_drop hbScale, SubDesc.ofBytes_of_drop hc]

/-- The number in `n` bytes fits them (R10). -/
theorem leNat_lt (bs : List Byte) (off n : Nat) : leNat bs off n < 256 ^ n := by
  induction n generalizing off with
  | zero => exact Nat.one_pos
  | succ n ih =>
    have hbyte := (bs.getD off 0).isLt
    have hrest := ih (off + 1)
    rw [leNat, Nat.pow_succ']
    omega

/-- The bytes of the number that was read from a field are the bytes of the field (R10, R70). -/
theorem leBytes_leNat (bs : List Byte) (off n : Nat) (h : off + n ≤ bs.length) :
    leBytes n (leNat bs off n) = (bs.drop off).take n := by
  induction n generalizing off with
  | zero => rfl
  | succ n ih =>
    have hlt : off < bs.length := by omega
    have hget : bs.getD off 0 = bs[off] := by simp [hlt]
    have hbyte := bs[off].isLt
    have hlow : BitVec.ofNat 8 (leNat bs off (n + 1)) = bs[off] := by
      apply BitVec.eq_of_toNat_eq
      rw [leNat, hget, BitVec.toNat_ofNat]
      omega
    have hhigh : leNat bs off (n + 1) / 256 = leNat bs (off + 1) n := by
      rw [leNat, hget]
      omega
    rw [leBytes, hlow, hhigh, ih (off + 1) (by omega), List.drop_eq_getElem_cons hlt, List.take_succ_cons]

/-- A field keeps every bit of the bytes it was read from (R73). -/
theorem leBytes_ofNat_leNat {n w : Nat} (hw : 256 ^ n = 2 ^ w) (bs : List Byte) (off : Nat) (h : off + n ≤ bs.length) :
    leBytes n (BitVec.ofNat w (leNat bs off n)).toNat = (bs.drop off).take n := by
  rw [BitVec.toNat_ofNat, ← hw, Nat.mod_eq_of_lt (leNat_lt bs off n), leBytes_leNat bs off n h]

/-- Two stretches of bytes that meet are one stretch. -/
theorem take_drop_append_take_drop (bs : List Byte) (off m n : Nat) {mid : Nat} (hmid : off + m = mid) :
    (bs.drop off).take m ++ (bs.drop mid).take n = (bs.drop off).take (m + n) := by
  rw [List.take_add, List.drop_drop, hmid]

/-- A sub-descriptor keeps every bit of its 24 bytes (R72, R73). -/
theorem SubDesc.toBytes_ofBytes (bs : List Byte) (off : Nat) (h : off + 24 ≤ bs.length) :
    (SubDesc.ofBytes bs off).toBytes = (bs.drop off).take 24 := by
  simp only [SubDesc.toBytes, SubDesc.ofBytes]
  rw [leBytes_ofNat_leNat rfl bs off (by omega), leBytes_ofNat_leNat rfl bs (off + 8) (by omega),
    leBytes_ofNat_leNat rfl bs (off + 12) (by omega), leBytes_ofNat_leNat rfl bs (off + 16) (by omega),
    take_drop_append_take_drop bs off 8 4 rfl, take_drop_append_take_drop bs off 12 4 rfl,
    take_drop_append_take_drop bs off 16 8 rfl]

/-- A descriptor keeps every bit of its 128 bytes (R70, R73). -/
theorem Desc.toBytes_ofBytes {bs : List Byte} (h : bs.length = 128) : (Desc.ofBytes bs).toBytes = bs := by
  simp only [Desc.toBytes, Desc.ofBytes]
  rw [leBytes_ofNat_leNat rfl bs 0 (by omega), leBytes_ofNat_leNat rfl bs 1 (by omega),
    SubDesc.toBytes_ofBytes bs 8 (by omega), SubDesc.toBytes_ofBytes bs 32 (by omega),
    SubDesc.toBytes_ofBytes bs 56 (by omega), SubDesc.toBytes_ofBytes bs 80 (by omega),
    SubDesc.toBytes_ofBytes bs 104 (by omega),
    take_drop_append_take_drop bs 0 1 7 rfl, take_drop_append_take_drop bs 0 8 24 rfl,
    take_drop_append_take_drop bs 0 32 24 rfl, take_drop_append_take_drop bs 0 56 24 rfl,
    take_drop_append_take_drop bs 0 80 24 rfl, take_drop_append_take_drop bs 0 104 24 rfl,
    List.drop_zero, List.take_of_length_le h.le]

/-- The operands read from a field group fit it: they are its bits (R72, R73). -/
theorem SubDesc.args_wf (x : SubDesc) : x.args.wf = true := by
  simp only [BufArg.wf, Bool.and_eq_true, decide_eq_true_eq]
  exact ⟨⟨⟨x.base.isLt, x.dim0.isLt⟩, x.dim1.isLt⟩, x.nbytes.isLt⟩

/-- The sub-descriptor of the operands read from one is that one (R72, R73). -/
theorem SubDesc.args_sub (x : SubDesc) : x.args.sub = x := by
  simp [BufArg.sub, SubDesc.args]

/-- Any operands read from a descriptor fit one (R70, R73). -/
theorem Desc.args_wf (d : Desc) : d.args.wf = true := by
  simp [Args.wf, Desc.args, SubDesc.args_wf]

/-- An encoded command passes check 1 (R75, R76, R79). -/
theorem legalCommand_encode (i : Instr) : Machine.legalCommand (encode i) = true := by
  cases i; rfl

/-- A legal descriptor is the encoding of its operands (R73, R79). -/
theorem encode_args_of_legal {c : Desc} (h : Machine.legalCommand c = true) : encode (.gemm c.args) = c := by
  simp only [Machine.legalCommand, Bool.and_eq_true, decide_eq_true_eq] at h
  obtain ⟨hopcode, hrsvd⟩ := h
  simp only [encode, Desc.args, SubDesc.args_sub, ← hopcode, ← hrsvd]

/-- What the decoder answers: the command of a legal descriptor, or the refusal by name of one that is not (R75, R76). -/
theorem decodeDesc_cases (c : Desc) :
    (c.opcode ≠ 0x01#8 ∧ decodeDesc c = .error .illegalOpcode) ∨
    (c.opcode = 0x01#8 ∧ c.rsvd ≠ 0#56 ∧ decodeDesc c = .error .reservedNotZero) ∨
    (c.opcode = 0x01#8 ∧ c.rsvd = 0#56 ∧ decodeDesc c = .ok (.gemm c.args)) := by
  unfold decodeDesc
  split_ifs with hopcode hrsvd
  · exact .inl ⟨hopcode, rfl⟩
  · exact .inr (.inl ⟨not_not.mp hopcode, hrsvd, rfl⟩)
  · exact .inr (.inr ⟨not_not.mp hopcode, not_not.mp hrsvd, rfl⟩)

/-- A descriptor decodes to a command exactly when the command fits and encodes to that descriptor (R70, R73, R79). -/
theorem decodeDesc_eq_ok_iff {c : Desc} {i : Instr} : decodeDesc c = .ok i ↔ i.wf = true ∧ encode i = c := by
  constructor
  · intro h
    obtain ⟨-, h'⟩ | ⟨-, -, h'⟩ | ⟨-, -, h'⟩ := decodeDesc_cases c <;> rw [h] at h' <;> cases h'
    exact ⟨c.args_wf, encode_args_of_legal ((Machine.decodeDesc_legal c).mp h)⟩
  · rintro ⟨hwf, rfl⟩
    obtain ⟨x⟩ := i
    have h := (Machine.decodeDesc_legal _).mpr (legalCommand_encode (.gemm x))
    rwa [encode_args hwf] at h

/-- A string of bytes decodes to a command exactly when the command fits the descriptor and encodes to that string (R70, R73, R79). -/
theorem decodeBytes_eq_ok_iff {bs : List Byte} {i : Instr} : decodeBytes bs = .ok i ↔ i.wf = true ∧ encodeBytes i = bs := by
  constructor
  · intro h
    unfold decodeBytes at h
    split_ifs at h with hlen
    obtain ⟨hwf, henc⟩ := decodeDesc_eq_ok_iff.mp h
    exact ⟨hwf, by rw [encodeBytes, henc, Desc.toBytes_ofBytes hlen]⟩
  · rintro ⟨hwf, rfl⟩
    rw [decodeBytes, encodeBytes, if_pos (encode i).toBytes_length, Desc.ofBytes_toBytes]
    exact decodeDesc_eq_ok_iff.mpr ⟨hwf, rfl⟩

/-- Settles O2: the bytes of an encoded command read back as its descriptor, and the descriptor's fields as its operands. -/
theorem decodeInvertsEncode : Obligations.DecodeInvertsEncode :=
  fun _ hwf => decodeBytes_eq_ok_iff.mpr ⟨hwf, rfl⟩

/-- Settles O3: a descriptor keeps every bit of its bytes, and a legal one is the encoding of its operands. -/
theorem encodeInvertsDecode : Obligations.EncodeInvertsDecode :=
  fun _ _ h => decodeBytes_eq_ok_iff.mp h

/-- A field is zero exactly when all its bytes are. -/
theorem leNat_eq_zero_iff {bs : List Byte} {off n : Nat} :
    leNat bs off n = 0 ↔ ∀ j, off ≤ j → j < off + n → bs.getD j 0 = 0#8 := by
  induction n generalizing off with
  | zero => simp only [leNat, true_iff]; omega
  | succ n ih =>
    have hbyte : (bs.getD off 0).toNat = 0 ↔ bs.getD off 0 = 0#8 := BitVec.toNat_inj (y := 0#8)
    rw [leNat, Nat.add_eq_zero_iff, hbyte, Nat.mul_eq_zero, or_iff_right (by decide), ih]
    constructor
    · rintro ⟨hfirst, hrest⟩ j hle hlt
      obtain rfl | hne := eq_or_ne off j
      · exact hfirst
      · exact hrest j (by omega) (by omega)
    · exact fun h => ⟨h off le_rfl (by omega), fun j hle hlt => h j (by omega) (by omega)⟩

/-- The opcode of a descriptor is its byte 0 (R70). -/
theorem Desc.ofBytes_opcode (bs : List Byte) : (Desc.ofBytes bs).opcode = bs.getD 0 0 := by
  simp [Desc.ofBytes, leNat]

/-- The reserved field of a descriptor is zero exactly when its bytes 1 to 7 are (R70, R76). -/
theorem Desc.ofBytes_rsvd_eq_zero_iff {bs : List Byte} :
    (Desc.ofBytes bs).rsvd = 0#56 ↔ ∀ j, 1 ≤ j → j ≤ 7 → bs.getD j 0 = 0#8 := by
  have hlt : leNat bs 1 7 < 2 ^ 56 := leNat_lt bs 1 7
  have hfield : (Desc.ofBytes bs).rsvd = 0#56 ↔ leNat bs 1 7 = 0 := by
    rw [← BitVec.toNat_inj, Desc.ofBytes, BitVec.toNat_ofNat, Nat.mod_eq_of_lt hlt]
    rfl
  rw [hfield, leNat_eq_zero_iff]
  exact forall_congr' fun j => imp_congr_right fun _ => imp_congr_left Nat.lt_succ_iff

/-- Settles O4: the three outcomes of the decoder, with its conditions read on the bytes. -/
theorem opcodeMapOnBytes : Obligations.OpcodeMapOnBytes := by
  intro bs hlen
  have hdecode : decodeBytes bs = decodeDesc (Desc.ofBytes bs) := if_pos hlen
  have hsome : (∃ j, 1 ≤ j ∧ j ≤ 7 ∧ bs.getD j 0 ≠ 0#8) ↔ (Desc.ofBytes bs).rsvd ≠ 0#56 := by
    rw [Ne, Desc.ofBytes_rsvd_eq_zero_iff]
    push Not
    rfl
  rw [hdecode, hsome, ← Desc.ofBytes_rsvd_eq_zero_iff, ← Desc.ofBytes_opcode]
  obtain ⟨hopcode, h⟩ | ⟨hopcode, hrsvd, h⟩ | ⟨hopcode, hrsvd, h⟩ := decodeDesc_cases (Desc.ofBytes bs)
  · simp [h, hopcode]
  · simp [h, hopcode, hrsvd]
  · simp [h, hopcode, hrsvd]

/-- Settles O1: each listed string of bytes is the encoding of its command, and each other one fails the opcode map. -/
theorem specDescriptorsDecode : Obligations.SpecDescriptorsDecode := by
  refine ⟨decodeBytes_eq_ok_iff.mpr ⟨?_, ?_⟩, decodeBytes_eq_ok_iff.mpr ⟨?_, ?_⟩, ?_, ?_, ?_⟩
  · decide
  · decide
  · decide
  · decide
  · exact (opcodeMapOnBytes _ rfl).1.mpr (by decide)
  · exact (opcodeMapOnBytes _ rfl).1.mpr (by decide)
  · exact (opcodeMapOnBytes _ rfl).2.1.mpr ⟨rfl, 1, by decide⟩

end Sys2Proof
end

section
/-! PROOFS. The pseudo-command `GEMM.MNK` (R79) and the completion of a descriptor that is no command (R75, R76, R105, R195). -/

namespace Sys2Proof.Machine

/-- The operands that `GEMM.MNK` expands to (R79). -/
theorem gemmMNK_eq_some_iff {d : Dims} {a b aScale bScale c : Nat} {x : Args} :
    gemmMNK d a b aScale bScale c = some (.gemm x) ↔ blockAligned d = true ∧
      x = ⟨⟨a, d.k, d.m, req d .a⟩, ⟨b, d.k, d.n, req d .b⟩, ⟨aScale, d.k / BLOCK, d.m, req d .aScale⟩,
        ⟨bScale, d.k / BLOCK, d.n / BLOCK, req d .bScale⟩, ⟨c, d.m, d.n, req d .c⟩⟩ := by
  rw [blockAligned_iff, gemmMNK, Option.ite_none_right_eq_some, Option.some_inj, Instr.gemm.injEq]
  exact and_congr_right fun _ => eq_comm

/-- `GEMM.MNK` is defined exactly on block-aligned dimensions (R79, R106). -/
theorem gemmMNK_isSome {d : Dims} {a b aScale bScale c : Nat} :
    (gemmMNK d a b aScale bScale c).isSome = true ↔ d.k % 128 = 0 ∧ d.n % 128 = 0 := by
  unfold gemmMNK
  split_ifs with h
  · exact iff_of_true rfl h
  · exact iff_of_false Bool.false_ne_true h

/-- Settles O5: the expansion's operands are the dimensions, the block counts and the required sizes that the checks ask for. -/
theorem mnkExpansionIsConsistent : Obligations.MnkExpansionIsConsistent := by
  intro d a b aScale bScale c
  refine ⟨gemmMNK_isSome, fun x hx => ?_⟩
  obtain ⟨haligned, rfl⟩ := gemmMNK_eq_some_iff.mp hx
  refine ⟨rfl, haligned, fun hm hn hk => ?_, fun y => ?_⟩
  · simp [shapeConsistent, hm, hn, hk]
  · cases y <;> rfl

/-- A descriptor with another opcode or a set reserved bit fails check 1, whatever the configuration (R75, R76, R105). -/
theorem firstError_of_not_legal {cfg : Config} {c : Desc} (h : c.opcode ≠ 0x01#8 ∨ c.rsvd ≠ 0#56) :
    firstError cfg c = some .illegalCommand := by
  obtain ⟨-, herr⟩ | ⟨-, -, herr⟩ | ⟨hopcode, hrsvd, -⟩ := decodeDesc_cases c
  · exact firstError_of_decode_error herr
  · exact firstError_of_decode_error herr
  · exact absurd h (not_or.mpr ⟨not_not.mpr hopcode, not_not.mpr hrsvd⟩)

/-- A command at the head of an idle engine's agenda is taken and run whole (R100, R101). -/
theorem step_command_idle {s : State} {c : Desc} {rest : List Event} (hidle : s.phase = .idle)
    (ha : s.agenda = .command c :: rest) : step s = runCommand c { s with agenda := rest } :=
  (step_of_agenda ha fun _ => hidle).trans (commandStep_idle hidle)

/-- Settles O7: the command runs whole and its first failing check is check 1, which issues it and raises code 1. -/
theorem illegalDescriptorCompletesWithCodeOne : Obligations.IllegalDescriptorCompletesWithCodeOne := by
  intro s c rest hidle ha hillegal
  rw [step_command_idle hidle ha, runCommand_of_error (firstError_of_not_legal hillegal)]
  rfl

end Sys2Proof.Machine
end

section
/-! PROOFS. What an FP8 byte denotes (R80 to R82), from the numbers in its three fields. -/

namespace Sys2Proof.Machine

/-- The number a finite class value denotes (R13). -/
@[simp] theorem ClassVal.val_fin (s : Bool) (m : Nat) (x : Int) :
    (ClassVal.fin s m x).val = (if s then -1 else 1) * m * 2 ^ x := by
  cases s <;> simp [ClassVal.val, ClassVal.exact, Exact.toRat]

/-- A zero of either sign denotes 0 (R13). -/
@[simp] theorem ClassVal.val_zero (s : Bool) : (ClassVal.zero s).val = 0 := by
  simp [ClassVal.val, ClassVal.exact, Exact.toRat]

/-- The significand of a normal FP8 number with its hidden bit: `8 + T` at the exponent of the last bit is `1 + T/8` at that of the first (R81, R82). -/
theorem normal_significand (sgn : ℚ) (t : Nat) (x : Int) :
    sgn * ((8 + t : Nat) : ℚ) * 2 ^ (x - 3) = sgn * (1 + t / 8) * 2 ^ x := by
  rw [zpow_sub₀ two_ne_zero]
  push_cast
  ring

/-- The number of sign `s`, exponent field `e` and mantissa `t` under a bias: subnormal for `e = 0`, normal otherwise (R81, R82). -/
def fp8Number (bias : Int) (s : Bool) (e t : Nat) : ClassVal :=
  if e = 0 then .fin s t (-2 - bias) else .fin s (8 + t) ((e : Int) - (bias + 3))

theorem fp8Number_isFinite (bias : Int) (s : Bool) (e t : Nat) : (fp8Number bias s e t).isFinite = true := by
  unfold fp8Number
  split_ifs <;> rfl

theorem fp8Number_ne_nan (bias : Int) (s : Bool) (e t : Nat) : fp8Number bias s e t ≠ .nan := by
  unfold fp8Number
  split_ifs <;> simp

theorem fp8Number_ne_zero (bias : Int) (s : Bool) (e t : Nat) (z : Bool) : fp8Number bias s e t ≠ .zero z := by
  unfold fp8Number
  split_ifs <;> simp

theorem fp8Number_val (bias : Int) (s : Bool) (e t : Nat) :
    (fp8Number bias s e t).val = if e = 0 then (if s then -1 else 1) * (t : ℚ) * 2 ^ (-2 - bias)
      else (if s then -1 else 1) * (1 + (t : ℚ) / 8) * 2 ^ ((e : Int) - bias) := by
  by_cases he : e = 0
  · simp only [fp8Number, if_pos he, ClassVal.val_fin]
  · simp only [fp8Number, if_neg he, ClassVal.val_fin, ← sub_sub, normal_significand]

/-- The layout of an FP8 byte: sign, exponent field and mantissa field side by side (R80). -/
theorem fp8_layout (b : Byte) :
    b.toNat = 128 * (b.getLsbD 7).toNat + 8 * (b.extractLsb' 3 4).toNat + (b.extractLsb' 0 3).toNat := by
  have hb := b.isLt
  have hsign : (b.getLsbD 7).toNat = b.toNat / 128 := by
    rw [BitVec.getLsbD, Nat.toNat_testBit]
    omega
  rw [hsign, BitVec.extractLsb'_toNat, BitVec.extractLsb'_toNat, Nat.shiftRight_eq_div_pow, Nat.shiftRight_zero]
  omega

section Fields

variable {b : Byte} {e t : Nat} (he : e = (b.extractLsb' 3 4).toNat) (ht : t = (b.extractLsb' 0 3).toNat)
include he ht

/-- A byte is given by its three fields (R80). -/
theorem fp8_eq_iff (c : Byte) :
    b = c ↔ b.getLsbD 7 = c.getLsbD 7 ∧ e = (c.extractLsb' 3 4).toNat ∧ t = (c.extractLsb' 0 3).toNat := by
  constructor
  · rintro rfl
    exact ⟨rfl, he, ht⟩
  · rintro ⟨hs, he', ht'⟩
    rw [← BitVec.toNat_inj, fp8_layout b, fp8_layout c, hs, ← he, ← ht, he', ht']

/-- The bytes of the exponent field 15 and the mantissa 7, the two NaNs of E4M3FN (R82). -/
theorem fp8_top_fields_iff : e = 15 ∧ t = 7 ↔ b = 0x7F#8 ∨ b = 0xFF#8 := by
  rw [fp8_eq_iff he ht, fp8_eq_iff he ht]
  cases b.getLsbD 7 <;> simp

/-- The byte of a zero exponent field and a zero mantissa, by its sign (R81, R82). -/
theorem fp8_zero_fields_iff : e = 0 ∧ t = 0 ↔ b = 0x00#8 ∨ b = 0x80#8 := by
  rw [fp8_eq_iff he ht, fp8_eq_iff he ht]
  cases b.getLsbD 7 <;> simp

/-- The classes of E4M3FNUZ: one NaN, one zero, and numbers of bias 8 (R81). -/
theorem fp8dec_e4m3fnuz_cases :
    (b = 0x80#8 ∧ fp8dec .e4m3fnuz b = .nan) ∨ (b = 0x00#8 ∧ fp8dec .e4m3fnuz b = .zero false) ∨
    (b ≠ 0x80#8 ∧ b ≠ 0x00#8 ∧ fp8dec .e4m3fnuz b = fp8Number 8 (b.getLsbD 7) e t) := by
  by_cases hnan : b = 0x80#8
  · exact .inl ⟨hnan, by simp [fp8dec, hnan]⟩
  by_cases hzero : b = 0x00#8
  · exact .inr (.inl ⟨hzero, by simp [fp8dec, hzero]⟩)
  refine .inr (.inr ⟨hnan, hzero, ?_⟩)
  simp only [fp8dec, hnan, hzero, if_false, ← he, ← ht]
  rfl

/-- The classes of E4M3FN: two NaNs, a zero of each sign, and numbers of bias 7 (R82). -/
theorem fp8dec_e4m3fn_cases :
    ((b = 0x7F#8 ∨ b = 0xFF#8) ∧ fp8dec .e4m3fn b = .nan) ∨
    ((b = 0x00#8 ∨ b = 0x80#8) ∧ fp8dec .e4m3fn b = .zero (b.getLsbD 7)) ∨
    (¬ (b = 0x7F#8 ∨ b = 0xFF#8) ∧ ¬ (b = 0x00#8 ∨ b = 0x80#8) ∧ fp8dec .e4m3fn b = fp8Number 7 (b.getLsbD 7) e t) := by
  rw [← fp8_top_fields_iff he ht, ← fp8_zero_fields_iff he ht]
  by_cases hnan : e = 15 ∧ t = 7
  · exact .inl ⟨hnan, by simp [fp8dec, ← he, ← ht, hnan]⟩
  by_cases hzero : e = 0 ∧ t = 0
  · exact .inr (.inl ⟨hzero, by simp [fp8dec, ← he, ← ht, hzero]⟩)
  refine .inr (.inr ⟨hnan, hzero, ?_⟩)
  simp only [fp8dec, ← he, ← ht, hnan, hzero, if_false]
  rfl

/-- What a byte denotes in E4M3FNUZ (R81). -/
theorem fp8dec_e4m3fnuz_denotes :
    (fp8dec .e4m3fnuz b = .nan ↔ b = 0x80#8) ∧ (fp8dec .e4m3fnuz b = .zero false ↔ b = 0x00#8) ∧
    (b ≠ 0x80#8 → (fp8dec .e4m3fnuz b).isFinite = true ∧ (fp8dec .e4m3fnuz b).val = (fp8Number 8 (b.getLsbD 7) e t).val) := by
  obtain ⟨rfl, h⟩ | ⟨hb, h⟩ | ⟨hnan, hzero, h⟩ := fp8dec_e4m3fnuz_cases he ht
  · simp [h]
  · obtain ⟨rfl, rfl⟩ := (fp8_zero_fields_iff he ht).mpr (.inl hb)
    subst hb
    simp [h, ClassVal.isFinite, fp8Number_val]
  · simp [h, hnan, hzero, fp8Number_ne_nan, fp8Number_ne_zero, fp8Number_isFinite]

/-- What a byte denotes in E4M3FN (R82). -/
theorem fp8dec_e4m3fn_denotes :
    (fp8dec .e4m3fn b = .nan ↔ b = 0x7F#8 ∨ b = 0xFF#8) ∧ (fp8dec .e4m3fn b = .zero false ↔ b = 0x00#8) ∧
    (fp8dec .e4m3fn b = .zero true ↔ b = 0x80#8) ∧
    (b ≠ 0x7F#8 → b ≠ 0xFF#8 →
      (fp8dec .e4m3fn b).isFinite = true ∧ (fp8dec .e4m3fn b).val = (fp8Number 7 (b.getLsbD 7) e t).val) := by
  obtain ⟨rfl | rfl, h⟩ | ⟨hb, h⟩ | ⟨hnan, hzero, h⟩ := fp8dec_e4m3fn_cases he ht
  · simp [h]
  · simp [h]
  · obtain ⟨rfl, rfl⟩ := (fp8_zero_fields_iff he ht).mpr hb
    obtain rfl | rfl := hb
    · simp [h, ClassVal.isFinite, fp8Number_val]
    · simp [h, ClassVal.isFinite, fp8Number_val]
  · obtain ⟨hpos, hneg⟩ := not_or.mp hzero
    simp [h, hnan, hpos, hneg, fp8Number_ne_nan, fp8Number_ne_zero, fp8Number_isFinite]

end Fields

/-- Settles O39: each variant's classes, with the value of the number that the fields spell under its bias. -/
theorem fp8ByteDenotes : Obligations.Fp8ByteDenotes := by
  intro b e t he ht sgn hsgn
  obtain ⟨hnan8, hzero8, hval8⟩ := fp8dec_e4m3fnuz_denotes he ht
  obtain ⟨hnan7, hpos7, hneg7, hval7⟩ := fp8dec_e4m3fn_denotes he ht
  rw [fp8Number_val, ← hsgn] at hval8 hval7
  exact ⟨hnan8, hzero8, hval8, hnan7, hpos7, hneg7, hval7⟩

end Sys2Proof.Machine
end

section
/-! PROOFS. One command over a whole schedule: what a computing engine's memory may be, and what the engine's steps keep of it
(R100, R110 to R118). -/

namespace Sys2Proof.Machine

namespace ElementWrites

variable {x : Args} {d : Dims} {v v' : Nat → Nat → Half} {m₁ m₂ m₃ : Memory}

/-- The values that element writes give matter inside (M, N) alone. -/
theorem congr_values (h : ElementWrites x d v m₁ m₂) (hv : ∀ m n, m < d.m → n < d.n → v m n = v' m n) :
    ElementWrites x d v' m₁ m₂ where
  wf := h.wf
  outside := h.outside
  element m n hm hn := hv m n hm hn ▸ h.element m n hm hn

/-- Element writes leave the final values as they were at issue: those depend on the inputs alone (R115, R69). -/
theorem elem_eq (g : SoundRanges x d) (h : ElementWrites x d v m₁ m₂) {fmt : Fp8Format} {m n : Nat} (hm : m < d.m) (hn : n < d.n) :
    elem fmt m₂ x d m n = elem fmt m₁ x d m n :=
  (elem_congr g (h.sameInputs g) hm hn).symm

/-- Element writes that leave every element final give one memory, whatever their order (R60, R116). -/
theorem eq_of_final (h₂ : ElementWrites x d v m₁ m₂) (h₃ : ElementWrites x d v m₁ m₃)
    (hf₂ : ∀ m n, m < d.m → n < d.n → m₂.half (addrC x d m n) = v m n)
    (hf₃ : ∀ m n, m < d.m → n < d.n → m₃.half (addrC x d m n) = v m n) : m₂ = m₃ := by
  refine Memory.ext h₂.wf h₃.wf fun a => ?_
  cases hin : inBuf x d .c a with
  | false => rw [h₂.outside a hin, h₃.outside a hin]
  | true =>
    obtain ⟨m, n, hm, hn, haddr⟩ := exists_element_of_inBuf_c hin
    obtain ⟨hlow, hhigh⟩ := Memory.half_eq_iff.mp ((hf₂ m n hm hn).trans (hf₃ m n hm hn).symm)
    obtain rfl | rfl := haddr
    · exact hlow
    · exact hhigh

end ElementWrites

/-- Every element of a tile has an entry in the tile's accumulator file (R27, R111). -/
theorem exists_mem_initAcc {cfg : Config} {d : Dims} {w : Worker} {m n : Nat}
    (hm : w.ti * cfg.tileM ≤ m) (hm' : m < min d.m ((w.ti + 1) * cfg.tileM))
    (hn : w.tj * cfg.tileN ≤ n) (hn' : n < min d.n ((w.tj + 1) * cfg.tileN)) :
    ∃ e ∈ initAcc cfg d w, rowIndex cfg w e.i = m ∧ colIndex cfg w e.j = n := by
  rw [Nat.succ_mul, lt_min_iff] at hm' hn'
  refine ⟨⟨m - w.ti * cfg.tileM, n - w.tj * cfg.tileN, accInit, false⟩, ?_, Nat.add_sub_cancel' hm, Nat.add_sub_cancel' hn⟩
  simp only [initAcc, List.mem_flatMap, List.mem_map, List.mem_range]
  refine ⟨m - w.ti * cfg.tileM, ?_, n - w.tj * cfg.tileN, ?_, rfl⟩
  · simp only [rowsOf]; omega
  · simp only [colsOf]; omega

/-- Every element of C is one of a sound worker's tile, and of an entry of its file once it has started (R26, R27). -/
theorem ComputeInv.exists_entry {s : State} (h : ComputeInv s) (hcfg : s.cfg.wf = true) (hstarted : ∀ w ∈ s.workers, w.stage ≠ .pending)
    {m n : Nat} (hm : m < (dimsOf s.cmd.args).m) (hn : n < (dimsOf s.cmd.args).n) :
    ∃ w ∈ s.workers, ∃ e ∈ w.acc, rowIndex s.cfg w e.i = m ∧ colIndex s.cfg w e.j = n := by
  obtain ⟨⟨ti, tj⟩, ⟨htile, hrow, hrow', hcol, hcol'⟩, -⟩ := (tilesPartitionTheOutput s.cfg (dimsOf s.cmd.args) hcfg).2 m n hm hn
  rw [← h.tileSet] at htile
  obtain ⟨w, hw, hwt⟩ := List.mem_map.mp htile
  cases hwt
  obtain ⟨e, he, hei, hej⟩ := exists_mem_initAcc hrow hrow' hcol hcol'
  have hpos : e.pos ∈ w.acc.map AccEntry.pos := by
    rw [(h.sound w hw).file (hstarted w hw)]
    exact List.mem_map_of_mem he
  obtain ⟨e', he', hpos'⟩ := List.mem_map.mp hpos
  obtain ⟨hi, hj⟩ := Prod.mk.inj hpos'
  exact ⟨w, hw, e', he', hi ▸ hei, hj ▸ hej⟩

theorem allStored_iff {ws : List Worker} : allStored ws = true ↔ ∀ w ∈ ws, w.stage = .stored := by
  simp [allStored]

/-- When every worker is STORED every element of C is final (R114, R116). -/
theorem ComputeInv.all_final {s : State} (h : ComputeInv s) (hcfg : s.cfg.wf = true) (hstored : allStored s.workers = true)
    {m n : Nat} (hm : m < (dimsOf s.cmd.args).m) (hn : n < (dimsOf s.cmd.args).n) :
    s.mem.half (addrC s.cmd.args (dimsOf s.cmd.args) m n) = elem s.cfg.fp8 s.mem s.cmd.args (dimsOf s.cmd.args) m n := by
  rw [allStored_iff] at hstored
  obtain ⟨w, hw, e, he, rfl, rfl⟩ := h.exists_entry hcfg (fun w hw => by simp [hstored w hw]) hm hn
  obtain ⟨-, hwritten⟩ := (h.sound w hw).stored (hstored w hw)
  exact ((h.sound w hw).written e he (hwritten e he)).2

/-- The store step of a sound worker writes the final value of every element of its tile (R114, R115). -/
theorem State.Inv.storeMemory_writes {s : State} (h : s.Inv) {p : Nat} {w : Worker} (hw : s.workers[p]? = some w) (hs : w.stage = .accum)
    (hk : w.k = (dimsOf s.cmd.args).k) :
    ElementWrites s.cmd.args (dimsOf s.cmd.args) (elem s.cfg.fp8 s.mem s.cmd.args (dimsOf s.cmd.args)) s.mem
        (storeMemory s.cfg s.mem s.cmd.args (dimsOf s.cmd.args) w) ∧
      ∀ e ∈ w.acc, (storeMemory s.cfg s.mem s.cmd.args (dimsOf s.cmd.args) w).half
          (addrC s.cmd.args (dimsOf s.cmd.args) (rowIndex s.cfg w e.i) (colIndex s.cfg w e.j)) =
        elem s.cfg.fp8 s.mem s.cmd.args (dimsOf s.cmd.args) (rowIndex s.cfg w e.i) (colIndex s.cfg w e.j) :=
  have hsound := h.worker_sound hw
  storeMemory_elementWrites ((h.computing (h.compute_of_worker hw)).ranges.space .c) h.memWf
    (fun _ he => hsound.inside_output he) (fun _ he => hsound.converted_sum hs hk he) (fun e he hm => (hsound.written e he hm).2)

/-- The finer store of a sound worker writes the final value of its element (R55, R114, R115). -/
theorem State.Inv.storeEntry_writes {s : State} (h : s.Inv) {p q : Nat} {w : Worker} {e : AccEntry} (hw : s.workers[p]? = some w)
    (hq : w.acc[q]? = some e) (hs : w.stage = .accum) (hk : w.k = (dimsOf s.cmd.args).k) :
    ElementWrites s.cmd.args (dimsOf s.cmd.args) (elem s.cfg.fp8 s.mem s.cmd.args (dimsOf s.cmd.args)) s.mem
        (storeEntry s.cfg s.cmd.args (dimsOf s.cmd.args) w s.mem e) ∧
      (storeEntry s.cfg s.cmd.args (dimsOf s.cmd.args) w s.mem e).half
          (addrC s.cmd.args (dimsOf s.cmd.args) (rowIndex s.cfg w e.i) (colIndex s.cfg w e.j)) =
        elem s.cfg.fp8 s.mem s.cmd.args (dimsOf s.cmd.args) (rowIndex s.cfg w e.i) (colIndex s.cfg w e.j) := by
  have hsound := h.worker_sound hw
  have he : e ∈ w.acc := List.mem_of_getElem? hq
  obtain ⟨hm, hn⟩ := hsound.inside_output he
  exact storeEntry_elementWrites ((h.computing (h.compute_of_worker hw)).ranges.space .c) h.memWf hm hn
    (hsound.converted_sum hs hk he) (fun hmark => (hsound.written e he hmark).2)

/-- The state in COMPUTE of the command `c` issued in `s`, with these workers and this memory (R110). -/
def State.inCompute (c : Desc) (ws : List Worker) (mem : Memory) (s : State) : State :=
  { (s.issue c).startCompute with workers := ws, mem := mem }

/-- Completion forgets the workers, so over the memory of the whole command it gives the state of the whole command (R118). -/
theorem State.complete_inCompute (c : Desc) (ws : List Worker) (s : State) :
    (s.inCompute c ws (gemmMemory s.cfg s.mem c.args (dimsOf c.args))).complete = (s.issue c).startCompute.computeAll := by
  rw [State.computeAll, State.startCompute_shape, State.issue_cmd, dimsOf_latch]
  rfl

/-- The states of the command `c` issued in `s`, over every schedule of the engine's agents: waiting for validation, rejected,
computing with some elements of C final, or completed (R36, R117). -/
inductive CommandAt (s : State) (c : Desc) : State → Prop
  | issued : CommandAt s c (s.issue c)
  | rejected {e : ErrorCode} (herr : firstError s.cfg c = some e) : CommandAt s c ((s.issue c).raise e)
  | computing (ws : List Worker) {mem : Memory}
      (hmem : ElementWrites c.args (dimsOf c.args) (elem s.cfg.fp8 s.mem c.args (dimsOf c.args)) s.mem mem) :
      CommandAt s c (s.inCompute c ws mem)
  | completed (hvalid : firstError s.cfg c = none) (hadm : launchAdmitted s.cfg c.args (dimsOf c.args) = true) :
      CommandAt s c (s.issue c).startCompute.computeAll

namespace CommandAt

variable {s t t' : State} {c : Desc}

/-- The command does not read the agenda. -/
theorem withAgenda (h : CommandAt s c t) (es : List Event) : CommandAt { s with agenda := es } c { t with agenda := es } := by
  cases h with
  | issued => exact .issued
  | rejected herr => exact .rejected herr
  | computing ws hmem => exact .computing ws hmem
  | completed hvalid hadm => exact .completed hvalid hadm

/-- A command that is no longer in flight has ended as the whole command does (R100, R117). -/
theorem runCommand_eq (h : CommandAt s c t) (hi : t.phase = .idle) : runCommand c s = .next t := by
  cases h with
  | issued => cases hi
  | rejected herr => exact runCommand_of_error herr
  | computing => cases hi
  | completed hvalid hadm => exact runCommand_of_admitted hvalid hadm

/-- Validation rejects the command or starts to compute it, with memory as at issue (R102, R110). -/
theorem validateStep (h : CommandAt s c t) (hwf : s.mem.wf = true) (hp : t.phase = .validate) (ht : validateStep t = .next t') :
    CommandAt s c t' := by
  cases h with
  | issued =>
    obtain ⟨e, herr, hv⟩ | ⟨-, -, hv⟩ | ⟨-, -, hv⟩ := validateStep_cases (s.issue c) <;> rw [hv] at ht <;> cases ht
    · exact .rejected herr
    · exact .computing _ (.refl hwf)
  | rejected => cases hp
  | computing => cases hp
  | completed => cases hp

/-- In COMPUTE one worker may be replaced. -/
theorem setWorker (h : CommandAt s c t) (hp : t.phase = .compute) (p : Nat) (w : Worker) : CommandAt s c (t.setWorker p w) := by
  cases h with
  | issued => cases hp
  | rejected => cases hp
  | computing ws hmem => exact .computing (ws.set p w) hmem
  | completed => cases hp

/-- In COMPUTE further elements may become final (R60, R114, R115). -/
theorem withElementWrites (h : CommandAt s c t) (hinv : t.Inv) (hp : t.phase = .compute) {mem : Memory}
    (hw : ElementWrites t.cmd.args (dimsOf t.cmd.args) (elem t.cfg.fp8 t.mem t.cmd.args (dimsOf t.cmd.args)) t.mem mem) :
    CommandAt s c (t.withMem mem) := by
  have g := (hinv.computing hp).ranges
  cases h with
  | issued => cases hp
  | rejected => cases hp
  | computing ws hmem => exact .computing ws (hmem.trans (hw.congr_values fun m n hm hn => hmem.elem_eq g hm hn))
  | completed => cases hp

/-- When every worker is STORED, completion gives what the whole command gives (R117, R118). -/
theorem complete (h : CommandAt s c t) (hwf : s.mem.wf = true) (hinv : t.Inv) (hp : t.phase = .compute) (hstored : allStored t.workers = true) :
    CommandAt s c t.complete := by
  have hc := hinv.computing hp
  have hfinal := fun m n => hc.all_final hinv.cfgWf hstored (m := m) (n := n)
  cases h with
  | issued => cases hp
  | rejected => cases hp
  | @computing ws mem hmem =>
    obtain ⟨hgemm, hgemmFinal⟩ := gemmMemory_elementWrites (cfg := s.cfg) (hc.ranges.space .c) hwf
    obtain rfl : mem = gemmMemory s.cfg s.mem c.args (dimsOf c.args) :=
      hmem.eq_of_final hgemm (fun m n hm hn => (hfinal m n hm hn).trans (hmem.elem_eq hc.ranges hm hn)) hgemmFinal
    rw [State.complete_inCompute]
    exact .completed hc.valid hc.admitted
  | completed => cases hp

/-- A worker's step goes on with the command (R111, R112, R114). -/
theorem workerStep (h : CommandAt s c t) (hinv : t.Inv) {p : Nat} (ht : workerStep p t = .next t') : CommandAt s c t' := by
  obtain rfl | ⟨w, hw, -, hcase⟩ := workerStep_cases ht
  · exact h
  have hp := hinv.compute_of_worker hw
  obtain ⟨-, rfl⟩ | ⟨-, -, w', -, rfl⟩ | ⟨hs, hk, rfl⟩ := hcase
  · exact h.setWorker hp p _
  · exact h.setWorker hp p w'
  · rw [(hinv.computing hp).dims] at hk ⊢
    exact (h.withElementWrites hinv hp (hinv.storeMemory_writes hw hs hk).1).setWorker hp p _

/-- A single-element store goes on with the command (R60, R114). -/
theorem storeElementStep (h : CommandAt s c t) (hinv : t.Inv) {p q : Nat} (ht : storeElementStep p q t = .next t') :
    CommandAt s c t' := by
  obtain rfl | ⟨w, e, hw, hq, hs, hk, -, rfl⟩ := storeElementStep_cases ht
  · exact h
  have hp := hinv.compute_of_worker hw
  rw [(hinv.computing hp).dims] at hk ⊢
  exact (h.withElementWrites hinv hp (hinv.storeEntry_writes hw hq hs hk).1).setWorker hp p _

/-- The sequencer's step goes on with the command (R102, R118). -/
theorem sequencerStep (h : CommandAt s c t) (hwf : s.mem.wf = true) (hinv : t.Inv) (ht : sequencerStep t = .next t') :
    CommandAt s c t' := by
  obtain hseq | ⟨hp, hseq⟩ | ⟨hp, hstored, hseq⟩ := sequencerStep_cases t <;> rw [hseq] at ht
  · cases ht
    exact h
  · exact h.validateStep hwf hp ht
  · cases ht
    exact h.complete hwf hinv hp hstored

/-- The default schedule goes on with the command (R119). -/
theorem engineStep (h : CommandAt s c t) (hwf : s.mem.wf = true) (hinv : t.Inv) (ht : engineStep t = .next t') : CommandAt s c t' := by
  obtain ⟨-, heng⟩ | ⟨hp, heng⟩ | ⟨-, p, heng⟩ | ⟨hp, hstored, heng⟩ := engineStep_cases t <;> rw [heng] at ht
  · cases ht
    exact h
  · exact h.validateStep hwf hp ht
  · exact h.workerStep hinv ht
  · cases ht
    exact h.complete hwf hinv hp hstored

/-- Any choice among the engine's agents goes on with the command (R117). -/
theorem takeEngineEvent (h : CommandAt s c t) (hwf : s.mem.wf = true) (hinv : t.Inv) {e : Event} (he : engineEvent e = true)
    (ht : takeEvent e t = .next t') : CommandAt s c t' := by
  cases e with
  | sequencer => exact h.sequencerStep hwf hinv ht
  | worker p => exact h.workerStep hinv ht
  | storeElement p q => exact h.storeElementStep hinv ht
  | command | issue | reset | hostWrite | hostWriteStatus => cases he

end CommandAt

/-- No state of the command has another agenda than the state it was issued in. -/
theorem CommandAt.agenda_eq {s t : State} {c : Desc} (h : CommandAt s c t) : t.agenda = s.agenda := by
  cases h <;> rfl

/-- A run goes on from the state that its first step answers. -/
theorem run_succ_of_step {n : Nat} {s t : State} (h : step s = .next t) :
    Host.Core.run Sys2Proof.core (n + 1) s = Host.Core.run Sys2Proof.core n t := by
  have hcore : Sys2Proof.core.step s = .next t := h
  simp only [Host.Core.run, hcore]

/-- A run that answers a state has a first step that does. -/
theorem exists_step_of_run_succ {n : Nat} {s u : State} (h : Host.Core.run Sys2Proof.core (n + 1) s = .next u) :
    ∃ t, step s = .next t ∧ Host.Core.run Sys2Proof.core n t = .next u := by
  cases hs : step s with
  | next t => exact ⟨t, rfl, (run_succ_of_step hs).symm.trans h⟩
  | fault r =>
    have hcore : Sys2Proof.core.step s = .fault r := hs
    simp only [Host.Core.run, hcore] at h
    cases h
  | refused r =>
    have hcore : Sys2Proof.core.step s = .refused r := hs
    simp only [Host.Core.run, hcore] at h
    cases h

/-- A choice among the engine's agents needs no port (R36, R101). -/
theorem needsPort_of_engineEvent {e : Event} (h : engineEvent e = true) : needsPort e = false := by
  cases e with
  | sequencer | worker | storeElement => rfl
  | command | issue | reset | hostWrite | hostWriteStatus => cases h

/-- A schedule of engine choices goes on with the command until the choices are used up (R117). -/
theorem CommandAt.run_events {s t u : State} {c : Desc} {es : List Event} (h : CommandAt { s with agenda := es } c t)
    (hwf : s.mem.wf = true) (hinv : t.Inv) (hes : ∀ e ∈ es, engineEvent e = true)
    (hrun : Host.Core.run Sys2Proof.core es.length t = .next u) : CommandAt { s with agenda := [] } c u := by
  induction es generalizing t with
  | nil =>
    cases hrun
    exact h
  | cons e rest ih =>
    obtain ⟨t', hstep, hrest⟩ := exists_step_of_run_succ hrun
    have hinv' := (step_sound hinv).inv t' hstep
    have he := hes e List.mem_cons_self
    rw [step_of_agenda h.agenda_eq fun hport => by simp [needsPort_of_engineEvent he] at hport] at hstep
    have h' := (h.withAgenda rest).takeEngineEvent hwf (hinv.withAgenda rest) he hstep
    exact ih h' hinv' (fun e' he' => hes e' (List.mem_cons_of_mem e he')) hrest

/-- An issue at the head of an idle engine's agenda is taken (R101). -/
theorem step_issue_idle {s : State} {c : Desc} {es : List Event} (hi : s.phase = .idle) (ha : s.agenda = .issue c :: es) :
    step s = .next (State.issue c { s with agenda := es }) := by
  rw [step_of_agenda ha fun _ => hi]
  exact if_pos hi

/-- Settles O32: every state of the schedule is one of the command's, and the one that is idle again is where the whole command ends. -/
theorem everyScheduleReachesTheAtomicResult : Obligations.EveryScheduleReachesTheAtomicResult := by
  intro s u x es hinv hi hx hes hrun hu
  have hissue := step_issue_idle (s := { s with agenda := .issue (encode (.gemm x)) :: es }) hi rfl
  rw [run_succ_of_step hissue] at hrun
  have hend := CommandAt.run_events (s := s) .issued hinv.memWf ((hinv.withAgenda es).issue hi (encode (.gemm x))) hes hrun
  exact (exec_gemm_of_idle x (s := { s with agenda := [] }) hi).trans (hend.runCommand_eq hu)

end Sys2Proof.Machine
end

section
/-! PROOFS. Progress of the default schedule (R119): how many steps each worker still owes,
and that every step of the engine in COMPUTE takes one off. -/

namespace Sys2Proof.Machine

/-- The steps a worker owes before it is STORED: its start, K terms and its store (R111, R112, R114). -/
def stepsLeft (k : Nat) (w : Worker) : Nat :=
  match w.stage with
  | .pending => 1 + k + 1
  | .accum => k - w.k + 1
  | .stored => 0

theorem stepsLeft_pending {k : Nat} {w : Worker} (h : w.stage = .pending) : stepsLeft k w = 1 + k + 1 := by simp [stepsLeft, h]

theorem stepsLeft_accum {k : Nat} {w : Worker} (h : w.stage = .accum) : stepsLeft k w = k - w.k + 1 := by simp [stepsLeft, h]

theorem stepsLeft_stored {k : Nat} {w : Worker} (h : w.stage = .stored) : stepsLeft k w = 0 := by simp [stepsLeft, h]

/-- The steps all workers owe. -/
def workLeft (k : Nat) (ws : List Worker) : Nat := (ws.map (stepsLeft k)).sum

/-- A worker that takes one of its steps takes one off the work. -/
theorem workLeft_set {k p : Nat} {ws : List Worker} {w w' : Worker} (hw : ws[p]? = some w) (h : stepsLeft k w' + 1 = stepsLeft k w) :
    workLeft k (ws.set p w') + 1 = workLeft k ws := by
  induction ws generalizing p with
  | nil => cases hw
  | cons v ws ih =>
    cases p with
    | zero =>
      cases hw
      simp only [workLeft, List.set_cons_zero, List.map_cons, List.sum_cons] at *
      omega
    | succ p =>
      have := ih hw
      simp only [workLeft, List.set_cons_succ, List.map_cons, List.sum_cons] at *
      omega

/-- Validation leaves one PENDING worker for each tile (R110). -/
theorem workLeft_newWorkers (k : Nat) (ts : List (Nat × Nat)) : workLeft k (ts.map newWorker) = ts.length * (1 + k + 1) := by
  simp [workLeft, Function.comp_def, stepsLeft, newWorker]

/-- The step of a sound worker that is not STORED leaves the engine in COMPUTE with one step less to go (R119). -/
theorem workerStep_progress {s : State} (h : s.Inv) {p : Nat} {w : Worker} (hw : s.workers[p]? = some w) (hs : w.stage ≠ .stored) :
    ∃ t, workerStep p s = .next t ∧ t.phase = .compute ∧
      workLeft (dimsOf s.cmd.args).k t.workers + 1 = workLeft (dimsOf s.cmd.args).k s.workers := by
  have hp := h.compute_of_worker hw
  have hc := h.computing hp
  have hsound := h.worker_sound hw
  cases hstage : w.stage with
  | pending =>
    refine ⟨_, workerStep_pending hw hc.inSpace hstage, hp, workLeft_set hw ?_⟩
    rw [stepsLeft_pending hstage, stepsLeft_accum (startWorker_stage ..), startWorker_k]
    omega
  | accum =>
    obtain hk | hk := hsound.counter.lt_or_eq
    · have hacc := hsound.accumulateStep_eq hstage
      rw [← hc.dims] at hacc
      refine ⟨_, workerStep_accumulate hw hc.inSpace hstage (hc.dims ▸ hk) hacc, hp, workLeft_set hw ?_⟩
      rw [stepsLeft_accum hstage, stepsLeft_accum (advance_stage.trans hstage), advance_k]
      omega
    · refine ⟨_, workerStep_store hw hc.inSpace hstage (hc.dims ▸ hk), hp, workLeft_set hw ?_⟩
      rw [stepsLeft_accum hstage, stepsLeft_stored (markStored_stage w), hk]
      omega
  | stored => exact absurd hstage hs

/-- In COMPUTE the default schedule completes the command when no step is owed, and otherwise takes one of the owed steps (R118, R119). -/
theorem engineStep_progress {s : State} (h : s.Inv) (hp : s.phase = .compute) :
    (workLeft (dimsOf s.cmd.args).k s.workers = 0 ∧ engineStep s = .next s.complete) ∨
    ∃ t, engineStep s = .next t ∧ t.phase = .compute ∧
      workLeft (dimsOf s.cmd.args).k t.workers + 1 = workLeft (dimsOf s.cmd.args).k s.workers := by
  cases hf : s.workers.findIdx? fun w => decide (w.stage ≠ .stored) with
  | none =>
    have heng : engineStep s = .next s.complete := by simp only [engineStep, hp, hf]
    refine .inl ⟨?_, heng⟩
    rw [List.findIdx?_eq_none_iff] at hf
    refine List.sum_eq_zero fun n hn => ?_
    obtain ⟨w, hw, rfl⟩ := List.mem_map.mp hn
    exact stepsLeft_stored (by simpa using hf w hw)
  | some p =>
    have heng : engineStep s = workerStep p s := by simp only [engineStep, hp, hf]
    obtain ⟨hlt, hfound, -⟩ := List.findIdx?_eq_some_iff_getElem.mp hf
    rw [heng]
    exact .inr (workerStep_progress h (List.getElem?_eq_getElem hlt) (by simpa using hfound))

/-- With nothing on the agenda the engine follows its default schedule (R119). -/
theorem step_of_no_agenda {s : State} (ha : s.agenda = []) : step s = engineStep s := by
  simp only [step, ha]

/-- No state of the command has another descriptor latched. -/
theorem CommandAt.cmd_eq {s t : State} {c : Desc} (h : CommandAt s c t) : t.cmd = c := by
  cases h <;> rfl

/-- From COMPUTE the default schedule reaches the end of the command in the owed steps and one more (R118, R119). -/
theorem CommandAt.run_to_completion {s t : State} {c : Desc} {n : Nat} (h : CommandAt s c t) (hwf : s.mem.wf = true) (hinv : t.Inv)
    (ha : s.agenda = []) (hp : t.phase = .compute) (hn : workLeft (dimsOf c.args).k t.workers = n) :
    ∃ u, Host.Core.run Sys2Proof.core (n + 1) t = .next u ∧ CommandAt s c u ∧ u.phase = .idle := by
  induction n generalizing t with
  | zero =>
    obtain ⟨-, heng⟩ | ⟨t', -, -, hwork⟩ := engineStep_progress hinv hp
    · refine ⟨t.complete, ?_, h.engineStep hwf hinv heng, rfl⟩
      rw [run_succ_of_step ((step_of_no_agenda (h.agenda_eq.trans ha)).trans heng)]
      rfl
    · rw [h.cmd_eq, hn] at hwork
      cases hwork
  | succ n ih =>
    obtain ⟨hdone, -⟩ | ⟨t', heng, hp', hwork⟩ := engineStep_progress hinv hp
    · rw [h.cmd_eq, hn] at hdone
      cases hdone
    · rw [h.cmd_eq, hn] at hwork
      have hstep := (step_of_no_agenda (h.agenda_eq.trans ha)).trans heng
      rw [run_succ_of_step hstep]
      exact ih (h.engineStep hwf hinv heng) ((step_sound hinv).inv t' hstep) hp' (Nat.succ.inj hwork)

/-- The STATUS word after a completion without an error (R25, R118). -/
theorem State.status_of_ok {s : State} (hcode : s.code = 0) (hdone : s.doneBit = true) (hi : s.phase = .idle) : s.status = 0x100#32 := by
  simp [State.status, State.busy, hcode, hdone, hi]

/-- Validation of a command with a failing check (R102, R195). -/
theorem validateStep_of_error {s : State} {e : ErrorCode} (h : firstError s.cfg s.cmd = some e) : validateStep s = .next (s.raise e) := by
  obtain ⟨e', h', hv⟩ | ⟨h', -⟩ | ⟨h', -⟩ := validateStep_cases s <;> cases h.symm.trans h'
  exact hv

/-- Validation of a command that fails no check, in memory that admits it (R102, R110). -/
theorem validateStep_of_admitted {s : State} (h : firstError s.cfg s.cmd = none)
    (hadm : launchAdmitted s.cfg s.cmd.args (dimsOf s.cmd.args) = true) : validateStep s = .next s.startCompute := by
  obtain ⟨e, h', -⟩ | ⟨-, -, hv⟩ | ⟨-, h', -⟩ := validateStep_cases s
  · cases h.symm.trans h'
  · exact hv
  · cases hadm.symm.trans h'

/-- With nothing on the agenda the step after an issue is validation (R102). -/
theorem step_issued {s : State} (c : Desc) (ha : s.agenda = []) : step (s.issue c) = validateStep (s.issue c) :=
  step_of_no_agenda (s := s.issue c) ha

/-- An issued command that fails no check, in memory that admits it, is computed in `1 + W (1 + K + 1) + 1` steps (R119). -/
theorem run_issued {s : State} {c : Desc} (hinv : s.Inv) (hi : s.phase = .idle) (ha : s.agenda = [])
    (hvalid : firstError s.cfg c = none) (hadm : launchAdmitted s.cfg c.args (dimsOf c.args) = true) :
    Host.Core.run Sys2Proof.core (1 + (tiles s.cfg (dimsOf c.args)).length * (1 + (dimsOf c.args).k + 1) + 1) (s.issue c) =
      runCommand c s := by
  have hlaunch := validateStep_of_admitted (s := s.issue c) hvalid hadm
  have hstep := (step_issued c ha).trans hlaunch
  have hcommand := CommandAt.issued.validateStep hinv.memWf rfl hlaunch
  obtain ⟨u, hrun, hend, hidle⟩ :=
    hcommand.run_to_completion hinv.memWf ((step_sound (hinv.issue hi c)).inv _ hstep) ha rfl rfl
  rw [State.startCompute_workers, workLeft_newWorkers] at hrun
  rw [hend.runCommand_eq hidle, Nat.add_assoc, Nat.add_comm 1, run_succ_of_step hstep]
  exact hrun

/-- Settles O33: a rejected command is answered by its validation step, and a computed one when every owed step is taken. -/
theorem issuedCommandCompletesInBoundedSteps : Obligations.IssuedCommandCompletesInBoundedSteps := by
  intro s x hinv hi ha hx
  rw [exec_gemm_of_idle x hi]
  refine ⟨fun e herr => ?_, fun hvalid hadm => ?_⟩
  · have hreject := (step_issued (encode (.gemm x)) ha).trans (validateStep_of_error herr)
    exact (run_succ_of_step (n := 0) hreject).trans (runCommand_of_error herr).symm
  · rw [← encode_args hx] at hadm
    have hrun := run_issued hinv hi ha hvalid hadm
    have hcomputed := runCommand_of_admitted hvalid hadm
    rw [encode_args hx, hcomputed] at hrun
    exact ⟨_, hcomputed, State.status_of_ok rfl rfl rfl, hrun⟩

end Sys2Proof.Machine
end

section
/-! PROOFS. The steps of the port and of the sequencer: a command run whole, the issue, validation and completion (R101, R102, R110, R118). -/

namespace Sys2Proof.Machine

/-- Settles O6: the head of the agenda is taken, and a descriptor that decodes is the command it decodes to. -/
theorem stepRunsTheDecodedCommand : Obligations.StepRunsTheDecodedCommand := by
  intro s c i rest hi ha hdecode
  rw [step_of_agenda ha fun _ => hi]
  simp only [takeEvent, commandStep, hdecode]

theorem validateStep_keeps_agenda {s t : State} (h : validateStep s = .next t) : t.agenda = s.agenda := by
  obtain ⟨e, -, hv⟩ | ⟨-, -, hv⟩ | ⟨-, -, hv⟩ := validateStep_cases s <;> rw [hv] at h <;> cases h
  · exact s.raise_agenda e
  · exact s.startCompute_agenda

theorem workerStep_keeps_agenda {p : Nat} {s t : State} (h : workerStep p s = .next t) : t.agenda = s.agenda := by
  obtain rfl | ⟨w, -, -, ⟨-, rfl⟩ | ⟨-, -, w', -, rfl⟩ | ⟨-, -, rfl⟩⟩ := workerStep_cases h
  · rfl
  all_goals simp only [State.withMem_agenda, State.setWorker_agenda]

/-- The default schedule leaves the agenda alone (R36). -/
theorem engineStep_keeps_agenda {s t : State} (h : engineStep s = .next t) : t.agenda = s.agenda := by
  obtain ⟨-, heng⟩ | ⟨-, heng⟩ | ⟨-, p, heng⟩ | ⟨-, -, heng⟩ := engineStep_cases s <;> rw [heng] at h
  · cases h
    rfl
  · exact validateStep_keeps_agenda h
  · exact workerStep_keeps_agenda h
  · cases h
    exact s.complete_agenda

/-- A busy engine holds an event that needs the port, and goes on (R101). -/
theorem step_of_held {s : State} {e : Event} {rest : List Event} (ha : s.agenda = e :: rest) (hport : needsPort e = true)
    (hbusy : s.phase ≠ .idle) : step s = engineStep s := by
  obtain ⟨-, hstep⟩ | ⟨e', rest', ha', hidle, -⟩ := step_cases s
  · exact hstep
  · cases ha.symm.trans ha'
    exact absurd (hidle hport) hbusy

/-- Settles O8: in IDLE the issue is taken and the fields of STATUS follow; a busy engine holds what needs the port. -/
theorem issueLatchesOrHolds : Obligations.IssueLatchesOrHolds := by
  intro s c rest
  refine ⟨fun hi ha => ?_, fun hbusy ha => ?_⟩
  · have hissue := step_issue_idle hi ha
    refine ⟨hissue, fun t ht => ?_⟩
    cases hissue.symm.trans ht
    rfl
  · have hheld : step s = engineStep s := ha.elim (step_of_held · rfl hbusy) (step_of_held · rfl hbusy)
    exact ⟨hheld, fun t ht => engineStep_keeps_agenda (hheld ▸ ht)⟩

/-- The sequencer chosen at the head of the agenda takes its step at once (R36). -/
theorem step_sequencer {s : State} {rest : List Event} (ha : s.agenda = .sequencer :: rest) :
    step s = sequencerStep { s with agenda := rest } :=
  step_of_agenda ha (by simp [needsPort])

theorem sequencerStep_validate {s : State} (hp : s.phase = .validate) : sequencerStep s = validateStep s := by
  simp only [sequencerStep, hp]

theorem sequencerStep_compute {s : State} (hp : s.phase = .compute) :
    sequencerStep s = if allStored s.workers then .next s.complete else .next s := by
  simp only [sequencerStep, hp]

/-- The workers that validation creates stand for the tiles they were created from (R26, R110). -/
theorem map_tile_newWorker (ts : List (Nat × Nat)) : (ts.map newWorker).map (fun w => (w.ti, w.tj)) = ts := by
  rw [List.map_map]
  exact List.map_id ts

/-- Settles O30: the sequencer validates, and the worker set it leaves is the list of the tiles. -/
theorem validationStepRejectsOrLaunches : Obligations.ValidationStepRejectsOrLaunches := by
  intro s rest hp ha
  rw [step_sequencer ha, sequencerStep_validate (s := { s with agenda := rest }) hp]
  refine ⟨fun e herr => validateStep_of_error (s := { s with agenda := rest }) herr, fun hvalid hadm => ?_⟩
  refine ⟨_, validateStep_of_admitted (s := { s with agenda := rest }) hvalid hadm, fun w hw => ?_, ?_, fun ti tj => ?_⟩
  · obtain ⟨t, -, rfl⟩ := List.mem_map.mp hw
    rfl
  · rw [map_tile_newWorker]
    exact tiles_nodup _ _
  · have htile : (∃ w ∈ (tiles s.cfg (dimsOf s.cmd.args)).map newWorker, w.ti = ti ∧ w.tj = tj) ↔
        (ti, tj) ∈ ((tiles s.cfg (dimsOf s.cmd.args)).map newWorker).map (fun w => (w.ti, w.tj)) := by
      simp only [List.mem_map (f := fun w : Worker => (w.ti, w.tj)), Prod.mk.injEq]
    rw [map_tile_newWorker, mem_tiles] at htile
    exact htile

/-- Settles O31: the sequencer completes the command exactly when every worker is STORED. -/
theorem completionWaitsForEveryWorker : Obligations.CompletionWaitsForEveryWorker := by
  intro s rest hp ha
  rw [step_sequencer ha, sequencerStep_compute (s := { s with agenda := rest }) hp]
  refine ⟨fun hstored => ?_, fun ⟨w, hw, hnot⟩ => ?_⟩
  · rw [if_pos (allStored_iff.mpr hstored)]
    exact ⟨_, rfl, rfl, rfl, rfl, rfl, State.status_of_ok rfl rfl rfl, rfl, rfl, rfl, rfl⟩
  · exact if_neg fun hall => hnot (allStored_iff.mp hall w hw)

end Sys2Proof.Machine
end

section
/-! PROOFS. Validation in numbers (R105 to R109) and the code that it reports (R190). -/

namespace Sys2Proof.Machine

/-- Check 1 in numbers (R105). -/
theorem legalCommand_iff {c : Desc} : legalCommand c = true ↔ c.opcode = 0x01#8 ∧ c.rsvd = 0#56 := by
  simp [legalCommand]

/-- Check 3 in numbers (R107). -/
theorem shapeConsistent_iff {x : Args} {d : Dims} :
    shapeConsistent x d = true ↔ 0 < d.k ∧ 0 < d.m ∧ 0 < d.n ∧ x.b.dim0 = d.k ∧ x.aScale.dim0 = d.k / 128 ∧ x.aScale.dim1 = d.m ∧
      x.bScale.dim0 = d.k / 128 ∧ x.bScale.dim1 = d.n / 128 ∧ x.c.dim0 = d.m ∧ x.c.dim1 = d.n := by
  simp [shapeConsistent, and_assoc]

/-- Check 4 in numbers (R108). -/
theorem supportedShape_iff {cfg : Config} {d : Dims} : supportedShape cfg d = true ↔ d ∈ cfg.supported := by
  simp [supportedShape]

/-- Two ranges that are not empty are disjoint exactly when no byte lies in both (R109). -/
theorem disjoint_iff_no_common_byte {b₁ n₁ b₂ n₂ : Nat} (h₁ : 0 < n₁) (h₂ : 0 < n₂) :
    (b₁ + n₁ ≤ b₂ ∨ b₂ + n₂ ≤ b₁) ↔ ∀ a, ¬ (inRange b₁ n₁ a = true ∧ inRange b₂ n₂ a = true) := by
  simp only [inRange_iff]
  constructor
  · intro h a
    omega
  · intro h
    have := h (max b₁ b₂)
    omega

/-- With positive dimensions that are whole blocks no buffer is empty (R45). -/
theorem req_pos {d : Dims} (hm : 0 < d.m) (hk : 0 < d.k) (hn : 0 < d.n) (hkal : d.k % 128 = 0) (hnal : d.n % 128 = 0) (y : Buf) :
    0 < req d y := by
  have hkb : 0 < d.k / 128 := by omega
  have hnb : 0 < d.n / 128 := by omega
  cases y <;> simp only [req, BLOCK] <;> positivity

/-- C apart from a buffer, as a range of bytes in numbers (R109). -/
theorem disjointFromC_iff {x : Args} {d : Dims} {y : Buf} :
    disjointFromC x d y = true ↔
      (bufArg x y).base + req d y ≤ x.c.base ∨ x.c.base + req d .c ≤ (bufArg x y).base :=
  disjointRanges_iff

/-- A property of the five buffers, one by one. -/
theorem forall_buf {P : Buf → Prop} : (∀ y, P y) ↔ P .a ∧ P .b ∧ P .aScale ∧ P .bScale ∧ P .c :=
  ⟨fun h => ⟨h _, h _, h _, h _, h _⟩, fun ⟨ha, hb, has, hbs, hc⟩ y => by cases y <;> assumption⟩

/-- Settles O15: each check in numbers; the byte counts are positive, so disjoint ranges are those with no common byte. -/
theorem validationPassesExactlyWhen : Obligations.ValidationPassesExactlyWhen := by
  rintro cfg x hx d rfl
  rw [firstError_none, encode_args hx, legalCommand_encode, blockAligned_iff, shapeConsistent_iff, supportedShape_iff, buffersOk_iff]
  rw [eq_self, true_and]
  refine and_congr_right fun ⟨hkal, hnal⟩ => and_congr_right fun ⟨hk, hm, hn, _⟩ => and_congr_right fun _ => and_congr ?_ ?_
  · rw [forall_buf]
    simp only [bufferOk_iff, bufArg, req, alignOf, Nat.mod_one, and_true, BLOCK]
  · refine forall_congr' fun y => imp_congr_right fun _ => ?_
    rw [disjointFromC_iff]
    exact disjoint_iff_no_common_byte (req_pos hm hk hn hkal hnal y) (req_pos hm hk hn hkal hnal .c)

/-- Check 5 in numbers, the alignment of the byte buffers left out as it asks nothing (R52, R69, R109). -/
theorem buffersOk_iff_numbers {x : Args} {d : Dims} :
    buffersOk x d = true ↔
      (∀ y, (bufArg x y).base ≠ 0 ∧ req d y ≤ (bufArg x y).nbytes ∧ (bufArg x y).base + req d y ≤ 2 ^ 64) ∧
      x.aScale.base % 4 = 0 ∧ x.bScale.base % 4 = 0 ∧ x.c.base % 2 = 0 ∧
      ∀ y, y ≠ .c → (bufArg x y).base + req d y ≤ x.c.base ∨ x.c.base + 2 * d.m * d.n ≤ (bufArg x y).base := by
  have halign : (∀ y, (bufArg x y).base % alignOf y = 0) ↔ x.aScale.base % 4 = 0 ∧ x.bScale.base % 4 = 0 ∧ x.c.base % 2 = 0 := by
    rw [forall_buf]
    simp only [bufArg, alignOf, Nat.mod_one, true_and]
  have hbufs : (∀ y, bufferOk x d y = true) ↔
      (∀ y, (bufArg x y).base ≠ 0 ∧ req d y ≤ (bufArg x y).nbytes ∧ (bufArg x y).base + req d y ≤ 2 ^ 64) ∧
      ∀ y, (bufArg x y).base % alignOf y = 0 := by
    simp only [bufferOk_iff, ← forall_and, and_assoc]
  rw [buffersOk_iff, hbufs, halign, and_assoc, and_assoc, and_assoc]
  simp only [disjointFromC_iff, req]

section FirstError

variable {cfg : Config} {c : Desc}

/-- The first failing check decides, whatever the later ones say (R190): one fact for each check. -/
theorem firstError_illegalCommand (h : ¬ legalCommand c = true) : firstError cfg c = some .illegalCommand :=
  firstError_of_not_legal (not_and_or.mp (mt legalCommand_iff.mpr h))

theorem firstError_blockAlignment (h₁ : legalCommand c = true) (h : ¬ blockAligned (dimsOf c.args) = true) :
    firstError cfg c = some .blockAlignment := by
  simp [firstError, h₁, h]

theorem firstError_shapeMismatch (h₁ : legalCommand c = true) (h₂ : blockAligned (dimsOf c.args) = true)
    (h : ¬ shapeConsistent c.args (dimsOf c.args) = true) : firstError cfg c = some .shapeMismatch := by
  simp [firstError, h₁, h₂, h]

theorem firstError_unsupportedShape (h₁ : legalCommand c = true) (h₂ : blockAligned (dimsOf c.args) = true)
    (h₃ : shapeConsistent c.args (dimsOf c.args) = true) (h : ¬ supportedShape cfg (dimsOf c.args) = true) :
    firstError cfg c = some .unsupportedShape := by
  simp [firstError, h₁, h₂, h₃, h]

theorem firstError_buffer (h₁ : legalCommand c = true) (h₂ : blockAligned (dimsOf c.args) = true)
    (h₃ : shapeConsistent c.args (dimsOf c.args) = true) (h₄ : supportedShape cfg (dimsOf c.args) = true)
    (h : ¬ buffersOk c.args (dimsOf c.args) = true) : firstError cfg c = some .buffer := by
  simp [firstError, h₁, h₂, h₃, h₄, h]

end FirstError

/-- The STATUS word after an error completion (R25, R195). -/
theorem State.raise_status (e : ErrorCode) (s : State) : (s.raise e).status = BitVec.ofNat 32 (e.bits.toNat + 256) := by
  cases e <;> rfl

/-- A rejected command reports its code and leaves memory as it was (R190, R195). -/
theorem commandStep_of_error {c : Desc} {s : State} {e : ErrorCode} (hi : s.phase = .idle) (h : firstError s.cfg c = some e) :
    ∃ t, commandStep c s = .next t ∧ t.status = BitVec.ofNat 32 (e.bits.toNat + 256) ∧ t.mem = s.mem :=
  ⟨_, (commandStep_idle hi).trans (runCommand_of_error h), State.raise_status e _, rfl⟩

/-- A command that fails no check and completes reports no error (R118). -/
theorem commandStep_status_of_valid {c : Desc} {s t : State} (hi : s.phase = .idle) (h : firstError s.cfg c = none)
    (ht : commandStep c s = .next t) : t.status = 0x100#32 := by
  rw [commandStep_idle hi] at ht
  obtain ⟨e, herr, -⟩ | ⟨-, -, hrun⟩ | ⟨-, -, hrun⟩ := runCommand_cases c s
  · cases h.symm.trans herr
  · cases hrun.symm.trans ht
    exact State.status_of_ok rfl rfl rfl
  · cases hrun.symm.trans ht

/-- Settles O17: each proposition is its check, and the first check that fails is the error that the command reports. -/
theorem firstFailingCheckIsReported : Obligations.FirstFailingCheckIsReported := by
  rintro s c x d hi rfl rfl legal aligned consistent supported buffers hlegal haligned hconsistent hsupported hbuffers reports hreports
  replace hlegal := hlegal.trans legalCommand_iff.symm
  replace haligned := haligned.trans blockAligned_iff.symm
  replace hconsistent := hconsistent.trans shapeConsistent_iff.symm
  replace hsupported := hsupported.trans supportedShape_iff.symm
  replace hbuffers := hbuffers.trans buffersOk_iff_numbers.symm
  have hreport : ∀ e, firstError s.cfg c = some e → reports (BitVec.ofNat 32 (e.bits.toNat + 256)) :=
    fun e h => (hreports _).mpr (commandStep_of_error hi h)
  rw [hlegal, haligned, hconsistent, hsupported, hbuffers]
  exact ⟨fun h => hreport _ (firstError_illegalCommand h),
    fun h₁ h => hreport _ (firstError_blockAlignment h₁ h),
    fun h₁ h₂ h => hreport _ (firstError_shapeMismatch h₁ h₂ h),
    fun h₁ h₂ h₃ h => hreport _ (firstError_unsupportedShape h₁ h₂ h₃ h),
    fun h₁ h₂ h₃ h₄ h => hreport _ (firstError_buffer h₁ h₂ h₃ h₄ h),
    fun h₁ h₂ h₃ h₄ h₅ t => commandStep_status_of_valid hi (firstError_none.mpr ⟨h₁, h₂, h₃, h₄, h₅⟩)⟩

end Sys2Proof.Machine
end

section
/-! PROOFS. GEMM as the operation of its operands: completion, frame, all or nothing, repetition,
and what alone refuses it (R100, R116, R121, R125, R68). -/

namespace Sys2Proof.Machine

section Gemm

variable {x : Args} {s t : State}

/-- Everything GEMM can do on an idle engine, in its own operands (R100, R68). -/
theorem exec_gemm_cases (hx : x.wf = true) (hi : s.phase = .idle) :
    (∃ e, firstError s.cfg (encode (.gemm x)) = some e ∧ exec (.gemm x) s = .next ((s.issue (encode (.gemm x))).raise e)) ∨
    (firstError s.cfg (encode (.gemm x)) = none ∧ launchAdmitted s.cfg x (dimsOf x) = true ∧
      exec (.gemm x) s = .next (s.issue (encode (.gemm x))).startCompute.computeAll) ∨
    (firstError s.cfg (encode (.gemm x)) = none ∧ launchAdmitted s.cfg x (dimsOf x) = false ∧
      exec (.gemm x) s = .refused .notPlainMemory) := by
  have h := runCommand_cases (encode (.gemm x)) s
  rwa [encode_args hx, ← exec_gemm_of_idle x hi] at h

/-- A GEMM that was computed wrote the final value of every element and nothing else (R116). -/
theorem gemm_elementWrites (hx : x.wf = true) (hvalid : firstError s.cfg (encode (.gemm x)) = none) (hwf : s.mem.wf = true) :
    ElementWrites x (dimsOf x) (elem s.cfg.fp8 s.mem x (dimsOf x)) s.mem (s.issue (encode (.gemm x))).startCompute.computeAll.mem ∧
      ∀ m n, m < (dimsOf x).m → n < (dimsOf x).n →
        (s.issue (encode (.gemm x))).startCompute.computeAll.mem.half (addrC x (dimsOf x) m n) = elem s.cfg.fp8 s.mem x (dimsOf x) m n := by
  have h := computed_elementWrites hvalid hwf
  rwa [encode_args hx] at h

/-- The byte ranges of a command that passes validation, in its own operands (R109). -/
theorem soundRanges_of_valid {cfg : Config} (hx : x.wf = true) (hvalid : firstError cfg (encode (.gemm x)) = none) :
    SoundRanges x (dimsOf x) := by
  have h := soundRanges_of_firstError hvalid
  rwa [encode_args hx] at h

end Gemm

/-- Settles O14: the command is computed, and its writes are the elements of C. -/
theorem gemmCompletesWithEveryElement : Obligations.GemmCompletesWithEveryElement := by
  intro x s hi hwf hx hvalid hadm
  obtain ⟨hwrites, hfinal⟩ := gemm_elementWrites hx hvalid hwf
  obtain ⟨e, herr, -⟩ | ⟨-, -, hexec⟩ | ⟨-, hrefused, -⟩ := exec_gemm_cases hx hi
  · cases hvalid.symm.trans herr
  · exact ⟨_, hexec, hfinal, hwrites.outside, rfl, rfl, rfl, rfl, State.status_of_ok rfl rfl rfl, rfl, rfl, rfl⟩
  · cases hadm.symm.trans hrefused

/-- Element writes change no byte but those of the elements (R50, R54). -/
theorem ElementWrites.byte_eq_of_no_element {x : Args} {d : Dims} {v : Nat → Nat → Half} {m₁ m₂ : Memory} {a : Nat}
    (h : ElementWrites x d v m₁ m₂) (ha : ∀ m n, m < d.m → n < d.n → a ≠ addrC x d m n ∧ a ≠ addrC x d m n + 1) :
    m₂.byte a = m₁.byte a := by
  refine h.outside a (Bool.eq_false_iff.mpr fun hin => ?_)
  obtain ⟨m, n, hm, hn, haddr⟩ := exists_element_of_inBuf_c hin
  obtain ⟨hlow, hhigh⟩ := ha m n hm hn
  exact haddr.elim hlow hhigh

/-- Settles O18: a rejected command changes the interface alone, a computed one the elements of C besides, and a busy engine nothing. -/
theorem gemmFrame : Obligations.GemmFrame := by
  intro x s t hwf hx ht
  by_cases hi : s.phase = .idle
  · obtain ⟨e, -, hexec⟩ | ⟨hvalid, -, hexec⟩ | ⟨-, -, hexec⟩ := exec_gemm_cases hx hi <;> cases hexec.symm.trans ht
    · exact ⟨rfl, rfl, fun _ _ => rfl, fun _ => ⟨rfl, rfl, rfl, rfl⟩⟩
    · exact ⟨rfl, rfl, fun _ => (gemm_elementWrites hx hvalid hwf).1.byte_eq_of_no_element, fun hcode => absurd rfl hcode⟩
  · cases (exec_gemm_of_busy x hi).symm.trans ht
    exact ⟨rfl, rfl, fun _ _ => rfl, fun _ => ⟨rfl, rfl, rfl, rfl⟩⟩

/-- Settles O19: a rejected command reports its code over the memory it found; a computed one has written every element. -/
theorem gemmWritesAllOrNothing : Obligations.GemmWritesAllOrNothing := by
  intro x s t hi hwf hx ht
  obtain ⟨e, -, hexec⟩ | ⟨hvalid, -, hexec⟩ | ⟨-, -, hexec⟩ := exec_gemm_cases hx hi <;> cases hexec.symm.trans ht
  · exact .inr ⟨e.bits_ne_zero, rfl⟩
  · exact .inl ⟨rfl, (gemm_elementWrites hx hvalid hwf).2⟩

/-- A command over memory that holds every final value already leaves memory as it is (R121). -/
theorem computed_mem_of_final {x : Args} {s : State} (hx : x.wf = true) (hvalid : firstError s.cfg (encode (.gemm x)) = none)
    (hwf : s.mem.wf = true)
    (hfinal : ∀ m n, m < (dimsOf x).m → n < (dimsOf x).n → s.mem.half (addrC x (dimsOf x) m n) = elem s.cfg.fp8 s.mem x (dimsOf x) m n) :
    (s.issue (encode (.gemm x))).startCompute.computeAll.mem = s.mem := by
  obtain ⟨hwrites, hfinal'⟩ := gemm_elementWrites hx hvalid hwf
  exact hwrites.eq_of_final (.refl hwf) hfinal' hfinal

/-- Settles O22: the repeated command fails the same check, or computes the elements that memory already holds. -/
theorem repeatedGemmIsBitIdentical : Obligations.RepeatedGemmIsBitIdentical := by
  intro x s t hi hwf hx ht
  obtain ⟨e, herr, hexec⟩ | ⟨hvalid, hadm, hexec⟩ | ⟨-, -, hexec⟩ := exec_gemm_cases hx hi
  · obtain rfl := Host.Outcome.next.inj (hexec.symm.trans ht)
    exact ⟨_, (exec_gemm_of_idle x (State.raise_phase e _)).trans (runCommand_of_error herr), rfl, State.status_congr rfl rfl rfl⟩
  · have ht' := Host.Outcome.next.inj (ht.symm.trans hexec)
    have hcfg : t.cfg = s.cfg := by rw [ht']; rfl
    have hidle : t.phase = .idle := by rw [ht']; rfl
    have hstatus : t.status = 0x100#32 := by rw [ht']; exact State.status_of_ok rfl rfl rfl
    obtain ⟨hwrites, hfinal⟩ := gemm_elementWrites hx hvalid hwf
    rw [← ht'] at hwrites hfinal
    rw [← hcfg] at hvalid hadm hfinal
    obtain ⟨e, herr, -⟩ | ⟨-, -, hexec'⟩ | ⟨-, hrefused, -⟩ := exec_gemm_cases hx hidle
    · cases hvalid.symm.trans herr
    · refine ⟨_, hexec', computed_mem_of_final hx hvalid hwrites.wf fun m n hm hn => ?_, hstatus ▸ State.status_of_ok rfl rfl rfl⟩
      exact (hfinal m n hm hn).trans (hwrites.elem_eq (soundRanges_of_valid hx hvalid) hm hn).symm
    · cases hadm.symm.trans hrefused
  · cases hexec.symm.trans ht

/-- A range that meets a hole of the platform's memory has a byte that is not plain (R41, R57, R68). -/
theorem exists_not_plain_of_plainRange {cfg : Config} {base size : Nat} (h : plainRange cfg base size = false) :
    ∃ a, inRange base size a = true ∧ plainByte cfg a = false := by
  obtain ⟨hole, hmem, hmeets⟩ := List.all_eq_false.mp h
  simp only [Bool.or_eq_true, decide_eq_true_eq, disjointRanges_iff] at hmeets
  refine ⟨max base hole.base, inRange_iff.mpr (by omega), List.all_eq_false.mpr ⟨hole, hmem, ?_⟩⟩
  rw [Bool.not_eq_true', Bool.not_eq_false, inRange_iff]
  omega

/-- Settles O23: no case of GEMM faults, and the refused one has a byte of some buffer in a hole. -/
theorem gemmStopsForNoData : Obligations.GemmStopsForNoData := by
  intro x s hx
  by_cases hi : s.phase = .idle
  · obtain ⟨e, -, hexec⟩ | ⟨-, -, hexec⟩ | ⟨hvalid, hrefused, hexec⟩ := exec_gemm_cases hx hi <;> rw [hexec]
    · exact ⟨nofun, nofun⟩
    · exact ⟨nofun, nofun⟩
    · refine ⟨nofun, fun r hr => ?_⟩
      cases hr
      obtain ⟨y, -, hy⟩ := List.all_eq_false.mp hrefused
      obtain ⟨a, ha, hplain⟩ := exists_not_plain_of_plainRange (Bool.eq_false_iff.mpr hy)
      exact ⟨rfl, hvalid, y, a, ha, hplain⟩
  · rw [exec_gemm_of_busy x hi]
    exact ⟨nofun, nofun⟩

end Sys2Proof.Machine
end

section
/-! PROOFS. The steps of one chosen worker: start, one term, the store of a tile, and the store of one element (R111, R112, R114). -/

namespace Sys2Proof.Machine

/-- A worker chosen at the head of the agenda takes its step at once (R36). -/
theorem step_worker {s : State} {p : Nat} {rest : List Event} (ha : s.agenda = .worker p :: rest) :
    step s = workerStep p { s with agenda := rest } :=
  step_of_agenda ha (by simp [needsPort])

/-- An element store chosen at the head of the agenda is taken at once (R36). -/
theorem step_storeElement {s : State} {p q : Nat} {rest : List Event} (ha : s.agenda = .storeElement p q :: rest) :
    step s = storeElementStep p q { s with agenda := rest } :=
  step_of_agenda ha (by simp [needsPort])

/-- Settles O27: the accumulator file of the start step has every element of the tile, each at +0. -/
theorem workerStartInitialisesItsTile : Obligations.WorkerStartInitialisesItsTile := by
  intro s p w rest hinv ha hw hs
  have hc := hinv.computing (hinv.compute_of_worker hw)
  refine ⟨startWorker s.cfg s.shape.dims w, ?_, rfl, rfl, rfl, rfl, fun e he => (mem_initAcc he).1, fun m n hm hm' hn hn' => ?_⟩
  · rw [step_worker ha]
    exact workerStep_pending (s := { s with agenda := rest }) hw hc.inSpace hs
  · exact exists_mem_initAcc hm hm' hn hn'

/-- Settles O28: a sound worker in ACCUM advances, whether it loads its latches or holds those of the chunk. -/
theorem workerAccumulatesOneTermEach : Obligations.WorkerAccumulatesOneTermEach := by
  intro s p w rest hinv ha hw hs hk
  have hc := hinv.computing (hinv.compute_of_worker hw)
  have hacc := (hinv.worker_sound hw).accumulateStep_eq hs
  rw [← hc.dims] at hacc
  refine ⟨advance s.cfg s.mem s.cmd.args s.shape.dims w, ?_, rfl, rfl, hs, rfl, ?_, fun q e e' he he' => ?_⟩
  · rw [step_worker ha]
    exact workerStep_accumulate (s := { s with agenda := rest }) hw hc.inSpace hs hk hacc
  · rw [advance_acc, List.map_map]
    rfl
  · rw [advance_acc, List.getElem?_map, he] at he'
    cases he'
    rfl

/-- One element's part of the store step changes no byte but those of its element (R55, R114). -/
theorem byte_storeEntry {cfg : Config} {x : Args} {d : Dims} {w : Worker} {mem : Memory} {e : AccEntry} {a : Nat}
    (hc : x.c.base + req d .c ≤ 2 ^ 64) (hwf : mem.wf = true)
    (ha : a ≠ addrC x d (rowIndex cfg w e.i) (colIndex cfg w e.j) ∧ a ≠ addrC x d (rowIndex cfg w e.i) (colIndex cfg w e.j) + 1) :
    (storeEntry cfg x d w mem e).byte a = mem.byte a := by
  obtain ⟨hsame, -⟩ | ⟨hset, hm, hn, -⟩ := storeEntry_cases cfg x d w mem e
  · rw [hsame]
  · rw [hset, Memory.byte_setHalf hwf ((addrC_inside hm hn).2.trans hc), if_neg ha.1, if_neg ha.2]

/-- The store step changes no byte but those of its tile's elements (R114). -/
theorem byte_storeMemory {cfg : Config} {x : Args} {d : Dims} {w : Worker} {mem : Memory} {a : Nat}
    (hr : rangesInSpace x d = true) (hwf : mem.wf = true)
    (ha : ∀ e ∈ w.acc, a ≠ addrC x d (rowIndex cfg w e.i) (colIndex cfg w e.j) ∧
      a ≠ addrC x d (rowIndex cfg w e.i) (colIndex cfg w e.j) + 1) :
    (storeMemory cfg mem x d w).byte a = mem.byte a := by
  unfold storeMemory
  generalize w.acc = es at ha
  induction es generalizing mem with
  | nil => rfl
  | cons e es ih =>
    rw [List.foldl_cons, ih (storeEntry_wf hwf hr) fun e' he' => ha e' (List.mem_cons_of_mem e he')]
    exact byte_storeEntry (range_c_inSpace hr) hwf (ha e List.mem_cons_self)

/-- Settles O29: the store step writes each element of the tile and no other byte. -/
theorem workerStoresItsTile : Obligations.WorkerStoresItsTile := by
  intro s p w rest hinv ha hw hs hk
  have hc := hinv.computing (hinv.compute_of_worker hw)
  have hstep := workerStep_store (s := { s with agenda := rest }) hw hc.inSpace hs hk
  obtain ⟨-, hfinal⟩ := hinv.storeMemory_writes hw hs (hc.dims ▸ hk)
  rw [← hc.dims] at hfinal
  exact ⟨_, markStored w, (step_worker ha).trans hstep, rfl, rfl, hfinal, fun a => byte_storeMemory hc.inSpace hinv.memWf⟩

/-- An element store whose entry is written already changes nothing (R114). -/
theorem storeEntry_of_written {cfg : Config} {x : Args} {d : Dims} {w : Worker} {mem : Memory} {e : AccEntry} (h : e.written = true) :
    storeEntry cfg x d w mem e = mem := by
  simp [storeEntry, h]

/-- Replacing a worker by itself changes nothing. -/
theorem State.setWorker_self {s : State} {p : Nat} {w : Worker} (hw : s.workers[p]? = some w) : s.setWorker p w = s := by
  obtain ⟨hp, rfl⟩ := List.getElem?_eq_some_iff.mp hw
  rw [State.setWorker, List.set_getElem_self]

/-- Settles O59: an entry that is ready and not yet written is stored and marked; in the other cases the step changes nothing. -/
theorem storeElementWritesOneElement : Obligations.StoreElementWritesOneElement := by
  intro s p q rest hinv ha
  rw [step_storeElement ha]
  refine ⟨fun w e hw hq hs hk _ c hc' => ?_, fun hwritten => ?_⟩
  · subst hc'
    have hc := hinv.computing (hinv.compute_of_worker hw)
    have hstep := storeElementStep_write (s := { s with agenda := rest }) hw hq hc.inSpace hs hk
    obtain ⟨-, hfinal⟩ := hinv.storeEntry_writes hw hq hs (hc.dims ▸ hk)
    rw [← hc.dims] at hfinal
    rw [markWritten_eq hq] at hstep
    exact ⟨_, hstep, rfl, hfinal, fun a hlow hhigh => byte_storeEntry (range_c_inSpace hc.inSpace) hinv.memWf ⟨hlow, hhigh⟩⟩
  · by_cases hready : ∃ w e, s.workers[p]? = some w ∧ w.acc[q]? = some e ∧ w.stage = .accum ∧ w.k = s.shape.dims.k
    · obtain ⟨w, e, hw, hq, hs, hk⟩ := hready
      have hc := hinv.computing (hinv.compute_of_worker hw)
      have hmark := hwritten w e hw hq hs hk
      rw [storeElementStep_write (s := { s with agenda := rest }) hw hq hc.inSpace hs hk, markWritten_of_written hq hmark,
        storeEntry_of_written hmark, State.setWorker_self (s := { s with agenda := rest }) hw]
      rfl
    · exact storeElementStep_of_not_ready (s := { s with agenda := rest }) fun w e hw hq hwk => hready ⟨w, e, hw, hq, hwk⟩

end Sys2Proof.Machine
end

section
/-! PROOFS. ROUND_F32 reads the number alone, not the dyadic it is written as, and keeps the numbers of binary32 (R85, R86, R154). -/

namespace Sys2Proof.Machine

/-- Rounding a quotient does not see a common factor (R154). -/
theorem rne_mul_right (a b : Nat) {c : Nat} (hc : 0 < c) : rne (a * c) (b * c) = rne a b := by
  simp only [rne, Nat.mul_div_mul_right a b hc, Nat.mul_mod_mul_right, ← Nat.mul_assoc, Nat.mul_lt_mul_right hc]

@[simp] theorem rne_one (a : Nat) : rne a 1 = a := by
  simp [rne, Nat.mod_one]

/-- Rounding a scaled number does not see how it is split between significand and exponent (R154). -/
theorem rneScaled_mul_two_pow (a k : Nat) (d : Int) : rneScaled (a * 2 ^ k) (d - k) = rneScaled a d := by
  unfold rneScaled
  by_cases hd : 0 ≤ d
  · by_cases hdk : 0 ≤ d - k
    · have hexp : k + (d - k).toNat = d.toNat := by omega
      rw [if_pos hd, if_pos hdk, Nat.mul_assoc, ← Nat.pow_add, hexp]
    · have hexp : k = d.toNat + (-(d - k)).toNat := by omega
      have hpow : a * 2 ^ k = a * 2 ^ d.toNat * 2 ^ (-(d - k)).toNat := by rw [Nat.mul_assoc, ← Nat.pow_add, ← hexp]
      have hround := rne_mul_right (a * 2 ^ d.toNat) 1 (Nat.two_pow_pos (-(d - k)).toNat)
      rw [if_pos hd, if_neg hdk, hpow]
      rwa [Nat.one_mul, rne_one] at hround
  · have hexp : (-(d - k)).toNat = (-d).toNat + k := by omega
    rw [if_neg hd, if_neg (by omega), hexp, Nat.pow_add, rne_mul_right _ _ (Nat.two_pow_pos k)]

/-- The last kept bit belongs to the number, not to the way it is written (R154). -/
theorem keptExp_mul_two_pow {a : Nat} (ha : a ≠ 0) (k : Nat) (x : Int) : keptExp (a * 2 ^ k) (x - k) = keptExp a x := by
  have hlog : Nat.log2 (a * 2 ^ k) = Nat.log2 a + k := by
    induction k with
    | zero => rw [Nat.pow_zero, Nat.mul_one, Nat.add_zero]
    | succ k ih =>
      rw [Nat.pow_succ, ← Nat.mul_assoc, Nat.log2_eq_log_two, Nat.log_mul_base (by decide) (by positivity), ← Nat.log2_eq_log_two, ih,
        Nat.add_assoc]
  simp only [keptExp, hlog]
  omega

theorem roundF32_mul_two_pow {n : Int} (hn : n ≠ 0) (k : Nat) (x : Int) : roundF32 ⟨n * 2 ^ k, x - k⟩ = roundF32 ⟨n, x⟩ := by
  have habs : (n * 2 ^ k).natAbs = n.natAbs * 2 ^ k := by rw [Int.natAbs_mul, Int.natAbs_pow]; rfl
  have hsign : n * 2 ^ k < 0 ↔ n < 0 := by
    have : (0 : Int) < 2 ^ k := by positivity
    constructor <;> intro h <;> nlinarith
  simp only [roundF32, habs, hsign, keptExp_mul_two_pow (Int.natAbs_ne_zero.mpr hn)]
  rw [show x - (k : Int) - keptExp n.natAbs x = x - keptExp n.natAbs x - k by omega, rneScaled_mul_two_pow]

/-- Two dyadics of one number: the one of the larger exponent is the other with its exponent lowered. -/
theorem Exact.num_eq_of_toRat {r r' : Exact} (h : r.toRat = r'.toRat) (hle : r'.exp ≤ r.exp) :
    r'.num = r.num * 2 ^ (r.exp - r'.exp).toNat := by
  have hexp : r.exp = ((r.exp - r'.exp).toNat : Int) + r'.exp := by omega
  rw [Exact.toRat, Exact.toRat, hexp, zpow_add₀ two_ne_zero, ← mul_assoc, zpow_natCast] at h
  have := mul_right_cancel₀ (zpow_ne_zero r'.exp (two_ne_zero (α := ℚ))) h
  exact_mod_cast this.symm

theorem Exact.num_eq_zero_iff {r : Exact} : r.num = 0 ↔ r.toRat = 0 := by
  simp [Exact.toRat, zpow_ne_zero]

/-- ROUND_F32 depends on the number alone (R154). -/
theorem roundF32_congr {r r' : Exact} (hr : r.num ≠ 0) (h : r.toRat = r'.toRat) : roundF32 r = roundF32 r' := by
  wlog hle : r'.exp ≤ r.exp generalizing r r'
  · have hr' : r'.num ≠ 0 := by rwa [Ne, Exact.num_eq_zero_iff, ← h, ← Exact.num_eq_zero_iff]
    exact (this hr' h.symm (by omega)).symm
  · have hnum := Exact.num_eq_of_toRat h hle
    have hscale := roundF32_mul_two_pow hr (r.exp - r'.exp).toNat r.exp
    rw [← hnum, show r.exp - ((r.exp - r'.exp).toNat : Int) = r'.exp by omega] at hscale
    exact hscale.symm

/-- A word is its three fields (R85). -/
theorem packF32_fields (u : Word) : packF32 (signOf u) (expField u) (fracField u) = u := by
  have hu := u.isLt
  have hsign : (signOf u).toNat = u.toNat / 2 ^ 31 := by
    rw [signOf, BitVec.getLsbD, Nat.toNat_testBit]
    omega
  apply BitVec.eq_of_toNat_eq
  simp only [packF32, hsign, expField, fracField, BitVec.extractLsb'_toNat, Nat.shiftRight_eq_div_pow, BitVec.toNat_ofNat]
  omega

theorem expField_lt (u : Word) : expField u < 256 := (u.extractLsb' 23 8).isLt

theorem fracField_lt (u : Word) : fracField u < 2 ^ 23 := (u.extractLsb' 0 23).isLt

/-- The words that denote numbers other than zero: subnormal and normal (R85, R132). -/
theorem f32dec_fin {u : Word} {s : Bool} {m : Nat} {x : Int} (h : f32dec u = .fin s m x) :
    s = signOf u ∧
      ((expField u = 0 ∧ fracField u ≠ 0 ∧ m = fracField u ∧ x = -149) ∨
       (expField u ≠ 0 ∧ expField u ≠ 255 ∧ m = 2 ^ 23 + fracField u ∧ x = (expField u : Int) - 150)) := by
  simp only [f32dec] at h
  split_ifs at h with hnan hinf hzero hsub <;> cases h
  · exact ⟨rfl, .inl ⟨hsub, fun ht => hzero ⟨hsub, ht⟩, rfl, rfl⟩⟩
  · exact ⟨rfl, .inr ⟨hsub, hinf, rfl, rfl⟩⟩

/-- The last bit that ROUND_F32 keeps of a binary32 number is the last bit of its own significand (R85, R154). -/
theorem keptExp_f32dec {u : Word} {s : Bool} {m : Nat} {x : Int} (h : f32dec u = .fin s m x) : keptExp m x = x := by
  have ht := fracField_lt u
  have hE := expField_lt u
  obtain ⟨-, ⟨-, hne, rfl, rfl⟩ | ⟨he, -, rfl, rfl⟩⟩ := f32dec_fin h
  · have hlog : Nat.log2 (fracField u) < 23 := (Nat.log2_lt hne).mpr ht
    simp only [keptExp]
    omega
  · have hlog : Nat.log2 (2 ^ 23 + fracField u) = 23 := by
      rw [Nat.log2_eq_iff (by omega)]
      omega
    simp only [keptExp, hlog]
    omega

/-- ROUND_F32 returns the word of a number that is a binary32 value (R86, R154). -/
theorem roundF32_f32dec {u : Word} {s : Bool} {m : Nat} {x : Int} (h : f32dec u = .fin s m x) :
    roundF32 (f32dec u).exact = u := by
  have ht := fracField_lt u
  have hE := expField_lt u
  have hkept := keptExp_f32dec h
  obtain ⟨hs, hfields⟩ := f32dec_fin h
  have hm : m ≠ 0 := by omega
  have habs : (if s then -(m : Int) else m).natAbs = m := by cases s <;> simp
  have hsign : decide ((if s then -(m : Int) else m) < 0) = s := by
    cases s
    · simp
    · simp; omega
  have hround : roundF32 (f32dec u).exact = encodeF32 s m x := by
    simp only [h, ClassVal.exact, roundF32, habs, hsign, hkept, Int.sub_self, rneScaled]
    simp
  have hcarry : m ≠ 2 ^ 24 := by omega
  simp only [hround, encodeF32, if_neg hm, if_neg hcarry]
  conv_rhs => rw [← packF32_fields u, ← hs]
  obtain ⟨he, -, hmt, -⟩ | ⟨he, hne, hmt, hx⟩ := hfields
  · rw [if_pos (by omega), he, hmt]
  · rw [if_neg (by omega), if_neg (by omega), show (x + 150).toNat = expField u by omega, show m - 2 ^ 23 = fracField u by omega]

/-- ROUND_F32 of any dyadic of a binary32 value that is not zero is its word (R154). -/
theorem roundF32_of_toRat {u : Word} {r : Exact} (hu : (f32dec u).isFinite = true) (hr : r.num ≠ 0) (h : r.toRat = (f32dec u).val) :
    roundF32 r = u := by
  rw [roundF32_congr hr (show r.toRat = (f32dec u).exact.toRat from h)]
  cases hc : f32dec u with
  | fin s m x => exact hc ▸ roundF32_f32dec hc
  | zero s =>
    rw [hc, ClassVal.val_zero, ← Exact.num_eq_zero_iff] at h
    exact absurd h hr
  | nan => simp [hc, ClassVal.isFinite] at hu
  | inf s => simp [hc, ClassVal.isFinite] at hu

end Sys2Proof.Machine
end

section
/-! PROOFS. Products of class values and the accumulate step: what a zero factor gives (R122, R136, R152, R155). -/

namespace Sys2Proof.Machine

theorem ClassVal.isFinite_iff {p : ClassVal} : p.isFinite = true ↔ (∃ s, p = .zero s) ∨ ∃ s m x, p = .fin s m x := by
  cases p <;> simp [ClassVal.isFinite]

theorem ClassVal.isZero_iff {p : ClassVal} : p.isZero = true ↔ ∃ s, p = .zero s := by
  cases p <;> simp [ClassVal.isZero]

section Products

variable {p q : ClassVal}

/-- The table of products is symmetric (R136). -/
theorem cmul_comm (p q : ClassVal) : cmul p q = cmul q p := by
  cases p <;> cases q <;> simp [cmul, Bool.xor_comm, Nat.mul_comm, Int.add_comm]

/-- NaN absorbs every product (R136). -/
theorem cmul_nan (h : p = .nan ∨ q = .nan) : cmul p q = .nan := by
  obtain rfl | rfl := h
  · rfl
  · rw [cmul_comm]; rfl

/-- Finite factors have a finite product (R136). -/
theorem cmul_isFinite (hp : p.isFinite = true) (hq : q.isFinite = true) : (cmul p q).isFinite = true := by
  obtain ⟨s, rfl⟩ | ⟨s, m, x, rfl⟩ := ClassVal.isFinite_iff.mp hp
  all_goals obtain ⟨t, rfl⟩ | ⟨t, n, y, rfl⟩ := ClassVal.isFinite_iff.mp hq <;> rfl

/-- A zero among finite factors makes the product a zero (R136). -/
theorem cmul_isZero (hp : p.isFinite = true) (hq : q.isFinite = true) (h : p.isZero = true ∨ q.isZero = true) :
    (cmul p q).isZero = true := by
  have hleft : ∀ {p q : ClassVal}, p.isZero = true → q.isFinite = true → (cmul p q).isZero = true := by
    intro p q hp hq
    obtain ⟨s, rfl⟩ := ClassVal.isZero_iff.mp hp
    obtain ⟨t, rfl⟩ | ⟨t, n, y, rfl⟩ := ClassVal.isFinite_iff.mp hq <;> rfl
  obtain h | h := h
  · exact hleft h hq
  · exact cmul_comm p q ▸ hleft h hp

/-- A product with a zero factor is NaN or a zero (R136). -/
theorem cmul_of_isZero (h : p.isZero = true ∨ q.isZero = true) : cmul p q = .nan ∨ (cmul p q).isZero = true := by
  have hleft : ∀ {p : ClassVal} (q : ClassVal), p.isZero = true → cmul p q = .nan ∨ (cmul p q).isZero = true := by
    intro p q hp
    obtain ⟨s, rfl⟩ := ClassVal.isZero_iff.mp hp
    cases q <;> simp [cmul, ClassVal.isZero]
  obtain h | h := h
  · exact hleft q h
  · exact cmul_comm p q ▸ hleft p h

/-- A product with an infinite factor is NaN or an infinity (R136). -/
theorem cmul_of_inf {s : Bool} (h : p = .inf s ∨ q = .inf s) : cmul p q = .nan ∨ ∃ t, cmul p q = .inf t := by
  have hleft : ∀ q, cmul (.inf s) q = .nan ∨ ∃ t, cmul (.inf s) q = .inf t := by
    intro q
    cases q <;> simp [cmul]
  obtain rfl | rfl := h
  · exact hleft q
  · exact cmul_comm p _ ▸ hleft p

/-- A zero met with an infinity is NaN (R136, R152). -/
theorem cmul_zero_by_inf (hp : p = .nan ∨ p.isZero = true) (hq : q = .nan ∨ ∃ t, q = .inf t) : cmul p q = .nan := by
  obtain rfl | hp := hp
  · rfl
  obtain rfl | ⟨t, rfl⟩ := hq
  · exact cmul_nan (.inr rfl)
  · obtain ⟨s, rfl⟩ := ClassVal.isZero_iff.mp hp
    rfl

/-- No class value is a zero and an infinity. -/
theorem ClassVal.eq_nan_of_zero_and_inf (hz : p = .nan ∨ p.isZero = true) (hi : p = .nan ∨ ∃ t, p = .inf t) : p = .nan := by
  obtain rfl | ⟨t, rfl⟩ := hi
  · rfl
  · exact hz.resolve_right (by simp [ClassVal.isZero])

end Products

/-- A dyadic written at a smaller exponent. -/
theorem Exact.toRat_eq_at {r : Exact} {x : Int} (h : x ≤ r.exp) : r.toRat = (r.num * 2 ^ (r.exp - x).toNat : Int) * (2 : ℚ) ^ x := by
  have hexp : (((r.exp - x).toNat : Nat) : Int) = r.exp - x := by omega
  push_cast
  rw [← zpow_natCast, hexp, mul_assoc, ← zpow_add₀ two_ne_zero, sub_add_cancel]
  rfl

/-- The exact sum is the sum of the numbers. -/
theorem Exact.toRat_add (a b : Exact) : (a.add b).toRat = a.toRat + b.toRat := by
  rw [Exact.toRat_eq_at (min_le_left a.exp b.exp), Exact.toRat_eq_at (min_le_right a.exp b.exp), ← add_mul, ← Int.cast_add]
  rfl

/-- The sum branch of ACC_STEP (R155). -/
theorem accStep_finite {u : Word} {t : ClassVal} (hu : (f32dec u).isFinite = true) (ht : t.isFinite = true) :
    accStep u t = addFinite (f32dec u) t := by
  unfold accStep
  generalize f32dec u = a at *
  obtain ⟨s, rfl⟩ | ⟨s, m, x, rfl⟩ := ClassVal.isFinite_iff.mp hu
  all_goals obtain ⟨z, rfl⟩ | ⟨z, n, y, rfl⟩ := ClassVal.isFinite_iff.mp ht <;> dsimp only

/-- An infinite accumulator absorbs a finite term (R155). -/
theorem accStep_inf_of_finite {u : Word} {s : Bool} {t : ClassVal} (hu : f32dec u = .inf s) (ht : t.isFinite = true) :
    accStep u t = u := by
  unfold accStep
  rw [hu]
  obtain ⟨z, rfl⟩ | ⟨z, n, y, rfl⟩ := ClassVal.isFinite_iff.mp ht <;> rfl

/-- A number other than zero that is a binary32 value has a significand that is not zero (R13, R132). -/
theorem f32dec_fin_num_ne_zero {u : Word} {s : Bool} {m : Nat} {x : Int} (h : f32dec u = .fin s m x) : (f32dec u).exact.num ≠ 0 := by
  obtain ⟨-, hfields⟩ := f32dec_fin h
  rw [h]
  cases s
  · simp only [ClassVal.exact]; omega
  · simp only [ClassVal.exact]; omega

/-- A zero term leaves an accumulator that is neither NaN nor zero as it is: the exact sum is the number it holds (R122, R155). -/
theorem accStep_zero {u : Word} {t : ClassVal} (ht : t.isZero = true) (hnan : f32dec u ≠ .nan) (hzero : (f32dec u).isZero = false) :
    accStep u t = u := by
  obtain ⟨z, rfl⟩ := ClassVal.isZero_iff.mp ht
  cases hu : f32dec u with
  | nan => exact absurd hu hnan
  | inf s => exact accStep_inf_of_finite hu rfl
  | zero s => simp [hu, ClassVal.isZero] at hzero
  | fin s m x =>
    have hfin : (f32dec u).isFinite = true := by rw [hu]; rfl
    have hsum : ((f32dec u).exact.add (ClassVal.zero z).exact).toRat = (f32dec u).val := by
      rw [Exact.toRat_add]
      exact (congrArg _ (ClassVal.val_zero z)).trans (add_zero _)
    have hne : ((f32dec u).exact.add (ClassVal.zero z).exact).num ≠ 0 := by
      rw [Ne, Exact.num_eq_zero_iff, hsum]
      exact mt Exact.num_eq_zero_iff.mpr (f32dec_fin_num_ne_zero hu)
    rw [accStep_finite hfin rfl, addFinite, if_neg hne]
    exact roundF32_of_toRat hfin hne hsum

/-- A zero term leaves a zero accumulator a zero, of the one sign or the other (R155). -/
theorem accStep_zero_zero {u : Word} {t : ClassVal} (ht : t.isZero = true) (hu : (f32dec u).isZero = true) :
    (f32dec (accStep u t)).isZero = true := by
  obtain ⟨z, rfl⟩ := ClassVal.isZero_iff.mp ht
  obtain ⟨s, hs⟩ := ClassVal.isZero_iff.mp hu
  rw [accStep_finite (by rw [hs]; rfl) rfl, hs]
  have hsum : ((ClassVal.zero s).exact.add (ClassVal.zero z).exact).num = 0 := rfl
  rw [addFinite, if_pos hsum]
  split_ifs <;> decide

/-- Settles O47: the four factors make two products, one of them a zero, or NaN. -/
theorem zeroFactorsContributeNothing : Obligations.ZeroFactorsContributeNothing := by
  intro va sa vb sb u
  refine ⟨fun hva hsa hvb hsb hzero => ?_, fun hnan => ?_, fun hzero hinf => ?_⟩
  · have hA : (dqmul va sa).isFinite = true := cmul_isFinite hva hsa
    have hB : (dqmul vb sb).isFinite = true := cmul_isFinite hvb hsb
    have hterm : (term (dqmul va sa) (dqmul vb sb)).isZero = true := by
      obtain h | h | h | h := hzero
      · exact cmul_isZero hA hB (.inl (cmul_isZero hva hsa (.inl h)))
      · exact cmul_isZero hA hB (.inl (cmul_isZero hva hsa (.inr h)))
      · exact cmul_isZero hA hB (.inr (cmul_isZero hvb hsb (.inl h)))
      · exact cmul_isZero hA hB (.inr (cmul_isZero hvb hsb (.inr h)))
    exact ⟨hterm, accStep_zero hterm, accStep_zero_zero hterm⟩
  · obtain h | h | h | h := hnan
    · exact cmul_nan (.inl (cmul_nan (.inl h)))
    · exact cmul_nan (.inl (cmul_nan (.inr h)))
    · exact cmul_nan (.inr (cmul_nan (.inl h)))
    · exact cmul_nan (.inr (cmul_nan (.inr h)))
  · obtain ⟨s, hinf⟩ := hinf
    rw [← or_assoc] at hzero hinf
    obtain hz | hz := hzero.imp cmul_of_isZero cmul_of_isZero
    all_goals obtain hi | hi := hinf.imp cmul_of_inf cmul_of_inf
    · exact cmul_nan (.inl (ClassVal.eq_nan_of_zero_and_inf hz hi))
    · exact cmul_zero_by_inf hz hi
    · exact (cmul_comm _ _).trans (cmul_zero_by_inf hz hi)
    · exact cmul_nan (.inr (ClassVal.eq_nan_of_zero_and_inf hz hi))

end Sys2Proof.Machine
end

section
/-! PROOFS. The reduction reads class values, not their representations (R13, R123): products, the accumulate step and an element of C. -/

namespace Sys2Proof.Machine

/-- Two magnitudes are the same exactly when they are one rational number (R13). -/
theorem sameMagnitude_iff {m n : Nat} {x y : Int} : sameMagnitude m x n y = true ↔ (m : ℚ) * 2 ^ x = n * 2 ^ y := by
  have hm := Exact.toRat_eq_at (r := ⟨m, x⟩) (min_le_left x y)
  have hn := Exact.toRat_eq_at (r := ⟨n, y⟩) (min_le_right x y)
  simp only [Exact.toRat, Int.cast_natCast] at hm hn
  rw [hm, hn, mul_left_inj' (zpow_ne_zero _ two_ne_zero), sameMagnitude, decide_eq_true_iff]
  norm_cast

namespace ClassVal

variable {p p' q q' : ClassVal}

/-- Two class values that are the same: one value that is no number, or two numbers of one sign and magnitude (R13). -/
theorem same_cases (h : p.same q = true) :
    (p = q ∧ ∀ s m x, p ≠ .fin s m x) ∨ ∃ s m x n y, p = .fin s m x ∧ q = .fin s n y ∧ (m : ℚ) * 2 ^ x = n * 2 ^ y := by
  cases p with
  | fin s m x =>
    cases q with
    | fin t n y =>
      simp only [ClassVal.same, Bool.and_eq_true, beq_iff_eq, sameMagnitude_iff] at h
      obtain ⟨rfl, hval⟩ := h
      exact .inr ⟨s, m, x, n, y, rfl, rfl, hval⟩
    | nan | inf | zero => cases h
  | nan | inf s | zero s => cases q <;> simp_all [ClassVal.same]

theorem same_fin {s : Bool} {m n : Nat} {x y : Int} (h : (m : ℚ) * 2 ^ x = n * 2 ^ y) :
    (ClassVal.fin s m x).same (.fin s n y) = true := by
  simp only [ClassVal.same, beq_self_eq_true, sameMagnitude_iff.mpr h, Bool.and_self]

theorem same_refl (p : ClassVal) : p.same p = true := by
  cases p <;> simp [ClassVal.same, sameMagnitude]

/-- A product with a factor that is no number reads the sign alone of the other factor, if that is a number (R136). -/
theorem cmul_fin_same_of_not_fin {s : Bool} {m n : Nat} {x y : Int} (hq : ∀ t k z, q ≠ .fin t k z) :
    (cmul (.fin s m x) q).same (cmul (.fin s n y) q) = true := by
  cases q with
  | nan | inf | zero => exact same_refl _
  | fin t k z => exact absurd rfl (hq t k z)

/-- Products of the same factors are the same (R123, R136). -/
theorem cmul_same (hp : p.same p' = true) (hq : q.same q' = true) : (cmul p q).same (cmul p' q') = true := by
  obtain ⟨rfl, hp'⟩ | ⟨s, m, x, n, y, rfl, rfl, hval⟩ := same_cases hp
  all_goals obtain ⟨rfl, hq'⟩ | ⟨s', m', x', n', y', rfl, rfl, hval'⟩ := same_cases hq
  · exact same_refl _
  · rw [cmul_comm p, cmul_comm p]
    exact cmul_fin_same_of_not_fin hp'
  · exact cmul_fin_same_of_not_fin hq'
  · refine same_fin ?_
    rw [zpow_add₀ two_ne_zero, zpow_add₀ two_ne_zero, Nat.cast_mul, Nat.cast_mul, mul_mul_mul_comm, hval, hval', mul_mul_mul_comm]

end ClassVal

/-- The sum branch with a number other than a zero as the term: no sum of it is -0 (R155). -/
theorem addFinite_fin (a : ClassVal) (s : Bool) (m : Nat) (x : Int) :
    addFinite a (.fin s m x) =
      if (a.exact.add (ClassVal.fin s m x).exact).num = 0 then 0x00000000#32 else roundF32 (a.exact.add (ClassVal.fin s m x).exact) := by
  simp only [addFinite, reduceCtorEq, and_false, if_false]

/-- The sum branch reads the number of its term (R155). -/
theorem addFinite_fin_congr (a : ClassVal) {s : Bool} {m n : Nat} {x y : Int} (h : (m : ℚ) * 2 ^ x = n * 2 ^ y) :
    addFinite a (.fin s m x) = addFinite a (.fin s n y) := by
  have hval : (ClassVal.fin s m x).val = (ClassVal.fin s n y).val := by
    rw [ClassVal.val_fin, ClassVal.val_fin, mul_assoc, h, mul_assoc]
  have hsum : (a.exact.add (ClassVal.fin s m x).exact).toRat = (a.exact.add (ClassVal.fin s n y).exact).toRat := by
    rw [Exact.toRat_add, Exact.toRat_add]
    exact congrArg _ hval
  have hnum : (a.exact.add (ClassVal.fin s m x).exact).num = 0 ↔ (a.exact.add (ClassVal.fin s n y).exact).num = 0 := by
    rw [Exact.num_eq_zero_iff, hsum, ← Exact.num_eq_zero_iff]
  rw [addFinite_fin, addFinite_fin]
  split_ifs with h₁ h₂ h₂
  · rfl
  · exact absurd (hnum.mp h₁) h₂
  · exact absurd (hnum.mpr h₂) h₁
  · exact roundF32_congr h₁ hsum

/-- The accumulate step reads the class value of its term (R155). -/
theorem accStep_same {t t' : ClassVal} (h : t.same t' = true) (u : Word) : accStep u t = accStep u t' := by
  obtain ⟨rfl, -⟩ | ⟨s, m, x, n, y, rfl, rfl, hval⟩ := ClassVal.same_cases h
  · rfl
  · cases hu : f32dec u with
    | nan =>
      unfold accStep
      rw [hu]
    | inf s => rw [accStep_inf_of_finite hu rfl, accStep_inf_of_finite hu rfl]
    | zero | fin =>
      have hfin : (f32dec u).isFinite = true := by rw [hu]; rfl
      rw [accStep_finite hfin rfl, accStep_finite hfin rfl, addFinite_fin_congr _ hval]

/-- The reduction reads the class values of its terms (R157). -/
theorem reduceK_same {ts ts' : List ClassVal} (h : List.Forall₂ (fun t t' => t.same t' = true) ts ts') : reduceK ts = reduceK ts' := by
  have hfold : ∀ u, ts.foldl accStep u = ts'.foldl accStep u := by
    induction h with
    | nil => exact fun _ => rfl
    | cons ht _ ih => exact fun u => by rw [List.foldl_cons, List.foldl_cons, accStep_same ht, ih]
  exact hfold accInit

/-- An element of C reads the class values of its terms (R115). -/
theorem elem_eq_of_same_terms {fmt : Fp8Format} {mem : Memory} {x : Args} {d : Dims} {m n : Nat} {f : Nat → ClassVal}
    (h : ∀ k, k < d.k → (termAt fmt mem x d m n k).same (f k) = true) :
    elem fmt mem x d m n = cvtBF16 (reduceK ((List.range d.k).map f)) := by
  refine congrArg cvtBF16 (reduceK_same ?_)
  rw [List.forall₂_map_left_iff, List.forall₂_map_right_iff, List.forall₂_same]
  exact fun k hk => h k (List.mem_range.mp hk)

/-- Settles O53: the terms are products of the dequantized values. -/
theorem elementDependsOnDequantizedValues : Obligations.ElementDependsOnDequantizedValues :=
  fun _ _ _ _ _ _ _ hA hB => elem_eq_of_same_terms fun k hk => ClassVal.cmul_same (hA k hk) (hB k hk)

/-- 256 terms of 1 sum to 256, and 256 terms of 2 to 512 (S1, S2 of the spec's test vectors). -/
theorem reduceK_ones : reduceK (List.replicate 256 (.fin false 1 0)) = 0x43800000#32 := by decide +kernel

theorem reduceK_twos : reduceK (List.replicate 256 (.fin false 2 0)) = 0x44000000#32 := by decide +kernel

/-- Settles O55: the element is that of 256 equal terms, whose sum is exact. -/
theorem unitScenarioGivesK : Obligations.UnitScenarioGivesK := by
  intro fmt mem x d m n hk
  refine ⟨fun h => ?_, fun h => ?_⟩
  · rw [elem_eq_of_same_terms (f := fun _ => .fin false 1 0) (hk ▸ h), hk, List.map_const', List.length_range, reduceK_ones]
    decide
  · rw [elem_eq_of_same_terms (f := fun _ => .fin false 2 0) (hk ▸ h), hk, List.map_const', List.length_range, reduceK_twos]
    decide

end Sys2Proof.Machine
end

section
/-! PROOFS. The dequantizing multiply is exact, and its finite results are given by the real product and the xor of the signs (R136, R137, R139). -/

namespace Sys2Proof.Machine

namespace ClassVal

variable {p q : ClassVal} {s t : Bool}

/-- The value of a product of finite factors is the product of the values (R136, R139 (a)). -/
theorem val_cmul (hp : p.isFinite = true) (hq : q.isFinite = true) : (cmul p q).val = p.val * q.val := by
  obtain ⟨s, rfl⟩ | ⟨s, m, x, rfl⟩ := isFinite_iff.mp hp
  all_goals obtain ⟨t, rfl⟩ | ⟨t, n, y, rfl⟩ := isFinite_iff.mp hq
  · simp [cmul]
  · simp [cmul]
  · simp [cmul]
  · have hsign : (if (s ^^ t) = true then (-1 : ℚ) else 1) = (if s then -1 else 1) * (if t then -1 else 1) := by
      cases s <;> cases t <;> simp
    rw [cmul, val_fin, val_fin, val_fin, hsign, zpow_add₀ two_ne_zero, Nat.cast_mul]
    ring

/-- Class values that are the same denote the same number (R13). -/
theorem val_eq_of_same (h : p.same q = true) : p.val = q.val := by
  obtain ⟨rfl, -⟩ | ⟨s, m, x, n, y, rfl, rfl, hval⟩ := same_cases h
  · rfl
  · rw [val_fin, val_fin, mul_assoc, hval, mul_assoc]

/-- The sign of a number is that of its value (R13). -/
theorem val_fin_neg_iff {m : Nat} (hm : 0 < m) (x : Int) : (ClassVal.fin s m x).val < 0 ↔ s = true := by
  have hpos : (0 : ℚ) < m * 2 ^ x := by positivity
  rw [val_fin, mul_assoc]
  cases s
  · simpa using hpos.le
  · simpa using hpos

/-- Two numbers of one value are the same class value (R13). -/
theorem same_fin_of_val_eq {m n : Nat} {x y : Int} (hm : 0 < m) (hn : 0 < n)
    (h : (ClassVal.fin s m x).val = (ClassVal.fin t n y).val) : (ClassVal.fin s m x).same (.fin t n y) = true := by
  have hsign : s = t := by rw [Bool.eq_iff_iff, ← val_fin_neg_iff hm x, h, val_fin_neg_iff hn]
  subst hsign
  rw [val_fin, val_fin, mul_assoc, mul_assoc] at h
  exact same_fin (mul_left_cancel₀ (by split_ifs <;> norm_num) h)

/-- A zero or a number, of the sign `s` and, if a number, of a positive significand (R13). -/
def FiniteOfSign (p : ClassVal) (s : Bool) : Prop := p = .zero s ∨ ∃ m x, 0 < m ∧ p = .fin s m x

namespace FiniteOfSign

/-- The product's sign is the xor of the factors' signs (R136). -/
theorem cmul (hp : p.FiniteOfSign s) (hq : q.FiniteOfSign t) : (cmul p q).FiniteOfSign (s ^^ t) := by
  obtain rfl | ⟨m, x, hm, rfl⟩ := hp
  · obtain rfl | ⟨n, y, -, rfl⟩ := hq <;> exact .inl rfl
  · obtain rfl | ⟨n, y, hn, rfl⟩ := hq
    · exact .inl rfl
    · exact .inr ⟨m * n, x + y, Nat.mul_pos hm hn, rfl⟩

/-- Only a zero has the value 0 (R13). -/
theorem val_eq_zero_iff (h : p.FiniteOfSign s) : p.val = 0 ↔ p = .zero s := by
  obtain rfl | ⟨m, x, hm, rfl⟩ := h
  · simp
  · have hne : (ClassVal.fin s m x).val ≠ 0 := by
      rw [val_fin]
      split_ifs <;> positivity
    exact iff_of_false hne (by simp)

theorem exists_fin (h : p.FiniteOfSign s) (hne : p.val ≠ 0) : ∃ m x, 0 < m ∧ p = .fin s m x :=
  h.resolve_left (mt h.val_eq_zero_iff.mpr hne)

/-- A finite value that is not zero is determined by the number (R139 (b)). -/
theorem same_iff_val_eq (hp : p.FiniteOfSign s) (hq : q.FiniteOfSign t) (hne : p.val ≠ 0) : p.same q = true ↔ p.val = q.val := by
  refine ⟨val_eq_of_same, fun h => ?_⟩
  obtain ⟨m, x, hm, rfl⟩ := hp.exists_fin hne
  obtain ⟨n, y, hn, rfl⟩ := hq.exists_fin (h ▸ hne)
  exact same_fin_of_val_eq hm hn h

/-- A zero is determined by its sign (R139 (b)). -/
theorem zero_same_iff (hq : q.FiniteOfSign t) : (ClassVal.zero s).same q = true ↔ q.val = 0 ∧ s = t := by
  rw [hq.val_eq_zero_iff]
  obtain rfl | ⟨n, y, -, rfl⟩ := hq <;> simp [ClassVal.same]

end FiniteOfSign

end ClassVal

theorem fp8Number_finiteOfSign (bias : Int) (s : Bool) {e t : Nat} (h : ¬ (e = 0 ∧ t = 0)) :
    (fp8Number bias s e t).FiniteOfSign s := by
  unfold fp8Number
  split_ifs with he
  · exact .inr ⟨t, _, Nat.pos_of_ne_zero fun ht => h ⟨he, ht⟩, rfl⟩
  · exact .inr ⟨8 + t, _, by omega, rfl⟩

/-- A byte that is no NaN denotes a zero or a number of its sign bit (R131). -/
theorem fp8dec_finiteOfSign {fmt : Fp8Format} {b : Byte} (hfin : (fp8dec fmt b).isFinite = true) :
    (fp8dec fmt b).FiniteOfSign (b.getLsbD 7) := by
  have hzeros := fp8_zero_fields_iff (b := b) rfl rfl
  cases fmt with
  | e4m3fnuz =>
    obtain ⟨-, h⟩ | ⟨rfl, h⟩ | ⟨hnan, hzero, h⟩ := fp8dec_e4m3fnuz_cases (b := b) rfl rfl
    · simp [h, ClassVal.isFinite] at hfin
    · exact .inl h
    · exact h ▸ fp8Number_finiteOfSign 8 _ (mt hzeros.mp (not_or.mpr ⟨hzero, hnan⟩))
  | e4m3fn =>
    obtain ⟨-, h⟩ | ⟨-, h⟩ | ⟨-, hzero, h⟩ := fp8dec_e4m3fn_cases (b := b) rfl rfl
    · simp [h, ClassVal.isFinite] at hfin
    · exact .inl h
    · exact h ▸ fp8Number_finiteOfSign 7 _ (mt hzeros.mp hzero)

/-- A binary32 zero has the word's sign (R132). -/
theorem f32dec_zero {u : Word} {s : Bool} (h : f32dec u = .zero s) : s = signOf u := by
  simp only [f32dec] at h
  split_ifs at h
  cases h
  rfl

/-- A finite word denotes a zero or a number of its sign bit (R132). -/
theorem f32dec_finiteOfSign {u : Word} (hfin : (f32dec u).isFinite = true) : (f32dec u).FiniteOfSign (signOf u) := by
  obtain ⟨s, h⟩ | ⟨s, m, x, h⟩ := ClassVal.isFinite_iff.mp hfin
  · exact .inl (f32dec_zero h ▸ h)
  · obtain ⟨rfl, hfields⟩ := f32dec_fin h
    exact .inr ⟨m, x, by omega, h⟩

section Dequantized

variable {fmt : Fp8Format} {b : Byte} {s : Word} (hb : (fp8dec fmt b).isFinite = true) (hs : (f32dec s).isFinite = true)
include hb hs

/-- The dequantized value's sign is the xor of the sign bits of byte and scale (R137). -/
theorem dq_finiteOfSign : (dq fmt b s).FiniteOfSign (b.getLsbD 7 ^^ s.getLsbD 31) :=
  (fp8dec_finiteOfSign hb).cmul (f32dec_finiteOfSign hs)

/-- The dequantizing multiply is exact (R139 (a)). -/
theorem dq_val : (dq fmt b s).val = (fp8dec fmt b).val * (f32dec s).val := ClassVal.val_cmul hb hs

end Dequantized

/-- Settles O54: a dequantized value has the product's value and the xor of the signs, which determine a finite class value. -/
theorem dequantizedValueIsTheRealProduct : Obligations.DequantizedValueIsTheRealProduct := by
  intro fmt b b' s s' hb hb' hs hs'
  have hdq := dq_finiteOfSign hb hs
  have hdq' := dq_finiteOfSign hb' hs'
  rw [← dq_val hb hs, ← dq_val hb' hs']
  refine ⟨hdq.same_iff_val_eq hdq', fun hzero => ?_⟩
  have heq := hdq.val_eq_zero_iff.mp hzero
  exact ⟨heq, heq ▸ hdq'.zero_same_iff⟩

/-- Settles O40: the rows of the table, each at its classes. -/
theorem productsAreExact : Obligations.ProductsAreExact := by
  intro p q
  refine ⟨cmul_comm p q, fun hnan => cmul_nan (.inl hnan), ?_, ?_, ?_, ?_, fun hp hq => ⟨cmul_isFinite hp hq, ClassVal.val_cmul hp hq⟩⟩
  · rintro s t rfl rfl
    rfl
  · rintro s t rfl (rfl | ⟨m, x, rfl⟩) <;> rfl
  · rintro s t rfl (rfl | ⟨m, x, rfl⟩) <;> rfl
  · rintro s m x t n y rfl rfl
    rfl

end Sys2Proof.Machine
end

section
/-! PROOFS. Rounding to the nearest integer, ties to even: what `rne` computes, as a property of rational numbers (R154). -/

namespace Sys2Proof.Machine

/-- The integer nearest to `y`, the even one in a tie (R154). -/
def NearestEven (n : Nat) (y : ℚ) : Prop := |(n : ℚ) - y| < 1 / 2 ∨ (|(n : ℚ) - y| = 1 / 2 ∧ n % 2 = 0)

namespace NearestEven

variable {n n' : Nat} {y : ℚ}

theorem dist_le_half (h : NearestEven n y) : |(n : ℚ) - y| ≤ 1 / 2 := h.elim le_of_lt fun h => h.1.le

/-- No integer is nearer. -/
theorem dist_le_of_int (h : NearestEven n y) (z : Int) : |(n : ℚ) - y| ≤ |z - y| := by
  obtain rfl | hne := eq_or_ne (n : Int) z
  · exact le_of_eq rfl
  · have hone : (1 : ℚ) ≤ |(n : ℚ) - z| := by exact_mod_cast Int.one_le_abs (sub_ne_zero.mpr hne)
    have htri : |(n : ℚ) - z| ≤ |(n : ℚ) - y| + |y - z| := abs_sub_le _ _ _
    rw [abs_sub_comm y] at htri
    linarith [h.dist_le_half]

/-- An integer that `y` reaches is reached. -/
theorem le_of_le {k : Nat} (h : NearestEven n y) (hk : (k : ℚ) ≤ y) : k ≤ n := by
  by_contra hlt
  have hsucc : (n : ℚ) + 1 ≤ k := by exact_mod_cast not_le.mp hlt
  linarith [neg_le_of_abs_le h.dist_le_half]

/-- An integer that `y` stays below is not passed. -/
theorem le_of_ge {k : Nat} (h : NearestEven n y) (hk : y ≤ k) : n ≤ k := by
  by_contra hlt
  have hsucc : (k : ℚ) + 1 ≤ n := by exact_mod_cast not_le.mp hlt
  linarith [le_of_abs_le h.dist_le_half]

/-- An integer is its own nearest one. -/
theorem eq_of_nat {k : Nat} (h : NearestEven n k) : n = k := (h.le_of_ge le_rfl).antisymm (h.le_of_le le_rfl)

/-- The midpoint below an even integer rounds up to it. -/
theorem even_le_iff {k : Nat} (h : NearestEven n y) (hk : k % 2 = 0) : k ≤ n ↔ (k : ℚ) - 1 / 2 ≤ y := by
  constructor
  · intro hle
    have hcast : (k : ℚ) ≤ n := by exact_mod_cast hle
    linarith [le_of_abs_le h.dist_le_half]
  · intro hy
    by_contra hlt
    have hsucc : (n : ℚ) + 1 ≤ k := by exact_mod_cast not_le.mp hlt
    obtain h | ⟨h, heven⟩ := h
    · linarith [neg_lt_of_abs_lt h]
    · have hn : (n : ℚ) + 1 = k := by linarith [neg_le_of_abs_le h.le]
      have : n + 1 = k := by exact_mod_cast hn
      omega

/-- There is one nearest even integer. -/
theorem unique (h : NearestEven n y) (h' : NearestEven n' y) : n = n' := by
  wlog hlt : n < n' generalizing n n'
  · obtain heq | hgt := (not_lt.mp hlt).eq_or_lt
    · exact heq.symm
    · exact (this h' h hgt).symm
  · have hsucc : (n : ℚ) + 1 ≤ n' := by exact_mod_cast hlt
    have hlow := neg_le_of_abs_le h.dist_le_half
    have hhigh := le_of_abs_le h'.dist_le_half
    have htie : (n' : ℚ) = n + 1 := by linarith
    have hn : n' = n + 1 := by exact_mod_cast htie
    obtain h | ⟨-, heven⟩ := h
    · linarith [neg_lt_of_abs_lt h]
    · obtain h' | ⟨-, heven'⟩ := h'
      · linarith [lt_of_abs_lt h']
      · omega

end NearestEven

/-- `rne` of a quotient (R154): the remainder says on which side of the midpoint it lies. -/
theorem rne_nearestEven (num : Nat) {den : Nat} (hden : 0 < den) : NearestEven (rne num den) ((num : ℚ) / den) := by
  have hpos : (0 : ℚ) < den := by exact_mod_cast hden
  have hlt : num % den < den := Nat.mod_lt _ hden
  have hdiv : (num : ℚ) / den = (num / den : Nat) + ((num % den : Nat) : ℚ) / den := by
    rw [eq_comm, add_div' _ _ _ hpos.ne', div_left_inj' hpos.ne', mul_comm]
    exact_mod_cast Nat.div_add_mod num den
  rw [hdiv, rne]
  generalize num / den = f, num % den = r at hlt ⊢
  have hfrac : (r : ℚ) / den < 1 := (div_lt_one hpos).mpr (by exact_mod_cast hlt)
  have hdown : |((f : Nat) : ℚ) - (f + (r : ℚ) / den)| = r / den := by
    rw [sub_add_cancel_left, abs_neg, abs_of_nonneg (by positivity)]
  have hup : |((f + 1 : Nat) : ℚ) - (f + (r : ℚ) / den)| = 1 - r / den := by
    rw [Nat.cast_succ, add_sub_add_left_eq_sub, abs_of_pos (sub_pos.mpr hfrac)]
  have hbelow : 2 * r < den ↔ (r : ℚ) / den < 1 / 2 := by
    rw [div_lt_div_iff₀ hpos two_pos, one_mul, mul_comm (r : ℚ)]
    exact_mod_cast Iff.rfl
  have habove : den < 2 * r ↔ 1 / 2 < (r : ℚ) / den := by
    rw [div_lt_div_iff₀ two_pos hpos, one_mul, mul_comm (r : ℚ)]
    exact_mod_cast Iff.rfl
  simp only [hbelow, habove]
  split_ifs with hb ha heven
  · exact .inl (hdown.trans_lt hb)
  · exact .inl (by linarith)
  · exact .inr ⟨by linarith, heven⟩
  · exact .inr ⟨by linarith, by omega⟩

/-- `rneScaled` rounds the number that it scales (R154). -/
theorem rneScaled_nearestEven (a : Nat) (d : Int) : NearestEven (rneScaled a d) (a * 2 ^ d) := by
  unfold rneScaled
  split_ifs with hd
  · refine .inl ?_
    have hpow : ((a * 2 ^ d.toNat : Nat) : ℚ) = a * 2 ^ d := by
      rw [Nat.cast_mul, Nat.cast_pow, ← zpow_natCast, Int.toNat_of_nonneg hd]
      rfl
    rw [hpow, sub_self, abs_zero]
    norm_num
  · have hpow : ((2 ^ (-d).toNat : Nat) : ℚ) = (2 ^ d)⁻¹ := by
      rw [Nat.cast_pow, ← zpow_natCast, Int.toNat_of_nonneg (by omega), zpow_neg]
      rfl
    have hround := rne_nearestEven a (Nat.two_pow_pos (-d).toNat)
    rwa [hpow, div_inv_eq_mul] at hround

end Sys2Proof.Machine
end

section
/-! PROOFS. The words of binary32 from their fields, and the encoding of a rounded magnitude (R85, R86). -/

namespace Sys2Proof.Machine

section Fields

variable {s : Bool} {e t : Nat} (he : e < 256) (ht : t < 2 ^ 23)
include he ht

theorem packF32_toNat : (packF32 s e t).toNat = 2 ^ 31 * s.toNat + 2 ^ 23 * e + t := by
  rw [packF32, BitVec.toNat_ofNat]
  cases s <;> simp only [Bool.toNat_false, Bool.toNat_true] <;> omega

/-- The fields of a packed word are those it was packed from (R85). -/
theorem signOf_packF32 : signOf (packF32 s e t) = s := by
  rw [signOf, BitVec.getLsbD, packF32_toNat he ht, Nat.testBit_eq_decide_div_mod_eq]
  cases s
  · simp only [Bool.toNat_false, decide_eq_false_iff_not]; omega
  · simp only [Bool.toNat_true, decide_eq_true_eq]; omega

theorem expField_packF32 : expField (packF32 s e t) = e := by
  rw [expField, BitVec.extractLsb'_toNat, packF32_toNat he ht, Nat.shiftRight_eq_div_pow]
  omega

theorem fracField_packF32 : fracField (packF32 s e t) = t := by
  rw [fracField, BitVec.extractLsb'_toNat, packF32_toNat he ht, Nat.shiftRight_eq_div_pow]
  omega

end Fields

theorem f32dec_packF32_zero (s : Bool) : f32dec (packF32 s 0 0) = .zero s := by
  cases s <;> decide

theorem f32dec_infF32 (s : Bool) : f32dec (infF32 s) = .inf s := by
  cases s <;> decide

theorem f32dec_packF32_subnormal {s : Bool} {t : Nat} (ht : t < 2 ^ 23) (hne : t ≠ 0) : f32dec (packF32 s 0 t) = .fin s t (-149) := by
  simp [f32dec, signOf_packF32 (by decide : 0 < 256) ht, expField_packF32 (by decide : 0 < 256) ht,
    fracField_packF32 (by decide : 0 < 256) ht, hne]

theorem f32dec_packF32_normal {s : Bool} {e t : Nat} (hne : e ≠ 0) (he : e < 255) (ht : t < 2 ^ 23) :
    f32dec (packF32 s e t) = .fin s (2 ^ 23 + t) ((e : Int) - 150) := by
  have he' : e < 256 := he.trans (by decide)
  simp [f32dec, signOf_packF32 he' ht, expField_packF32 he' ht, fracField_packF32 he' ht, hne, he.ne]

/-- The word is the binary32 number of the sign `s` and the magnitude `v`, or the infinity of the sign when `v` is 2^128 or more (R86). -/
structure RepresentsF32 (u : Word) (s : Bool) (v : ℚ) : Prop where
  number : v < 2 ^ (128 : Int) → (f32dec u).isFinite = true ∧ signOf u = s ∧ (f32dec u).val = (if s then -1 else 1) * v
  overflow : (2 : ℚ) ^ (128 : Int) ≤ v → f32dec u = .inf s

namespace RepresentsF32

variable {u : Word} {s : Bool} {v : ℚ}

/-- The word is finite exactly below 2^128. -/
theorem isFinite_iff (h : RepresentsF32 u s v) : (f32dec u).isFinite = true ↔ v < 2 ^ (128 : Int) := by
  refine ⟨fun hfin => not_le.mp fun hle => ?_, fun hlt => (h.number hlt).1⟩
  rw [h.overflow hle] at hfin
  cases hfin

theorem eq_inf_iff (h : RepresentsF32 u s v) : f32dec u = .inf s ↔ 2 ^ (128 : Int) ≤ v := by
  refine ⟨fun hinf => not_lt.mp fun hlt => ?_, h.overflow⟩
  have hfin := (h.number hlt).1
  rw [hinf] at hfin
  cases hfin

theorem ne_nan (h : RepresentsF32 u s v) : f32dec u ≠ .nan := by
  intro hnan
  obtain hlt | hle := lt_or_ge v (2 ^ (128 : Int))
  · have hfin := (h.number hlt).1
    rw [hnan] at hfin
    cases hfin
  · cases hnan.symm.trans (h.overflow hle)

end RepresentsF32

theorem natCast_mul_two_zpow_lt {n k : Nat} {q x : Int} (hn : n < 2 ^ k) (hq : q + k ≤ x) : (n : ℚ) * 2 ^ q < 2 ^ x := by
  have hcast : (n : ℚ) < 2 ^ (k : Int) := by rw [zpow_natCast]; exact_mod_cast hn
  calc (n : ℚ) * 2 ^ q < 2 ^ (k : Int) * 2 ^ q := by gcongr
    _ = 2 ^ (q + k) := by rw [add_comm, zpow_add₀ two_ne_zero]
    _ ≤ 2 ^ x := zpow_le_zpow_right₀ one_le_two hq

theorem two_zpow_le_natCast_mul {n k : Nat} {q x : Int} (hn : 2 ^ k ≤ n) (hq : x ≤ q + k) : (2 : ℚ) ^ x ≤ n * 2 ^ q := by
  have hcast : (2 : ℚ) ^ (k : Int) ≤ n := by rw [zpow_natCast]; exact_mod_cast hn
  calc (2 : ℚ) ^ x ≤ 2 ^ (q + k) := zpow_le_zpow_right₀ one_le_two hq
    _ = 2 ^ (k : Int) * 2 ^ q := by rw [add_comm, zpow_add₀ two_ne_zero]
    _ ≤ n * 2 ^ q := by gcongr

/-- A significand of 24 bits with a carry out of them is the next power of two (R86). -/
theorem encodeF32_carry (s : Bool) (q : Int) : encodeF32 s (2 ^ 24) q = encodeF32 s (2 ^ 23) (q + 1) := by
  simp [encodeF32]

/-- The encoding of a magnitude of at most 24 bits, of which a normal one has all 24 (R86). -/
theorem encodeF32_represents_of_lt {s : Bool} {n : Nat} {q : Int} (hq : -149 ≤ q) (hn : n < 2 ^ 24) (hnorm : q = -149 ∨ 2 ^ 23 ≤ n) :
    RepresentsF32 (encodeF32 s n q) s (n * 2 ^ q) := by
  have hlt : q ≤ 104 → (n : ℚ) * 2 ^ q < 2 ^ (128 : Int) := fun h => natCast_mul_two_zpow_lt hn (by omega)
  have hfinite : ∀ {u : Word} {c : ClassVal}, q ≤ 104 → f32dec u = c → signOf u = s → c.isFinite = true →
      c.val = (if s then -1 else 1) * (n * 2 ^ q) → RepresentsF32 u s (n * 2 ^ q) := by
    rintro u c hq rfl hs hfin hval
    exact ⟨fun _ => ⟨hfin, hs, hval⟩, fun hle => absurd (hlt hq) (not_lt.mpr hle)⟩
  have h24 : n ≠ 2 ^ 24 := hn.ne
  simp only [encodeF32, if_neg h24]
  split_ifs with h0 hsub hinf
  · subst h0
    exact hfinite (by omega) (f32dec_packF32_zero s) (signOf_packF32 (by decide) (by decide)) rfl (by simp)
  · obtain rfl : q = -149 := by omega
    exact hfinite (by decide) (f32dec_packF32_subnormal hsub h0) (signOf_packF32 (by decide) hsub) rfl
      (by rw [ClassVal.val_fin, mul_assoc])
  · exact ⟨fun h => absurd h (not_lt.mpr (two_zpow_le_natCast_mul (not_lt.mp hsub) (by omega))), fun _ => f32dec_infF32 s⟩
  · have hdec := f32dec_packF32_normal (s := s) (e := (q + 150).toNat) (t := n - 2 ^ 23) (by omega) (by omega) (by omega)
    rw [show 2 ^ 23 + (n - 2 ^ 23) = n by omega, show ((q + 150).toNat : Int) - 150 = q by omega] at hdec
    exact hfinite (by omega) hdec (signOf_packF32 (by omega) (by omega)) rfl (by rw [ClassVal.val_fin, mul_assoc])

/-- The encoding of a rounded magnitude, with its carry (R86). -/
theorem encodeF32_represents {s : Bool} {n : Nat} {q : Int} (hq : -149 ≤ q) (hn : n ≤ 2 ^ 24) (hnorm : q = -149 ∨ 2 ^ 23 ≤ n) :
    RepresentsF32 (encodeF32 s n q) s (n * 2 ^ q) := by
  obtain rfl | hlt := hn.eq_or_lt
  · have hval : ((2 ^ 24 : Nat) : ℚ) * 2 ^ q = (2 ^ 23 : Nat) * 2 ^ (q + 1) := by
      rw [zpow_add_one₀ two_ne_zero]
      norm_num
      ring
    rw [encodeF32_carry, hval]
    exact encodeF32_represents_of_lt (by omega) (by decide) (.inr le_rfl)
  · exact encodeF32_represents_of_lt hq hlt hnorm

end Sys2Proof.Machine
end

section
/-! PROOFS. ROUND_F32 in exact arithmetic: the nearest even multiple of the last kept bit, its overflow, its error, and the numbers it keeps (R154, R159). -/

namespace Sys2Proof.Machine

theorem Exact.abs_toRat (r : Exact) : |r.toRat| = r.num.natAbs * 2 ^ r.exp := by
  rw [Exact.toRat, abs_mul, abs_of_pos (zpow_pos (two_pos (α := ℚ)) r.exp), ← Int.cast_abs, Int.abs_eq_natAbs, Int.cast_natCast]

theorem Exact.num_neg_iff (r : Exact) : r.num < 0 ↔ r.toRat < 0 := by
  rw [← not_le, ← not_le, Exact.toRat, mul_nonneg_iff_of_pos_right (zpow_pos two_pos r.exp), Int.cast_nonneg_iff]

/-- A number is its sign and its magnitude. -/
theorem Exact.toRat_eq_sign_mul (r : Exact) : r.toRat = (if decide (r.toRat < 0) then -1 else 1) * |r.toRat| := by
  by_cases hneg : r.toRat < 0
  · simp [hneg, abs_of_neg]
  · simp [hneg, abs_of_nonneg (not_lt.mp hneg)]

/-- A distance to a multiple of 2^q, in units of 2^q. -/
theorem abs_mul_two_zpow_sub (v a : ℚ) (q : Int) : |v * 2 ^ q - a| = |v - a / 2 ^ q| * 2 ^ q := by
  have hpos : (0 : ℚ) < 2 ^ q := zpow_pos two_pos q
  rw [← abs_of_pos hpos, ← abs_mul, abs_of_pos hpos, sub_mul, div_mul_cancel₀ _ hpos.ne']

/-- The last kept bit is that of the binade (R154). -/
theorem keptExp_of_binade {a : Nat} {x e : Int} (ha : a ≠ 0) (hlow : (2 : ℚ) ^ e ≤ a * 2 ^ x) (hhigh : (a : ℚ) * 2 ^ x < 2 ^ (e + 1)) :
    keptExp a x = max e (-126) - 23 := by
  have hlow' : (2 : ℚ) ^ ((Nat.log2 a : Int) + x) ≤ a * 2 ^ x := two_zpow_le_natCast_mul (Nat.log2_self_le ha) (by omega)
  have hhigh' : (a : ℚ) * 2 ^ x < 2 ^ ((Nat.log2 a : Int) + x + 1) := natCast_mul_two_zpow_lt Nat.lt_log2_self (by omega)
  have hle := (zpow_lt_zpow_iff_right₀ one_lt_two).mp (hlow.trans_lt hhigh')
  have hge := (zpow_lt_zpow_iff_right₀ one_lt_two).mp (hlow'.trans_lt hhigh)
  rw [keptExp, show (Nat.log2 a : Int) + x = e by omega]

/-- The quantities of R154: the binade `e` of a number `r`, its last kept bit `q`, and the integer `n` that its magnitude is rounded to. -/
structure Rounding (r : Exact) (e q : Int) (n : Nat) : Prop where
  num_ne : r.num ≠ 0
  binade_le : (2 : ℚ) ^ e ≤ |r.toRat|
  lt_binade : |r.toRat| < 2 ^ (e + 1)
  lastBit : q = max e (-126) - 23
  nearest : NearestEven n (|r.toRat| / 2 ^ q)

/-- Every number other than zero has them. -/
theorem exists_rounding {r : Exact} (hr : r.num ≠ 0) : ∃ e q n, Rounding r e q n := by
  obtain ⟨e, hlow, hhigh⟩ := exists_mem_Ico_zpow (abs_pos.mpr (mt Exact.num_eq_zero_iff.mpr hr)) (one_lt_two (α := ℚ))
  have hnear := rneScaled_nearestEven r.num.natAbs (r.exp - (max e (-126) - 23))
  rw [zpow_sub₀ two_ne_zero, ← mul_div_assoc, ← Exact.abs_toRat] at hnear
  exact ⟨e, _, _, hr, hlow, hhigh, rfl, hnear⟩

namespace Rounding

variable {r : Exact} {e q : Int} {n : Nat}

theorem roundF32_eq (h : Rounding r e q n) : roundF32 r = encodeF32 (decide (r.toRat < 0)) n q := by
  obtain ⟨hr, hlow, hhigh, rfl, hnear⟩ := h
  rw [Exact.abs_toRat] at hlow hhigh
  have hkept := keptExp_of_binade (Int.natAbs_ne_zero.mpr hr) hlow hhigh
  have hnear' := rneScaled_nearestEven r.num.natAbs (r.exp - (max e (-126) - 23))
  rw [zpow_sub₀ two_ne_zero, ← mul_div_assoc, ← Exact.abs_toRat] at hnear'
  simp only [roundF32, hkept, Exact.num_neg_iff, hnear.unique hnear']

theorem minBit_le (h : Rounding r e q n) : -149 ≤ q := by
  have := h.lastBit
  omega

/-- The magnitude has at most 24 bits above the last kept one. -/
theorem significand_lt (h : Rounding r e q n) : |r.toRat| / 2 ^ q < 2 ^ 24 := by
  rw [div_lt_iff₀ (zpow_pos two_pos q), ← zpow_natCast, ← zpow_add₀ two_ne_zero]
  refine h.lt_binade.trans_le (zpow_le_zpow_right₀ one_le_two ?_)
  have := h.lastBit
  omega

/-- The magnitude has all 24 bits, unless the last kept one is the subnormals'. -/
theorem le_significand (h : Rounding r e q n) (hq : -149 < q) : 2 ^ 23 ≤ |r.toRat| / 2 ^ q := by
  rw [le_div_iff₀ (zpow_pos two_pos q), ← zpow_natCast, ← zpow_add₀ two_ne_zero]
  refine (zpow_le_zpow_right₀ one_le_two ?_).trans h.binade_le
  have := h.lastBit
  omega

/-- What ROUND_F32 computes (R154, R86). -/
theorem represents (h : Rounding r e q n) : RepresentsF32 (roundF32 r) (decide (r.toRat < 0)) (n * 2 ^ q) := by
  rw [h.roundF32_eq]
  refine encodeF32_represents h.minBit_le (h.nearest.le_of_ge (by exact_mod_cast h.significand_lt.le)) ?_
  obtain hq | hq := h.minBit_le.eq_or_lt
  · exact .inl hq.symm
  · exact .inr (h.nearest.le_of_le (by exact_mod_cast h.le_significand hq))

/-- A result is finite exactly when the rounded magnitude is below 2^128. -/
theorem isFinite_iff (h : Rounding r e q n) : (f32dec (roundF32 r)).isFinite = true ↔ (n : ℚ) * 2 ^ q < 2 ^ (128 : Int) :=
  h.represents.isFinite_iff

/-- The error of a finite result, in units of the last kept bit. -/
theorem error_eq (h : Rounding r e q n) (hfin : (f32dec (roundF32 r)).isFinite = true) :
    |(f32dec (roundF32 r)).val - r.toRat| = |(n : ℚ) - |r.toRat| / 2 ^ q| * 2 ^ q := by
  obtain ⟨-, -, hval⟩ := h.represents.number (h.isFinite_iff.mp hfin)
  have hsign : |(if decide (r.toRat < 0) then -1 else 1 : ℚ)| = 1 := by split_ifs <;> simp
  calc |(f32dec (roundF32 r)).val - r.toRat|
      = |(if decide (r.toRat < 0) then -1 else 1) * ((n : ℚ) * 2 ^ q) - (if decide (r.toRat < 0) then -1 else 1) * (|r.toRat|)| := by
        rw [hval, ← r.toRat_eq_sign_mul]
    _ = |(n : ℚ) * 2 ^ q - (|r.toRat|)| := by rw [← mul_sub, abs_mul, hsign, one_mul]
    _ = |(n : ℚ) - |r.toRat| / 2 ^ q| * 2 ^ q := abs_mul_two_zpow_sub _ _ q

/-- The rounded magnitude reaches 2^128 exactly when the magnitude reaches the midpoint below it. -/
theorem overflow_iff (h : Rounding r e q n) :
    (2 : ℚ) ^ (128 : Int) ≤ n * 2 ^ q ↔ (2 : ℚ) ^ (128 : Int) - 2 ^ (103 : Int) ≤ |r.toRat| := by
  have hpos : (0 : ℚ) < 2 ^ q := zpow_pos two_pos q
  obtain hq | rfl | hq := lt_trichotomy q 104
  · have hn : n ≤ 2 ^ 24 := h.nearest.le_of_ge (by exact_mod_cast h.significand_lt.le)
    have hsmall : |r.toRat| < 2 ^ (127 : Int) :=
      h.lt_binade.trans_le (zpow_le_zpow_right₀ one_le_two (by have := h.lastBit; omega))
    have hmid : (2 : ℚ) ^ (127 : Int) ≤ 2 ^ (128 : Int) - 2 ^ (103 : Int) := by norm_num
    exact iff_of_false (not_le.mpr (natCast_mul_two_zpow_lt (k := 25) (by omega) (by omega))) (not_le.mpr (hsmall.trans_le hmid))
  · have htop : (2 : ℚ) ^ (128 : Int) = (2 ^ 24 : Nat) * 2 ^ (104 : Int) := by norm_num
    have hmid : (2 : ℚ) ^ (128 : Int) - 2 ^ (103 : Int) = ((2 ^ 24 : Nat) - 1 / 2) * 2 ^ (104 : Int) := by norm_num
    rw [hmid, htop, mul_le_mul_iff_left₀ hpos, Nat.cast_le, h.nearest.even_le_iff (by decide), le_div_iff₀ hpos]
  · have hbig : (2 : ℚ) ^ (128 : Int) ≤ |r.toRat| := (zpow_le_zpow_right₀ one_le_two (by have := h.lastBit; omega)).trans h.binade_le
    have hn : 2 ^ 23 ≤ n := h.nearest.le_of_le (by exact_mod_cast h.le_significand (by omega))
    exact iff_of_true (two_zpow_le_natCast_mul hn (by omega)) ((sub_le_self _ (zpow_nonneg zero_le_two _)).trans hbig)

end Rounding
end Sys2Proof.Machine
end

section
/-! PROOFS. The statements about one rounding, from the quantities of R154: the result, its overflow, its nearness and its relative error. -/

namespace Sys2Proof.Machine

/-- Settles O41: the given quantities are those of R154, and ROUND_F32 encodes them. -/
theorem roundGivesTheNearestEvenMultiple : Obligations.RoundGivesTheNearestEvenMultiple := by
  rintro r e q n y hr hlow hhigh hq rfl hnear sgn rfl
  have hrep := Rounding.represents ⟨hr, hlow, hhigh, hq, hnear⟩
  rw [mul_assoc]
  exact ⟨hrep.number, hrep.overflow⟩

/-- Settles O42: the rounded magnitude reaches 2^128 exactly from the midpoint up. -/
theorem roundOverflowsExactlyAtTheMidpoint : Obligations.RoundOverflowsExactlyAtTheMidpoint := by
  intro r hr
  obtain ⟨e, q, n, h⟩ := exists_rounding hr
  rw [decide_eq_decide.mpr r.num_neg_iff, h.represents.eq_inf_iff, h.overflow_iff]

/-- Below the midpoint the result is finite. -/
theorem roundF32_isFinite {r : Exact} (hr : r.num ≠ 0) (hlt : |r.toRat| < 2 ^ (128 : Int) - 2 ^ (103 : Int)) :
    (f32dec (roundF32 r)).isFinite = true := by
  obtain ⟨e, q, n, h⟩ := exists_rounding hr
  exact h.isFinite_iff.mpr (not_le.mp (mt h.overflow_iff.mp (not_le.mpr hlt)))

/-- A binary32 magnitude is a multiple of 2^q, or too small to have its first bit 23 places above (R85). -/
theorem f32dec_multiple_or_small {w : Word} (hw : (f32dec w).isFinite = true) {q : Int} (hq : -149 ≤ q) :
    (∃ k : Nat, |(f32dec w).val| = k * 2 ^ q) ∨ (-149 < q ∧ |(f32dec w).val| < 2 ^ 23 * 2 ^ q) := by
  obtain ⟨s, h⟩ | ⟨s, m, x, h⟩ := ClassVal.isFinite_iff.mp hw
  · exact .inl ⟨0, by simp [h]⟩
  · have hfrac := fracField_lt w
    obtain ⟨-, hfields⟩ := f32dec_fin h
    have habs : |(f32dec w).val| = m * 2 ^ x := by cases s <;> simp [h, abs_mul]
    obtain hqx | hxq := le_or_gt q x
    · refine .inl ⟨m * 2 ^ (x - q).toNat, ?_⟩
      have hexp : (((x - q).toNat : Nat) : Int) = x - q := by omega
      rw [habs, Nat.cast_mul, Nat.cast_pow, Nat.cast_ofNat, ← zpow_natCast, hexp, mul_assoc, ← zpow_add₀ two_ne_zero, sub_add_cancel]
    · refine .inr ⟨by omega, ?_⟩
      rw [habs, ← zpow_natCast, ← zpow_add₀ two_ne_zero]
      exact natCast_mul_two_zpow_lt (k := 24) (by omega) (by omega)

/-- Settles O43: among the multiples of the last kept bit the rounded one is nearest, and every other binary32 magnitude is below the binade. -/
theorem roundedResultIsNearest : Obligations.RoundedResultIsNearest := by
  intro r w hr hfin hw
  obtain ⟨e, q, n, h⟩ := exists_rounding hr
  have hpos : (0 : ℚ) < 2 ^ q := zpow_pos two_pos q
  rw [h.error_eq hfin]
  refine le_trans ?_ (abs_abs_sub_abs_le _ _)
  obtain ⟨k, hk⟩ | ⟨hq, hsmall⟩ := f32dec_multiple_or_small hw h.minBit_le
  · rw [hk, abs_mul_two_zpow_sub]
    exact mul_le_mul_of_nonneg_right (h.nearest.dist_le_of_int k) hpos.le
  · have hbinade := (le_div_iff₀ hpos).mp (h.le_significand hq)
    have hnear : |(n : ℚ) - |r.toRat| / 2 ^ q| ≤ |2 ^ 23 - |r.toRat| / 2 ^ q| := by exact_mod_cast h.nearest.dist_le_of_int (2 ^ 23 : Nat)
    calc |(n : ℚ) - |r.toRat| / 2 ^ q| * 2 ^ q ≤ |2 ^ 23 - |r.toRat| / 2 ^ q| * 2 ^ q := mul_le_mul_of_nonneg_right hnear hpos.le
      _ = |r.toRat| - 2 ^ 23 * 2 ^ q := by rw [← abs_mul_two_zpow_sub, abs_sub_comm, abs_of_nonneg (sub_nonneg.mpr hbinade)]
      _ ≤ |r.toRat| - |(f32dec w).val| := by gcongr
      _ ≤ abs (|(f32dec w).val| - |r.toRat|) := by rw [abs_sub_comm]; exact le_abs_self _

/-- Settles O44: a number that is a binary32 value rounds to its word. -/
theorem roundKeepsBinary32Values : Obligations.RoundKeepsBinary32Values := fun _ _ hu hr h => roundF32_of_toRat hu hr h

/-- Settles O45: half a unit of the last kept bit is at most 2^-24 of a number in the normal range. -/
theorem roundingRelativeError : Obligations.RoundingRelativeError := by
  intro r hlow hhigh
  have hr : r.num ≠ 0 := fun h0 => by
    rw [Exact.num_eq_zero_iff.mp h0, abs_zero] at hlow
    exact absurd hlow (not_le.mpr (zpow_pos two_pos _))
  have hfin := roundF32_isFinite hr hhigh
  obtain ⟨e, q, n, h⟩ := exists_rounding hr
  have he := (zpow_lt_zpow_iff_right₀ one_lt_two).mp (hlow.trans_lt h.lt_binade)
  have hq : q = -24 + e + 1 := by have := h.lastBit; omega
  refine ⟨hfin, ?_⟩
  calc |(f32dec (roundF32 r)).val - r.toRat| = |(n : ℚ) - |r.toRat| / 2 ^ q| * 2 ^ q := h.error_eq hfin
    _ ≤ 1 / 2 * 2 ^ q := by gcongr; exact h.nearest.dist_le_half
    _ = 2 ^ (-24 : Int) * 2 ^ e := by rw [hq, zpow_add_one₀ two_ne_zero, zpow_add₀ two_ne_zero]; ring
    _ ≤ 2 ^ (-24 : Int) * |r.toRat| := by gcongr; exact h.binade_le

end Sys2Proof.Machine
end

section
/-! PROOFS. The accumulate step, branch by branch: the rounded sum, infinities and NaN; and zero terms and NaN in the whole reduction (R155, R157, R161). -/

namespace Sys2Proof.Machine

variable {u : Word} {t : ClassVal}

/-- A class value that is no NaN is an infinity or finite (R13). -/
theorem ClassVal.inf_or_isFinite {p : ClassVal} (h : p ≠ .nan) : (∃ s, p = .inf s) ∨ p.isFinite = true := by
  cases p with
  | nan => exact absurd rfl h
  | inf s => exact .inl ⟨s, rfl⟩
  | zero | fin => exact .inr rfl

/-- NaN in the accumulator or in the term gives the canonical NaN (R155). -/
theorem accStep_nan (h : f32dec u = .nan ∨ t = .nan) : accStep u t = nanF32 := by
  unfold accStep
  obtain h | rfl := h
  · rw [h]
  · cases f32dec u <;> rfl

/-- Two infinities (R155). -/
theorem accStep_inf_inf {s z : Bool} (hu : f32dec u = .inf s) : accStep u (.inf z) = if s = z then u else nanF32 := by
  unfold accStep
  rw [hu]

/-- An infinite term replaces a finite accumulator (R155). -/
theorem accStep_inf_term {z : Bool} (hu : (f32dec u).isFinite = true) : accStep u (.inf z) = infF32 z := by
  unfold accStep
  obtain ⟨s, h⟩ | ⟨s, m, x, h⟩ := ClassVal.isFinite_iff.mp hu <;> rw [h]

/-- What one accumulate step can do (R155). -/
theorem accStep_cases (u : Word) (t : ClassVal) :
    ((f32dec u = .nan ∨ t = .nan) ∧ accStep u t = nanF32) ∨
    (∃ s z, f32dec u = .inf s ∧ t = .inf z ∧ accStep u t = if s = z then u else nanF32) ∨
    (∃ s, f32dec u = .inf s ∧ t.isFinite = true ∧ accStep u t = u) ∨
    (∃ z, (f32dec u).isFinite = true ∧ t = .inf z ∧ accStep u t = infF32 z) ∨
    ((f32dec u).isFinite = true ∧ t.isFinite = true ∧ accStep u t = addFinite (f32dec u) t) := by
  by_cases hnan : f32dec u = .nan ∨ t = .nan
  · exact .inl ⟨hnan, accStep_nan hnan⟩
  obtain ⟨hu, ht⟩ := not_or.mp hnan
  refine .inr ?_
  obtain ⟨s, hinf⟩ | hfin := ClassVal.inf_or_isFinite hu
  all_goals obtain ⟨z, rfl⟩ | htfin := ClassVal.inf_or_isFinite ht
  · exact .inl ⟨s, z, hinf, rfl, accStep_inf_inf hinf⟩
  · exact .inr (.inl ⟨s, hinf, htfin, accStep_inf_of_finite hinf htfin⟩)
  · exact .inr (.inr (.inl ⟨z, hfin, rfl, accStep_inf_term hfin⟩))
  · exact .inr (.inr (.inr ⟨hfin, htfin, accStep_finite hfin htfin⟩))

section Finite

variable (hu : (f32dec u).isFinite = true) (ht : t.isFinite = true)
include hu ht

/-- A sum of zero (R155). -/
theorem accStep_of_sum_zero (h : (f32dec u).val + t.val = 0) :
    accStep u t = if f32dec u = .zero true ∧ t = .zero true then 0x80000000#32 else 0x00000000#32 := by
  have hnum : ((f32dec u).exact.add t.exact).num = 0 := by rwa [Exact.num_eq_zero_iff, Exact.toRat_add]
  rw [accStep_finite hu ht, addFinite, if_pos hnum]

/-- Any other sum is rounded once, whatever dyadic it is written as (R154, R155). -/
theorem accStep_of_sum {r : Exact} (hr : r.num ≠ 0) (h : r.toRat = (f32dec u).val + t.val) : accStep u t = roundF32 r := by
  have hsum : r.toRat = ((f32dec u).exact.add t.exact).toRat := h.trans (Exact.toRat_add _ _).symm
  have hnum : ((f32dec u).exact.add t.exact).num ≠ 0 := by rwa [Ne, Exact.num_eq_zero_iff, ← hsum, ← Exact.num_eq_zero_iff]
  rw [accStep_finite hu ht, addFinite, if_neg hnum, roundF32_congr hr hsum]

end Finite

/-- Settles O46: each branch of the step by its own rule. -/
theorem accStepRoundsTheExactSum : Obligations.AccStepRoundsTheExactSum := by
  intro u t
  refine ⟨fun hu ht => ⟨accStep_of_sum_zero hu ht, fun r => accStep_of_sum hu ht⟩, accStep_nan, ?_, ?_, ?_⟩
  · rintro s hu rfl
    rw [accStep_inf_inf hu, if_neg (by simp)]
    rfl
  · intro s hu hnan hinf
    cases t with
    | nan => exact absurd rfl hnan
    | inf z => rw [accStep_inf_inf hu, if_pos (by simpa [eq_comm] using hinf)]
    | zero | fin => exact accStep_inf_of_finite hu rfl
  · rintro s hu rfl
    rw [accStep_inf_term hu]
    cases s <;> rfl

/-- A sum of finite values is rounded to no NaN (R161 (d)). -/
theorem addFinite_ne_nan (a b : ClassVal) : f32dec (addFinite a b) ≠ .nan := by
  unfold addFinite
  dsimp only
  split_ifs with hnum
  · decide
  · decide
  · obtain ⟨e, q, n, h⟩ := exists_rounding hnum
    exact h.represents.ne_nan

/-- A step gives no NaN but the canonical one (R87, R161 (f)). -/
theorem accStep_eq_nanF32 (h : f32dec (accStep u t) = .nan) : accStep u t = nanF32 := by
  obtain ⟨-, heq⟩ | ⟨s, z, hu, -, heq⟩ | ⟨s, hu, -, heq⟩ | ⟨z, -, -, heq⟩ | ⟨-, -, heq⟩ := accStep_cases u t
  · exact heq
  · split_ifs at heq
    · rw [heq, hu] at h
      cases h
    · exact heq
  · rw [heq, hu] at h
    cases h
  · rw [heq, f32dec_infF32] at h
    cases h
  · rw [heq] at h
    exact absurd h (addFinite_ne_nan _ _)

/-- A finite term makes no NaN (R161 (d)). -/
theorem accStep_ne_nan (hu : f32dec u ≠ .nan) (ht : t.isFinite = true) : f32dec (accStep u t) ≠ .nan := by
  cases h : f32dec u with
  | nan => exact absurd h hu
  | inf s => rwa [accStep_inf_of_finite h ht]
  | zero | fin => rw [accStep_finite (by rw [h]; rfl) ht]; exact addFinite_ne_nan _ _

theorem f32dec_nanF32 : f32dec nanF32 = .nan := by decide

theorem f32dec_accInit : f32dec accInit = .zero false := by decide

/-- A term after the others is one more step (R157). -/
theorem reduceK_append_singleton (ts : List ClassVal) (t : ClassVal) : reduceK (ts ++ [t]) = accStep (reduceK ts) t := by
  simp [reduceK]

/-- The reduction gives no NaN but the canonical one (R161 (f)). -/
theorem reduceK_eq_nanF32 {ts : List ClassVal} (h : f32dec (reduceK ts) = .nan) : reduceK ts = nanF32 := by
  cases ts using List.reverseRecOn with
  | nil => exact absurd h (by decide)
  | append_singleton ts t =>
    rw [reduceK_append_singleton] at h ⊢
    exact accStep_eq_nanF32 h

/-- A NaN term makes the reduction the canonical NaN (R161 (c)). -/
theorem reduceK_of_nan_mem {ts : List ClassVal} (h : .nan ∈ ts) : reduceK ts = nanF32 := by
  induction ts using List.reverseRecOn with
  | nil => cases h
  | append_singleton ts t ih =>
    rw [reduceK_append_singleton]
    obtain hmem | hlast := List.mem_append.mp h
    · exact accStep_nan (.inl (ih hmem ▸ f32dec_nanF32))
    · exact accStep_nan (.inr (List.mem_singleton.mp hlast).symm)

/-- Finite terms alone reduce to no NaN (R161 (d)). -/
theorem reduceK_ne_nan {ts : List ClassVal} (h : ∀ t ∈ ts, t.isFinite = true) : f32dec (reduceK ts) ≠ .nan := by
  induction ts using List.reverseRecOn with
  | nil => decide
  | append_singleton ts t ih =>
    rw [reduceK_append_singleton]
    exact accStep_ne_nan (ih fun t' ht' => h t' (List.mem_append_left _ ht')) (h t (List.mem_append_right _ (List.mem_singleton_self t)))

/-- Settles O49: each clause by induction on the terms, the last one first to be split off. -/
theorem nanIsStickyCanonicalAndNeverMade : Obligations.NaNIsStickyCanonicalAndNeverMade :=
  fun _ => ⟨reduceK_of_nan_mem, reduceK_eq_nanF32, reduceK_ne_nan⟩

/-- Two accumulators are one word, or zeros of either sign: how far leaving out zero terms can set them apart (R161 (b)). -/
def SameUpToZero (u v : Word) : Prop := u = v ∨ ((f32dec u).isZero = true ∧ (f32dec v).isZero = true)

/-- A zero term leaves an accumulator that is no NaN but the canonical one the same up to the sign of a zero (R161 (b)). -/
theorem sameUpToZero_accStep_zero (ht : t.isZero = true) (hcanon : f32dec u = .nan → u = nanF32) : SameUpToZero u (accStep u t) := by
  by_cases hnan : f32dec u = .nan
  · exact .inl ((hcanon hnan).trans (accStep_nan (.inl hnan)).symm)
  · cases hzero : (f32dec u).isZero with
    | true => exact .inr ⟨hzero, accStep_zero_zero ht hzero⟩
    | false => exact .inl (accStep_zero ht hnan hzero).symm

/-- A term that is no zero does not see the sign of a zero accumulator (R155). -/
theorem accStep_eq_of_zeros {v : Word} (hu : (f32dec u).isZero = true) (hv : (f32dec v).isZero = true) (ht : t.isZero = false) :
    accStep u t = accStep v t := by
  obtain ⟨s, hu⟩ := ClassVal.isZero_iff.mp hu
  obtain ⟨z, hv⟩ := ClassVal.isZero_iff.mp hv
  have hufin : (f32dec u).isFinite = true := hu ▸ rfl
  have hvfin : (f32dec v).isFinite = true := hv ▸ rfl
  cases t with
  | nan => rw [accStep_nan (.inr rfl), accStep_nan (.inr rfl)]
  | inf w => rw [accStep_inf_term hufin, accStep_inf_term hvfin]
  | zero w => cases ht
  | fin w m x => rw [accStep_finite hufin rfl, accStep_finite hvfin rfl, hu, hv, addFinite_fin, addFinite_fin]; rfl

theorem SameUpToZero.trans {u v w : Word} (h : SameUpToZero u v) (h' : SameUpToZero v w) : SameUpToZero u w := by
  obtain rfl | ⟨hu, hv⟩ := h
  · exact h'
  · obtain rfl | ⟨-, hw⟩ := h'
    · exact .inr ⟨hu, hv⟩
    · exact .inr ⟨hu, hw⟩

/-- Settles O48: a zero term keeps the two reductions the same up to the sign of a zero, and any other term makes them one word or keeps them one. -/
theorem zeroTermsCanBeLeftOut : Obligations.ZeroTermsCanBeLeftOut := by
  intro ts
  change SameUpToZero _ _
  induction ts using List.reverseRecOn with
  | nil => exact .inl rfl
  | append_singleton ts t ih =>
    rw [List.filter_append, reduceK_append_singleton]
    cases ht : t.isZero with
    | true =>
      rw [List.filter_cons_of_neg (by simp [ht]), List.filter_nil, List.append_nil]
      exact ih.trans (sameUpToZero_accStep_zero ht reduceK_eq_nanF32)
    | false =>
      rw [List.filter_cons_of_pos (by simp [ht]), List.filter_nil, reduceK_append_singleton]
      obtain heq | ⟨hu, hv⟩ := ih
      · exact .inl (heq ▸ rfl)
      · exact .inl (accStep_eq_of_zeros hu hv ht)

end Sys2Proof.Machine
end

section
/-! PROOFS. Sign symmetry: of the words, of ROUND_F32, of the accumulate step and of the reduction (R85, R154, R155, R161 (e)). -/

namespace Sys2Proof.Machine

section FlippedWord

variable (u : Word)

theorem signOf_flip : signOf (u ^^^ 0x80000000#32) = !signOf u := by
  simp [signOf]

theorem expField_flip : expField (u ^^^ 0x80000000#32) = expField u := by
  rw [expField, BitVec.extractLsb'_xor, show (0x80000000#32).extractLsb' 23 8 = 0#8 by decide, BitVec.xor_zero, expField]

theorem fracField_flip : fracField (u ^^^ 0x80000000#32) = fracField u := by
  rw [fracField, BitVec.extractLsb'_xor, show (0x80000000#32).extractLsb' 0 23 = 0#23 by decide, BitVec.xor_zero, fracField]

/-- The word with the sign bit flipped denotes the negated class value (R85). -/
theorem f32dec_flip : f32dec (u ^^^ 0x80000000#32) = (f32dec u).neg := by
  simp only [f32dec, signOf_flip, expField_flip, fracField_flip]
  split_ifs <;> rfl

/-- Flipping the sign bit adds it, modulo 2^32. -/
theorem toNat_flip : (u ^^^ 0x80000000#32).toNat = (u.toNat + 2 ^ 31) % 2 ^ 32 := by
  have hE := expField_lt u
  have hT := fracField_lt u
  conv_lhs => rw [← packF32_fields (u ^^^ 0x80000000#32), signOf_flip, expField_flip, fracField_flip, packF32_toNat hE hT]
  conv_rhs => rw [← packF32_fields u, packF32_toNat hE hT]
  cases signOf u
  · simp only [Bool.not_false, Bool.toNat_true, Bool.toNat_false]; omega
  · simp only [Bool.not_true, Bool.toNat_true, Bool.toNat_false]; omega

end FlippedWord

theorem packF32_not (s : Bool) (e t : Nat) : packF32 (!s) e t = packF32 s e t ^^^ 0x80000000#32 := by
  apply BitVec.eq_of_toNat_eq
  rw [toNat_flip, packF32, packF32, BitVec.toNat_ofNat, BitVec.toNat_ofNat]
  cases s
  · simp only [Bool.not_false, Bool.toNat_true, Bool.toNat_false]; omega
  · simp only [Bool.not_true, Bool.toNat_true, Bool.toNat_false]; omega

theorem encodeF32_not (s : Bool) (n : Nat) (q : Int) : encodeF32 (!s) n q = encodeF32 s n q ^^^ 0x80000000#32 := by
  simp only [encodeF32, packF32_not]
  split_ifs <;> rfl

/-- The dyadic of the negated number. -/
def Exact.neg (r : Exact) : Exact := ⟨-r.num, r.exp⟩

theorem ClassVal.exact_neg (p : ClassVal) : p.neg.exact = p.exact.neg := by
  cases p with
  | nan | inf | zero => rfl
  | fin s m x => cases s <;> simp [ClassVal.neg, ClassVal.exact, Exact.neg]

theorem Exact.neg_add_neg (a b : Exact) : a.neg.add b.neg = (a.add b).neg := by
  simp only [Exact.add, Exact.neg, Exact.mk.injEq, and_true]
  ring

/-- Rounding is symmetric about zero (R154, R161 (e)). -/
theorem roundF32_neg {r : Exact} (hr : r.num ≠ 0) : roundF32 r.neg = roundF32 r ^^^ 0x80000000#32 := by
  have hsign : decide (r.neg.num < 0) = !decide (r.num < 0) := by
    have hnum : r.neg.num = -r.num := rfl
    rw [← decide_not, decide_eq_decide]
    omega
  have habs : r.neg.num.natAbs = r.num.natAbs := Int.natAbs_neg r.num
  have hexp : r.neg.exp = r.exp := rfl
  simp only [roundF32, hsign, habs, hexp, encodeF32_not]

/-- How the accumulators of a reduction and of the negated one stand to each other (R161 (e)):
both the canonical NaN, or one the other with the sign flipped, or both +0. -/
def SignFlipped (u v : Word) : Prop :=
  (u = nanF32 ∧ v = nanF32) ∨ v = u ^^^ 0x80000000#32 ∨ (u = 0x00000000#32 ∧ v = 0x00000000#32)

/-- The sum branch with both summands negated: only an exact zero sum keeps its +0 (R155, R161 (e)). -/
theorem signFlipped_addFinite {a b : ClassVal} (hb : b.exact = a.exact.neg) (t : ClassVal) :
    SignFlipped (addFinite a t) (addFinite b t.neg) := by
  have hsum : b.exact.add t.neg.exact = (a.exact.add t.exact).neg := by rw [hb, ClassVal.exact_neg, Exact.neg_add_neg]
  unfold addFinite
  dsimp only
  rw [hsum]
  by_cases hnum : (a.exact.add t.exact).num = 0
  · have hnum' : (a.exact.add t.exact).neg.num = 0 := by simp [Exact.neg, hnum]
    rw [if_pos hnum, if_pos hnum']
    split_ifs with h h'
    · exact absurd (h.2 ▸ h'.2 : (ClassVal.zero true).neg = .zero true) (by decide)
    · exact .inr (.inl rfl)
    · exact .inr (.inl rfl)
    · exact .inr (.inr ⟨rfl, rfl⟩)
  · have hnum' : (a.exact.add t.exact).neg.num ≠ 0 := by simpa [Exact.neg] using hnum
    rw [if_neg hnum, if_neg hnum']
    exact .inr (.inl (roundF32_neg hnum))

theorem ClassVal.isFinite_neg (p : ClassVal) : p.neg.isFinite = p.isFinite := by
  cases p <;> rfl

theorem infF32_not (s : Bool) : infF32 (!s) = infF32 s ^^^ 0x80000000#32 := packF32_not s 255 0

/-- A step from an accumulator and from the one with its sign flipped (R161 (e)). -/
theorem signFlipped_accStep_flip (u : Word) (t : ClassVal) : SignFlipped (accStep u t) (accStep (u ^^^ 0x80000000#32) t.neg) := by
  have hflip := f32dec_flip u
  obtain ⟨hnan, heq⟩ | ⟨s, z, hu, rfl, heq⟩ | ⟨s, hu, ht, heq⟩ | ⟨z, hu, rfl, heq⟩ | ⟨hu, ht, heq⟩ := accStep_cases u t
  · have hnan' : f32dec (u ^^^ 0x80000000#32) = .nan ∨ t.neg = .nan := by
      refine hnan.imp (fun h => ?_) fun h => ?_
      · rw [hflip, h]; rfl
      · rw [h]; rfl
    exact .inl ⟨heq, accStep_nan hnan'⟩
  · rw [hu] at hflip
    have heq' : accStep (u ^^^ 0x80000000#32) (ClassVal.inf z).neg = if (!s) = !z then u ^^^ 0x80000000#32 else nanF32 :=
      accStep_inf_inf hflip
    rw [heq, heq']
    by_cases hsz : s = z
    · simp [hsz, SignFlipped]
    · simp [hsz, SignFlipped]
  · rw [hu] at hflip
    rw [heq, accStep_inf_of_finite hflip (by rwa [ClassVal.isFinite_neg])]
    exact .inr (.inl rfl)
  · have hu' : (f32dec (u ^^^ 0x80000000#32)).isFinite = true := by rwa [hflip, ClassVal.isFinite_neg]
    have heq' : accStep (u ^^^ 0x80000000#32) (ClassVal.inf z).neg = infF32 (!z) := accStep_inf_term hu'
    rw [heq, heq', infF32_not]
    exact .inr (.inl rfl)
  · have hu' : (f32dec (u ^^^ 0x80000000#32)).isFinite = true := by rwa [hflip, ClassVal.isFinite_neg]
    rw [heq, accStep_finite hu' (by rwa [ClassVal.isFinite_neg]), hflip]
    exact signFlipped_addFinite (ClassVal.exact_neg _) t

/-- A step from +0, where both reductions start (R161 (e)). -/
theorem signFlipped_accStep_init (t : ClassVal) : SignFlipped (accStep 0x00000000#32 t) (accStep 0x00000000#32 t.neg) := by
  have hzero : f32dec 0x00000000#32 = .zero false := by decide
  have hfin : (f32dec 0x00000000#32).isFinite = true := by decide
  cases t with
  | nan => exact .inl ⟨accStep_nan (.inr rfl), accStep_nan (.inr rfl)⟩
  | inf z =>
    rw [ClassVal.neg, accStep_inf_term hfin, accStep_inf_term hfin, infF32_not]
    exact .inr (.inl rfl)
  | zero | fin =>
    rw [accStep_finite hfin rfl, accStep_finite hfin rfl, hzero]
    exact signFlipped_addFinite rfl _

/-- A step keeps the two accumulators so (R161 (e)). -/
theorem SignFlipped.accStep {u v : Word} (h : SignFlipped u v) (t : ClassVal) : SignFlipped (accStep u t) (accStep v t.neg) := by
  obtain ⟨rfl, rfl⟩ | rfl | ⟨rfl, rfl⟩ := h
  · exact .inl ⟨accStep_nan (.inl f32dec_nanF32), accStep_nan (.inl f32dec_nanF32)⟩
  · exact signFlipped_accStep_flip u t
  · exact signFlipped_accStep_init t

/-- Both reductions start at +0, and each step keeps their accumulators so (R161 (e)). -/
theorem signFlipped_reduceK (ts : List ClassVal) : SignFlipped (reduceK ts) (reduceK (ts.map ClassVal.neg)) := by
  induction ts using List.reverseRecOn with
  | nil => exact .inr (.inr ⟨rfl, rfl⟩)
  | append_singleton ts t ih =>
    rw [List.map_append, List.map_singleton, reduceK_append_singleton, reduceK_append_singleton]
    exact ih.accStep t

/-- Settles O50; the terms' significands need not be positive. -/
theorem negatedTermsFlipTheSign : Obligations.NegatedTermsFlipTheSign := fun ts _ => signFlipped_reduceK ts

end Sys2Proof.Machine
end

section
/-! PROOFS. The reduction against the exact sum: when it is exact, and the error bound over K terms (R159, R160). -/

namespace Sys2Proof.Machine

/-- A number below 2^128 that is a multiple of its last kept bit rounds to itself (R154, R160). -/
theorem Rounding.exact {r : Exact} {e q : Int} {n k : Nat} (h : Rounding r e q n) (hk : |r.toRat| / 2 ^ q = k)
    (hlt : |r.toRat| < 2 ^ (128 : Int)) : (f32dec (roundF32 r)).isFinite = true ∧ (f32dec (roundF32 r)).val = r.toRat := by
  obtain rfl : n = k := (hk ▸ h.nearest : NearestEven n k).eq_of_nat
  have hfin : (f32dec (roundF32 r)).isFinite = true := by
    rwa [h.isFinite_iff, ← hk, div_mul_cancel₀ _ (zpow_ne_zero q two_ne_zero)]
  have herr := h.error_eq hfin
  rw [hk, sub_self, abs_zero, zero_mul, abs_eq_zero, sub_eq_zero] at herr
  exact ⟨hfin, herr⟩

/-- A multiple of 2^g of magnitude at most 2^(g+24) is a binary32 value, if it is below 2^128 (R160). -/
theorem roundF32_exact {r : Exact} {g : Int} (hr : r.num ≠ 0) (hg : -149 ≤ g) (hmul : ∃ z : Int, r.toRat = z * 2 ^ g)
    (hle : |r.toRat| ≤ 2 ^ (g + 24)) (hlt : |r.toRat| < 2 ^ (128 : Int)) :
    (f32dec (roundF32 r)).isFinite = true ∧ (f32dec (roundF32 r)).val = r.toRat := by
  obtain ⟨e, q, n, h⟩ := exists_rounding hr
  have hq := h.lastBit
  suffices hint : ∃ k : Nat, |r.toRat| = k * 2 ^ q by
    obtain ⟨k, hk⟩ := hint
    exact h.exact ((div_eq_iff (zpow_ne_zero q two_ne_zero)).mpr hk) hlt
  obtain htop | hbelow := hle.eq_or_lt
  · have he : e = g + 24 := by
      have h1 := (zpow_le_zpow_iff_right₀ (one_lt_two (α := ℚ))).mp (htop ▸ h.binade_le)
      have h2 := (zpow_lt_zpow_iff_right₀ (one_lt_two (α := ℚ))).mp (htop ▸ h.lt_binade)
      omega
    refine ⟨2 ^ (g + 24 - q).toNat, ?_⟩
    have hexp : (((g + 24 - q).toNat : Nat) : Int) = g + 24 - q := by omega
    rw [htop, Nat.cast_pow, Nat.cast_ofNat, ← zpow_natCast, hexp, ← zpow_add₀ two_ne_zero, sub_add_cancel]
  · have he := (zpow_lt_zpow_iff_right₀ (one_lt_two (α := ℚ))).mp (h.binade_le.trans_lt hbelow)
    obtain ⟨z, hz⟩ := hmul
    refine ⟨z.natAbs * 2 ^ (g - q).toNat, ?_⟩
    have hexp : (((g - q).toNat : Nat) : Int) = g - q := by omega
    rw [hz, abs_mul, abs_of_pos (zpow_pos (two_pos (α := ℚ)) g), ← Int.cast_abs, Int.abs_eq_natAbs, Int.cast_natCast, Nat.cast_mul,
      Nat.cast_pow, Nat.cast_ofNat, ← zpow_natCast, hexp, mul_assoc, ← zpow_add₀ two_ne_zero, sub_add_cancel]

/-- A step of finite operands gives a zero when its exact sum is zero, and rounds the sum otherwise (R155). -/
theorem accStep_sum_cases {u : Word} {t : ClassVal} (hu : (f32dec u).isFinite = true) (ht : t.isFinite = true) :
    ((f32dec u).val + t.val = 0 ∧ (f32dec (accStep u t)).isFinite = true ∧ (f32dec (accStep u t)).val = 0) ∨
    ∃ r : Exact, r.num ≠ 0 ∧ r.toRat = (f32dec u).val + t.val ∧ accStep u t = roundF32 r := by
  by_cases hsum : (f32dec u).val + t.val = 0
  · refine .inl ⟨hsum, ?_⟩
    rw [accStep_of_sum_zero hu ht hsum]
    split_ifs
    · rw [show f32dec 0x80000000#32 = .zero true by decide]
      exact ⟨rfl, ClassVal.val_zero true⟩
    · rw [show f32dec 0x00000000#32 = .zero false by decide]
      exact ⟨rfl, ClassVal.val_zero false⟩
  · have hrat : ((f32dec u).exact.add t.exact).toRat = (f32dec u).val + t.val := Exact.toRat_add _ _
    have hnum : ((f32dec u).exact.add t.exact).num ≠ 0 := by rwa [Ne, Exact.num_eq_zero_iff, hrat]
    exact .inr ⟨_, hnum, hrat, accStep_of_sum hu ht hnum hrat⟩

theorem sum_val_append_singleton (ts : List ClassVal) (t : ClassVal) :
    ((ts ++ [t]).map ClassVal.val).sum = (ts.map ClassVal.val).sum + t.val := by simp

/-- A sum of multiples of 2^g is one (R160). -/
theorem sum_val_multiple {ts : List ClassVal} {g : Int} (h : ∀ t ∈ ts, ∃ z : Int, t.val = z * 2 ^ g) :
    ∃ z : Int, (ts.map ClassVal.val).sum = z * 2 ^ g := by
  induction ts with
  | nil => exact ⟨0, by simp⟩
  | cons t ts ih =>
    obtain ⟨y, hy⟩ := h t List.mem_cons_self
    obtain ⟨z, hz⟩ := ih fun t' ht' => h t' (List.mem_cons_of_mem _ ht')
    exact ⟨y + z, by rw [List.map_cons, List.sum_cons, hy, hz]; push_cast; ring⟩

/-- Settles O51: each partial sum is a binary32 value, so no step rounds it. -/
theorem smallMultiplesSumExactly : Obligations.SmallMultiplesSumExactly := by
  intro ts g hg _ hfin hmul hpartial
  induction ts using List.reverseRecOn with
  | nil => exact ⟨rfl, by rw [reduceK, List.foldl_nil, f32dec_accInit]; simp⟩
  | append_singleton ts t ih =>
    have hmem : ∀ t' ∈ ts, t' ∈ ts ++ [t] := fun _ => List.mem_append_left _
    have hlast : t ∈ ts ++ [t] := List.mem_append_right _ (List.mem_singleton_self t)
    have htake : ∀ j ≤ ts.length, (ts ++ [t]).take j = ts.take j := fun j hj => List.take_append_of_le_length hj
    obtain ⟨hacc, hval⟩ := ih (fun t' ht' => hfin t' (hmem t' ht')) (fun t' ht' => hmul t' (hmem t' ht')) fun j hj =>
      htake j hj ▸ hpartial j (by simp; omega)
    obtain ⟨hle, hlt⟩ := hpartial _ le_rfl
    rw [List.take_length] at hle hlt
    rw [reduceK_append_singleton]
    obtain ⟨hsum, hfin', hval'⟩ | ⟨r, hr, hrat, hstep⟩ := accStep_sum_cases hacc (hfin t hlast)
    · rw [sum_val_append_singleton, ← hval, hsum]
      exact ⟨hfin', hval'⟩
    · rw [hval, ← sum_val_append_singleton] at hrat
      rw [hstep, ← hrat]
      rw [← hrat] at hle hlt
      exact roundF32_exact hr hg (hrat ▸ sum_val_multiple hmul) hle hlt

/-- One step whose exact sum is zero or in the normal range: a finite accumulator, with one relative error of at most 2^-24 (R159). -/
theorem accStep_error {u : Word} {t : ClassVal} (hu : (f32dec u).isFinite = true) (ht : t.isFinite = true)
    (hrange : (f32dec u).val + t.val = 0 ∨
      (2 ^ (-126 : Int) ≤ |(f32dec u).val + t.val| ∧ |(f32dec u).val + t.val| < 2 ^ (128 : Int) - 2 ^ (103 : Int))) :
    (f32dec (accStep u t)).isFinite = true ∧
    |(f32dec (accStep u t)).val - ((f32dec u).val + t.val)| ≤ 2 ^ (-24 : Int) * |(f32dec u).val + t.val| := by
  obtain ⟨hsum, hfin, hval⟩ | ⟨r, hr, hrat, hstep⟩ := accStep_sum_cases hu ht
  · exact ⟨hfin, by rw [hval, hsum]; simp⟩
  · rw [← hrat] at hrange ⊢
    rw [hstep]
    obtain ⟨hlow, hhigh⟩ := hrange.resolve_left (mt Exact.num_eq_zero_iff.mpr hr)
    exact roundingRelativeError r hlow hhigh

/-- The factor K u / (1 - K u) of R159. -/
def errorFactor (k : Nat) (ε : ℚ) : ℚ := k * ε / (1 - k * ε)

theorem errorFactor_nonneg {k : Nat} {ε : ℚ} (hε : 0 ≤ ε) (hk : k * ε < 1) : 0 ≤ errorFactor k ε :=
  div_nonneg (by positivity) (by linarith)

/-- The factor takes up the relative error of one step more (R159). -/
theorem errorFactor_succ {k : Nat} {ε : ℚ} (hε : 0 ≤ ε) (hk : ((k + 1 : Nat) : ℚ) * ε < 1) :
    (1 + ε) * errorFactor k ε + ε ≤ errorFactor (k + 1) ε := by
  have hcast : ((k + 1 : Nat) : ℚ) * ε = k * ε + ε := by push_cast; ring
  have hkε : (0 : ℚ) ≤ k * ε := by positivity
  rw [errorFactor, errorFactor, hcast]
  rw [hcast] at hk
  generalize (k : ℚ) * ε = y at *
  have h1 : 0 < 1 - y := by linarith
  have h2 : 0 < 1 - (y + ε) := by linarith
  rw [← mul_div_assoc, div_add' _ _ _ h1.ne', div_le_div_iff₀ h1 h2]
  nlinarith

theorem abs_sum_val_le (ts : List ClassVal) : |(ts.map ClassVal.val).sum| ≤ (ts.map fun t => |t.val|).sum := by
  have h := List.le_sum_of_subadditive abs abs_zero.le abs_add_le (ts.map ClassVal.val)
  rwa [List.map_map] at h

/-- The error after one step more: the step's own on the accumulator's distance and on the exact sum (R159). -/
theorem error_succ_le {k : Nat} {ε a a' S T v : ℚ} (hε : 0 ≤ ε) (hk : ((k + 1 : Nat) : ℚ) * ε < 1)
    (hstep : |a' - (a + v)| ≤ ε * |a + v|) (hacc : |a - S| ≤ errorFactor k ε * T) (hsum : |S + v| ≤ T + |v|) :
    |a' - (S + v)| ≤ errorFactor (k + 1) ε * (T + |v|) := by
  have hk' : (k : ℚ) * ε < 1 := by
    push_cast at hk
    linarith
  have hF := errorFactor_nonneg hε hk'
  have hF' := errorFactor_succ hε hk
  have hrounded : |a + v| ≤ errorFactor k ε * T + (T + |v|) := calc
    |a + v| = |(a - S) + (S + v)| := by congr 1; ring
    _ ≤ |a - S| + |S + v| := abs_add_le _ _
    _ ≤ errorFactor k ε * T + (T + |v|) := add_le_add hacc hsum
  calc |a' - (S + v)| = |(a' - (a + v)) + (a - S)| := by congr 1; ring
    _ ≤ |a' - (a + v)| + |a - S| := abs_add_le _ _
    _ ≤ ε * (errorFactor k ε * T + (T + |v|)) + errorFactor k ε * T := by
        gcongr
        exact hstep.trans (mul_le_mul_of_nonneg_left hrounded hε)
    _ ≤ ((1 + ε) * errorFactor k ε + ε) * (T + |v|) := by
        have : 0 ≤ (1 + ε) * errorFactor k ε * |v| := by positivity
        linarith
    _ ≤ errorFactor (k + 1) ε * (T + |v|) := mul_le_mul_of_nonneg_right hF' ((abs_nonneg _).trans hsum)

/-- The accumulator of finite terms stays finite and within the bound, when every exact sum is zero or in the normal range (R159). -/
theorem reduceK_error {ts : List ClassVal} (hK : (ts.length : ℚ) * 2 ^ (-24 : Int) < 1) (hfin : ∀ t ∈ ts, t.isFinite = true)
    (hrange : ∀ (j : Nat) (h : j < ts.length), ∀ r : ℚ, r = (f32dec (reduceK (ts.take j))).val + (ts[j]'h).val →
      r = 0 ∨ (2 ^ (-126 : Int) ≤ |r| ∧ |r| < 2 ^ (128 : Int) - 2 ^ (103 : Int))) :
    (f32dec (reduceK ts)).isFinite = true ∧
    |(f32dec (reduceK ts)).val - (ts.map ClassVal.val).sum| ≤
      errorFactor ts.length (2 ^ (-24 : Int)) * (ts.map fun t => |t.val|).sum := by
  induction ts using List.reverseRecOn with
  | nil => exact ⟨rfl, by rw [reduceK, List.foldl_nil, f32dec_accInit]; simp⟩
  | append_singleton ts t ih =>
    have hlen : (ts ++ [t]).length = ts.length + 1 := by simp
    rw [hlen] at hK
    obtain ⟨hacc, herr⟩ := ih (lt_of_le_of_lt (by gcongr; omega) hK) (fun t' ht' => hfin t' (List.mem_append_left _ ht')) fun j hj => by
      have hj' := hrange j (by omega)
      rwa [List.take_append_of_le_length hj.le, List.getElem_append_left hj] at hj'
    have hlast := hrange ts.length (by omega)
    rw [List.take_left, List.getElem_concat_length rfl] at hlast
    obtain ⟨hfin', hstep⟩ := accStep_error hacc (hfin t (List.mem_append_right _ (List.mem_singleton_self t))) (hlast _ rfl)
    have habs := abs_sum_val_le (ts ++ [t])
    have hT : ((ts ++ [t]).map fun t => |t.val|).sum = (ts.map fun t => |t.val|).sum + |t.val| := by simp
    rw [sum_val_append_singleton, hT] at habs
    rw [reduceK_append_singleton, sum_val_append_singleton, hT, hlen]
    exact ⟨hfin', error_succ_le (zpow_nonneg zero_le_two _) hK hstep herr habs⟩

/-- Settles O52: by induction on the terms, each step within 2^-24 of its own exact sum. -/
theorem reductionErrorBound : Obligations.ReductionErrorBound := fun _ hK hfin hrange => (reduceK_error hK hfin hrange).2

end Sys2Proof.Machine
end

section
/-! PROOFS. A binary32 word as a sign bit and a 31-bit magnitude: the order of the magnitudes is the order of the numbers (R85, R132, R171). -/

namespace Sys2Proof.Machine

variable {u v : Word}

/-- The bits `u[30:0]` of a binary32 word as a natural number (R171). -/
def magnitudeBits (u : Word) : Nat := 2 ^ 23 * expField u + fracField u

/-- The magnitude bits of the infinities (R85). -/
def infBits : Nat := 2 ^ 23 * 255

theorem toNat_eq_sign_magnitude (u : Word) : u.toNat = 2 ^ 31 * (signOf u).toNat + magnitudeBits u := by
  conv_lhs => rw [← packF32_fields u, packF32_toNat (expField_lt u) (fracField_lt u)]
  rw [magnitudeBits, Nat.add_assoc]

theorem magnitudeBits_lt (u : Word) : magnitudeBits u < 2 ^ 31 := by
  have := expField_lt u
  have := fracField_lt u
  unfold magnitudeBits
  omega

/-- The sign and the magnitude bits are read off the word's number. -/
theorem sign_magnitude_of_toNat {s : Bool} {g : Nat} (h : u.toNat = 2 ^ 31 * s.toNat + g) (hg : g < 2 ^ 31) :
    signOf u = s ∧ magnitudeBits u = g := by
  have hu := toNat_eq_sign_magnitude u
  have hlt := magnitudeBits_lt u
  have hs := (signOf u).toNat_lt
  have hs' := s.toNat_lt
  exact ⟨Bool.eq_iff_iff.mpr (by rw [← Bool.toNat_eq_one, ← Bool.toNat_eq_one]; omega), by omega⟩

/-- The class of a word from its magnitude bits: below those of infinity the numbers, above them the NaNs (R132). -/
theorem f32dec_eq_nan_iff : f32dec u = .nan ↔ infBits < magnitudeBits u := by
  have := expField_lt u
  have := fracField_lt u
  simp only [f32dec, infBits, magnitudeBits]
  split_ifs <;> simp only [true_iff, false_iff] <;> omega

theorem magnitudeBits_le_infBits (h : f32dec u ≠ .nan) : magnitudeBits u ≤ infBits := not_lt.mp (mt f32dec_eq_nan_iff.mpr h)

theorem f32dec_isFinite_iff : (f32dec u).isFinite = true ↔ magnitudeBits u < infBits := by
  have := expField_lt u
  have := fracField_lt u
  simp only [f32dec, infBits, magnitudeBits]
  split_ifs <;> simp only [ClassVal.isFinite, Bool.false_eq_true, true_iff, false_iff] <;> omega

theorem f32dec_eq_inf_iff {s : Bool} : f32dec u = .inf s ↔ signOf u = s ∧ magnitudeBits u = infBits := by
  have := expField_lt u
  have := fracField_lt u
  simp only [f32dec, infBits, magnitudeBits]
  split_ifs with hnan hinf
  · simp only [false_iff, not_and]; omega
  · rw [ClassVal.inf.injEq]; exact (and_iff_left (by omega)).symm
  all_goals simp only [false_iff, not_and]; omega

theorem magnitudeBits_zero {s : Bool} (h : f32dec u = .zero s) : magnitudeBits u = 0 := by
  simp only [f32dec] at h
  split_ifs at h with _ _ hzero
  simp [magnitudeBits, hzero]

/-- The significand and the exponent of a number within its magnitude bits: the exponent counts the binades (R85, R132). -/
theorem magnitudeBits_fin {s : Bool} {m : Nat} {x : Int} (h : f32dec u = .fin s m x) :
    ∃ k : Nat, x = (k : Int) - 149 ∧ k ≤ 253 ∧ magnitudeBits u = 2 ^ 23 * k + m ∧ m < 2 ^ 24 ∧ (k = 0 ∨ 2 ^ 23 ≤ m) := by
  have := expField_lt u
  have := fracField_lt u
  obtain ⟨-, hfields⟩ := f32dec_fin h
  refine ⟨expField u - 1, ?_⟩
  unfold magnitudeBits
  omega

/-- The number that the magnitude bits of a finite word denote: a significand at the exponent of its binade (R85). -/
def magnitudeValue (g : Nat) : ℚ := (g - 2 ^ 23 * (g / 2 ^ 23 - 1) : Nat) * 2 ^ (((g / 2 ^ 23 - 1 : Nat) : Int) - 149)

theorem magnitudeValue_eq {k m : Nat} (hm : m < 2 ^ 24) (hk : k = 0 ∨ 2 ^ 23 ≤ m) :
    magnitudeValue (2 ^ 23 * k + m) = m * 2 ^ ((k : Int) - 149) := by
  have hbinade : (2 ^ 23 * k + m) / 2 ^ 23 - 1 = k := by omega
  rw [magnitudeValue, hbinade, Nat.add_sub_cancel_left]

theorem magnitudeValue_zero : magnitudeValue 0 = 0 := by simp [magnitudeValue]

/-- The next magnitude is larger: by one in the last bit, or as the first of the next binade. -/
theorem magnitudeValue_lt_succ (g : Nat) : magnitudeValue g < magnitudeValue (g + 1) := by
  obtain ⟨k, m, rfl, hm, hk⟩ : ∃ k m, g = 2 ^ 23 * k + m ∧ m < 2 ^ 24 ∧ (k = 0 ∨ 2 ^ 23 ≤ m) :=
    ⟨g / 2 ^ 23 - 1, g - 2 ^ 23 * (g / 2 ^ 23 - 1), by omega⟩
  have hnext : magnitudeValue (2 ^ 23 * k + m + 1) = (m + 1 : Nat) * 2 ^ ((k : Int) - 149) := by
    obtain hlt | hcarry := Nat.lt_or_eq_of_le hm
    · exact magnitudeValue_eq hlt (by omega)
    · rw [show 2 ^ 23 * k + m + 1 = 2 ^ 23 * (k + 1) + 2 ^ 23 by omega, magnitudeValue_eq (by decide) (.inr le_rfl),
        show ((k + 1 : Nat) : Int) - 149 = (k : Int) - 149 + 1 by omega, zpow_add_one₀ two_ne_zero, ← Nat.succ_eq_add_one, hcarry]
      norm_num
      ring
  rw [magnitudeValue_eq hm hk, hnext]
  gcongr
  exact m.lt_succ_self

/-- A magnitude with a sign; the two zeros are one. -/
def withSign (s : Bool) (g : Nat) : Int := if s then -g else g

/-- The magnitude bits of a word with its sign (R171). -/
def signedBits (u : Word) : Int := withSign (signOf u) (magnitudeBits u)

/-- A monotone map of the magnitudes that keeps 0 is monotone on the signed magnitudes. -/
theorem withSign_le_of_monotone {f : Nat → Nat} (hf : Monotone f) (hzero : f 0 = 0) {s t : Bool} {a b : Nat}
    (h : withSign s a ≤ withSign t b) : withSign s (f a) ≤ withSign t (f b) := by
  cases s <;> cases t <;> simp only [withSign, Bool.false_eq_true, if_true, if_false] at h ⊢
  · exact_mod_cast hf (by omega)
  · obtain ⟨rfl, rfl⟩ : a = 0 ∧ b = 0 := by omega
    simp [hzero]
  · omega
  · have := hf (show b ≤ a by omega)
    omega

/-- The number that the signed magnitude bits of a finite word denote. -/
def signedValue (z : Int) : ℚ := z.sign * magnitudeValue z.natAbs

theorem signedValue_neg (z : Int) : signedValue (-z) = -signedValue z := by simp [signedValue]

theorem signedValue_natCast (g : Nat) : signedValue g = magnitudeValue g := by
  cases g with
  | zero => simp [signedValue, magnitudeValue_zero]
  | succ g => rw [signedValue, Int.natAbs_natCast, Int.sign_natCast_of_ne_zero g.succ_ne_zero, Int.cast_one, one_mul]

theorem signedValue_strictMono : StrictMono signedValue := by
  refine strictMono_of_odd_strictMonoOn_nonneg signedValue_neg fun y hy z hz hlt => ?_
  lift y to Nat using hy
  lift z to Nat using hz
  rw [signedValue_natCast, signedValue_natCast]
  exact strictMono_nat_of_lt_succ magnitudeValue_lt_succ (Int.ofNat_lt.mp hlt)

theorem signedValue_withSign (s : Bool) (g : Nat) : signedValue (withSign s g) = (if s then -1 else 1) * magnitudeValue g := by
  cases s
  · simp [withSign, signedValue_natCast]
  · simp [withSign, signedValue_neg, signedValue_natCast]

/-- A finite word denotes the number of its signed magnitude bits (R132). -/
theorem val_f32dec (h : (f32dec u).isFinite = true) : (f32dec u).val = signedValue (signedBits u) := by
  rw [signedBits, signedValue_withSign]
  obtain ⟨s, hc⟩ | ⟨s, m, x, hc⟩ := ClassVal.isFinite_iff.mp h
  · have hmag : magnitudeBits u = 0 := magnitudeBits_zero hc
    rw [hc, ClassVal.val_zero, hmag, magnitudeValue_zero, mul_zero]
  · obtain ⟨k, rfl, -, hmag, hm, hk⟩ := magnitudeBits_fin hc
    rw [hc, ClassVal.val_fin, (f32dec_fin hc).1, hmag, magnitudeValue_eq hm hk, mul_assoc]

/-- The order of the class values is that of the signed magnitude bits (R171, R172 (c)). -/
theorem f32dec_le_iff (hu : f32dec u ≠ .nan) (hv : f32dec v ≠ .nan) : (f32dec u).le (f32dec v) ↔ signedBits u ≤ signedBits v := by
  have hvalues : (f32dec u).isFinite = true ∧ (f32dec v).isFinite = true ∧ (f32dec u).val ≤ (f32dec v).val ↔
      magnitudeBits u < infBits ∧ magnitudeBits v < infBits ∧ signedBits u ≤ signedBits v := by
    rw [← f32dec_isFinite_iff, ← f32dec_isFinite_iff]
    exact and_congr_right fun hfu => and_congr_right fun hfv => by
      rw [val_f32dec hfu, val_f32dec hfv, signedValue_strictMono.le_iff_le]
  rw [ClassVal.le, and_iff_right hu, and_iff_right hv, hvalues, f32dec_eq_inf_iff, f32dec_eq_inf_iff]
  have hmu := magnitudeBits_le_infBits hu
  have hmv := magnitudeBits_le_infBits hv
  have hpos : 0 < infBits := by decide
  cases hsu : signOf u <;> cases hsv : signOf v <;>
    simp only [signedBits, withSign, hsu, hsv, Bool.false_eq_true, Bool.true_eq_false, if_true, if_false, false_and, true_and, false_or] <;> omega

end Sys2Proof.Machine
end

section
/-! PROOFS. CVT_BF16 rounds the magnitude bits to the nearest multiple of 2^16: its value rule, its sign, its grid and its order (R170 to R172). -/

namespace Sys2Proof.Machine

variable {u : Word}

/-- Adding `0x7FFF` and the last kept bit, and dropping 16 bits, is rounding to the nearest multiple of 2^16 (R171). -/
theorem rne_two_pow_sixteen (g : Nat) : rne g (2 ^ 16) = (g + 0x7FFF + g / 2 ^ 16 % 2) / 2 ^ 16 := by
  simp only [rne]
  split_ifs <;> omega

/-- Of two numbers, the larger has the larger nearest even integer. -/
theorem NearestEven.mono {n n' : Nat} {y y' : ℚ} (h : NearestEven n y) (h' : NearestEven n' y') (hle : y ≤ y') : n ≤ n' := by
  by_contra hlt
  have hsucc : (n' : ℚ) + 1 ≤ n := by exact_mod_cast not_le.mp hlt
  have heq : y = y' := by linarith [le_of_abs_le h.dist_le_half, neg_le_of_abs_le h'.dist_le_half]
  exact hlt (h.unique (heq ▸ h')).le

theorem rne_mono {a b den : Nat} (hden : 0 < den) (h : a ≤ b) : rne a den ≤ rne b den :=
  (rne_nearestEven a hden).mono (rne_nearestEven b hden) (by gcongr)

theorem isNaN32_iff : isNaN32 u = true ↔ f32dec u = .nan := by
  simp only [isNaN32, f32dec, Bool.and_eq_true, decide_eq_true_eq]
  split_ifs with hnan
  · exact iff_of_true hnan rfl
  all_goals exact iff_of_false hnan (by simp)

theorem cvtBF16_nan (h : f32dec u = .nan) : cvtBF16 u = nanBF16 := if_pos (isNaN32_iff.mpr h)

/-- The halfword of a word that is no NaN: its sign and its rounded magnitude bits (R170). -/
theorem cvtBF16_toNat (h : f32dec u ≠ .nan) :
    (cvtBF16 u).toNat = 2 ^ 15 * (signOf u).toNat + rne (magnitudeBits u) (2 ^ 16) := by
  have hmag := magnitudeBits_le_infBits h
  rw [infBits] at hmag
  rw [cvtBF16, if_neg (mt isNaN32_iff.mp h), rne_two_pow_sixteen]
  simp only [BitVec.toNat_ofNat, BitVec.extractLsb'_toNat, Nat.shiftRight_eq_div_pow, toNat_eq_sign_magnitude u]
  have hlsb : (2 ^ 31 * (signOf u).toNat + magnitudeBits u) / 2 ^ 16 % 2 ^ 1 = magnitudeBits u / 2 ^ 16 % 2 := by omega
  have hlt : magnitudeBits u / 2 ^ 16 % 2 < 2 := Nat.mod_lt _ two_pos
  have hs := (signOf u).toNat_lt
  rw [hlsb]
  generalize magnitudeBits u / 2 ^ 16 % 2 = lsb at *
  omega

theorem packBF16_toNat {s : Bool} {e t : Nat} (he : e < 256) (ht : t < 128) :
    (packBF16 s e t).toNat = 2 ^ 15 * s.toNat + 2 ^ 7 * e + t := by
  have := s.toNat_lt
  rw [packBF16, BitVec.toNat_ofNat]
  omega

/-- The encoded halfword of a rounded magnitude in the binade `k`: a carry out of the significand runs into the exponent, up to infinity (R171). -/
theorem encodeBF16_toNat (s : Bool) {n k : Nat} (hk : k ≤ 253) (hn : n ≤ 256) (hnorm : k = 0 ∨ 128 ≤ n) :
    (encodeBF16 s n ((k : Int) - 133)).toNat = 2 ^ 15 * s.toNat + (2 ^ 7 * k + n) := by
  have hs := s.toNat_lt
  obtain rfl | hpos := Nat.eq_zero_or_pos n
  · obtain rfl : k = 0 := by omega
    exact packBF16_toNat (by decide) (by decide)
  · simp only [encodeBF16, if_neg hpos.ne']
    split_ifs
    all_goals rw [packBF16_toNat (by omega) (by omega)]; omega

/-- The value rule on a number reads the 8 leading bits of its binary32 significand (R171). -/
theorem cvtBF16Value_fin {s : Bool} {m : Nat} {x : Int} (h : f32dec u = .fin s m x) :
    cvtBF16Value (.fin s m x) = encodeBF16 s (rne m (2 ^ 16)) (x + 16) := by
  have hkept := keptExp_f32dec h
  have hlast : max ((Nat.log2 m : Int) + x) (-126) - 7 = x + 16 := by
    rw [keptExp] at hkept
    omega
  simp only [cvtBF16Value, hlast, show x - (x + 16) = -16 by omega, rneScaled]
  rfl

/-- Settles O56, by the class of the word: on a number the carry of the rounded magnitude bits is the carry of the value rule. -/
theorem converterMatchesTheValueRule : Obligations.ConverterMatchesTheValueRule := by
  intro u
  by_cases hnan : f32dec u = .nan
  · rw [cvtBF16_nan hnan, hnan, cvtBF16Value]
  apply BitVec.eq_of_toNat_eq
  rw [cvtBF16_toNat hnan]
  obtain ⟨s, hc⟩ | hfin := ClassVal.inf_or_isFinite hnan
  · obtain ⟨rfl, hmag⟩ := f32dec_eq_inf_iff.mp hc
    rw [hc, hmag, cvtBF16Value, packBF16_toNat (by decide) (by decide)]
    rfl
  obtain ⟨s, hc⟩ | ⟨s, m, x, hc⟩ := ClassVal.isFinite_iff.mp hfin
  · rw [hc, f32dec_zero hc, magnitudeBits_zero hc, cvtBF16Value, packBF16_toNat (by decide) (by decide)]
    rfl
  · have hvalue := cvtBF16Value_fin hc
    obtain ⟨k, rfl, hk, hmag, hm, hnorm⟩ := magnitudeBits_fin hc
    have hn := rne_two_pow_sixteen m
    rw [hc, hvalue, hmag, (f32dec_fin hc).1, show (k : Int) - 149 + 16 = k - 133 by omega,
      encodeBF16_toNat _ hk (by omega) (by omega), rne_two_pow_sixteen (_ + m)]
    omega

/-- A halfword extended by zeros (R88). -/
theorem toNat_append_zeros (h : Half) : (h ++ 0x0000#16).toNat = 2 ^ 16 * h.toNat :=
  (BitVec.toNat_append h 0x0000#16).trans (by simp [Nat.shiftLeft_eq, Nat.mul_comm])

theorem signOf_append_zeros (h : Half) : signOf (h ++ 0x0000#16) = h.getLsbD 15 := BitVec.getLsbD_append

/-- The halfword of a word that is no NaN, extended by zeros: the sign is kept and the magnitude bits are rounded to a multiple of 2^16 (R170, R88). -/
theorem widened_cvtBF16 (h : f32dec u ≠ .nan) :
    signOf (cvtBF16 u ++ 0x0000#16) = signOf u ∧ magnitudeBits (cvtBF16 u ++ 0x0000#16) = 2 ^ 16 * rne (magnitudeBits u) (2 ^ 16) := by
  have hmag := magnitudeBits_le_infBits h
  refine sign_magnitude_of_toNat ?_ ?_
  · rw [toNat_append_zeros, cvtBF16_toNat h]
    omega
  · rw [rne_two_pow_sixteen]
    rw [infBits] at hmag
    omega

/-- A word that is no NaN converts to no NaN: the largest, infinity, is on the grid (R170). -/
theorem bf16dec_cvtBF16_ne_nan (h : f32dec u ≠ .nan) : bf16dec (cvtBF16 u) ≠ .nan := by
  rw [bf16dec, Ne, f32dec_eq_nan_iff, (widened_cvtBF16 h).2, rne_two_pow_sixteen]
  have hmag := magnitudeBits_le_infBits h
  rw [infBits] at *
  omega

/-- A halfword extended by zeros has nothing to round (R172 (d)). -/
theorem cvtBF16_append_zeros {h : Half} (hnan : bf16dec h ≠ .nan) : cvtBF16 (h ++ 0x0000#16) = h := by
  apply BitVec.eq_of_toNat_eq
  have hwide := toNat_eq_sign_magnitude (h ++ 0x0000#16)
  rw [toNat_append_zeros] at hwide
  rw [cvtBF16_toNat hnan, rne_two_pow_sixteen]
  omega

/-- Settles O57: the rounded magnitude bits leave the sign alone and do not pass those of infinity. -/
theorem converterSignGridAndNaN : Obligations.ConverterSignGridAndNaN :=
  ⟨fun _ h => ⟨(signOf_append_zeros _).symm.trans (widened_cvtBF16 h).1, bf16dec_cvtBF16_ne_nan h⟩,
    fun _ => cvtBF16_append_zeros, fun _ => cvtBF16_nan⟩

/-- Settles O58: the order is that of the signed magnitude bits, and rounding them is monotone. -/
theorem converterIsMonotone : Obligations.ConverterIsMonotone := by
  intro u v hle
  obtain ⟨hu, hv, -⟩ := id hle
  rw [f32dec_le_iff hu hv] at hle
  refine (f32dec_le_iff (bf16dec_cvtBF16_ne_nan hu) (bf16dec_cvtBF16_ne_nan hv)).mpr ?_
  obtain ⟨hsu, hmu⟩ := widened_cvtBF16 hu
  obtain ⟨hsv, hmv⟩ := widened_cvtBF16 hv
  rw [signedBits, signedBits, hsu, hmu, hsv, hmv]
  exact withSign_le_of_monotone (f := fun g => 2 ^ 16 * rne g (2 ^ 16)) (fun _ _ h => Nat.mul_le_mul_left _ (rne_mono (by decide) h)) rfl hle

end Sys2Proof.Machine
end

section
/-! PROOFS. The error completion of a command as a whole next state (R101, R102, R195). -/

namespace Sys2Proof.Machine

/-- Issuing a command and raising an error write CMD and the three fields of STATUS, once each (R101, R195). -/
theorem State.raise_issue (c : Desc) (e : ErrorCode) (s : State) :
    (s.issue c).raise e = { s with cmd := c, code := e.bits, doneBit := true, phase := .idle } := rfl

/-- Settles O16: on an idle engine the command runs whole, and its failing check ends it in the state that was issued with the error raised. -/
theorem gemmErrorChangesOnlyTheInterface : Obligations.GemmErrorChangesOnlyTheInterface := by
  intro x s e hi herr
  rw [exec_gemm_of_idle x hi, runCommand_of_error herr, State.raise_issue]

end Sys2Proof.Machine
end

section
/-! PROOFS. Reset (R215), and what the host may see of C while a command runs and after a reset cut it short (R217, R224). -/

namespace Sys2Proof.Machine

/-- Settles O9: the reset needs no port, and the engine it leaves is idle, so an issue that follows is taken. -/
theorem resetReturnsTheEngineToIdle : Obligations.ResetReturnsTheEngineToIdle := by
  intro s rest ha
  have hstep : step s = .next (State.resetEvent { s with agenda := rest }) := step_of_agenda ha (by simp [needsPort])
  exact ⟨_, hstep, rfl, rfl, rfl, rfl, rfl, rfl, fun c => step_issue_idle rfl rfl⟩

/-- An idle engine has no step for its agents to take (R36). -/
theorem takeEvent_engineEvent_idle {s : State} {e : Event} (hinv : s.Inv) (hi : s.phase = .idle) (he : engineEvent e = true) :
    takeEvent e s = .next s := by
  have hnone := hinv.no_workers_of_not_compute (by simp [hi])
  cases e with
  | sequencer => simp only [takeEvent, sequencerStep, hi]
  | worker p => exact workerStep_of_none (hnone p)
  | storeElement p q => exact storeElementStep_of_not_ready fun w e hw => by cases (hnone p).symm.trans hw
  | command | issue | reset | hostWrite | hostWriteStatus => cases he

/-- An event that is no act of the host is a choice among the engine's agents or the reset (R36, R215). -/
theorem engineOrReset_iff {e : Event} : engineOrReset e = true ↔ engineEvent e = true ∨ e = .reset := by
  simp [engineOrReset]

/-- Neither the choices among the engine's agents nor the reset need the port (R101). -/
theorem needsPort_of_engineOrReset {e : Event} (h : engineOrReset e = true) : needsPort e = false := by
  obtain he | rfl := engineOrReset_iff.mp h
  · exact needsPort_of_engineEvent he
  · rfl

/-- Memory `mem` is that of `s` after some elements of C of the command `c` took their final values, those of the memory of `s`. -/
abbrev OldOrFinal (s : State) (c : Desc) (mem : Memory) : Prop :=
  ElementWrites c.args (dimsOf c.args) (elem s.cfg.fp8 s.mem c.args (dimsOf c.args)) s.mem mem

/-- In every state of a command each element of C is old or final (R224). -/
theorem CommandAt.oldOrFinal {s t : State} {c : Desc} (h : CommandAt s c t) (hwf : s.mem.wf = true) : OldOrFinal s c t.mem := by
  cases h with
  | issued => exact .refl hwf
  | rejected => exact .refl hwf
  | computing ws hmem => exact hmem
  | completed hvalid => exact (computed_elementWrites hvalid hwf).1

/-- The states of the command `c` issued in `s` when resets may follow: those of the command itself, and the idle ones after a reset,
with the elements stored so far (R217). -/
inductive CommandOrReset (s : State) (c : Desc) (t : State) : Prop
  | command (h : CommandAt s c t)
  | reset (hi : t.phase = .idle) (ha : t.agenda = s.agenda) (hmem : OldOrFinal s c t.mem)

namespace CommandOrReset

variable {s t t' u : State} {c : Desc}

theorem oldOrFinal (h : CommandOrReset s c t) (hwf : s.mem.wf = true) : OldOrFinal s c t.mem := by
  cases h with
  | command h => exact h.oldOrFinal hwf
  | reset _ _ hmem => exact hmem

theorem agenda_eq (h : CommandOrReset s c t) : t.agenda = s.agenda := by
  cases h with
  | command h => exact h.agenda_eq
  | reset _ ha _ => exact ha

theorem withAgenda (h : CommandOrReset s c t) (es : List Event) :
    CommandOrReset { s with agenda := es } c { t with agenda := es } := by
  cases h with
  | command h => exact .command (h.withAgenda es)
  | reset hi _ hmem => exact .reset hi rfl hmem

/-- An engine choice goes on with the command or finds the engine idle; a reset keeps the elements stored so far (R215, R217). -/
theorem takeEvent (h : CommandOrReset s c t) (hwf : s.mem.wf = true) (hinv : t.Inv) {e : Event} (he : engineOrReset e = true)
    (ht : takeEvent e t = .next t') : CommandOrReset s c t' := by
  obtain he | rfl := engineOrReset_iff.mp he
  · cases h with
    | command h => exact .command (h.takeEngineEvent hwf hinv he ht)
    | reset hi ha hmem =>
      cases (takeEvent_engineEvent_idle hinv hi he).symm.trans ht
      exact .reset hi ha hmem
  · cases ht
    exact .reset rfl h.agenda_eq (h.oldOrFinal hwf)

/-- A run over engine choices and resets stays among these states until the agenda is used up (R217). -/
theorem run_events {es : List Event} (h : CommandOrReset { s with agenda := es } c t) (hwf : s.mem.wf = true) (hinv : t.Inv)
    (hes : ∀ e ∈ es, engineOrReset e = true) (hrun : Host.Core.run Sys2Proof.core es.length t = .next u) :
    CommandOrReset { s with agenda := [] } c u := by
  induction es generalizing t with
  | nil =>
    cases hrun
    exact h
  | cons e rest ih =>
    obtain ⟨t', hstep, hrest⟩ := exists_step_of_run_succ hrun
    have hinv' := (step_sound hinv).inv t' hstep
    have he := hes e List.mem_cons_self
    rw [step_of_agenda h.agenda_eq fun hport => by simp [needsPort_of_engineOrReset he] at hport] at hstep
    have h' := (h.withAgenda rest).takeEvent hwf (hinv.withAgenda rest) he hstep
    exact ih h' hinv' (fun e' he' => hes e' (List.mem_cons_of_mem e he')) hrest

end CommandOrReset

/-- Settles O34: every state of the run is one of the command or one after a reset, and in both each element of C is old or final. -/
theorem everyElementIsOldOrFinal : Obligations.EveryElementIsOldOrFinal := by
  intro s u x es hinv hi hx hes hrun
  rw [run_succ_of_step (step_issue_idle (s := { s with agenda := .issue (encode (.gemm x)) :: es }) hi rfl)] at hrun
  have hend := CommandOrReset.run_events (s := s) (.command .issued) hinv.memWf
    ((hinv.withAgenda es).issue hi (encode (.gemm x))) hes hrun
  have hwrites := hend.oldOrFinal hinv.memWf
  rw [OldOrFinal, encode_args hx] at hwrites
  exact ⟨hwrites.element, hwrites.outside⟩

end Sys2Proof.Machine
end
